-- ==== Sys2Proof/Word.lean ====
section
/-! DEFINITION. The widths the engine moves: 32-bit words (a command, a CSR, a limb, an entropy word) and bytes of the
RAM windows. Big numbers are mathematical integers, held as Nat (spec/10_state.md R31: "an unsigned integer in
[0, 2^MAXBITS)"); spec/00_scope.md R14: "Every value in pseudocode is a mathematical integer". -/

namespace Sys2Proof

/-- A 32-bit word: a command word (R140), a CSR (R42), one limb (R31), one entropy word (R71). -/
abbrev Word := BitVec 32

/-- One byte of a RAM window (R65, R66). -/
abbrev Byte := BitVec 8

/-- The number of a big register, 0..15 (R144: "Every value names a register; none is special"). -/
abbrev Reg := Fin 16

end Sys2Proof
end

