-- ==== Sys2Proof/Config.lean ====
section
/-! DEFINITION. What is fixed for one engine, and what the spec leaves open: the eight implementation parameters
(spec/00_scope.md R5-R12) with the ranges the spec gives them, the fixed constants of R13, and the FREE VALUES (opaque
constants without a body, which nothing in Lean can evaluate): the unspecified contents of the RAMs
(spec/70_reset_and_hazards.md R451, spec/60_exceptions.md R410, spec/45_decrypt.md R332) and the unspecified number of
entropy pairs an abandoned command took (spec/60_exceptions.md R409). -/

namespace Sys2Proof

/-- The implementation parameters (R5-R12), "each parameter is a named argument of the model". An engine keeps its
parameters for ever; they stand in the state because a step is a function of the state alone (log entry 1). -/
structure Params where
  /-- MAXBITS (R5): width in bits of every B register and ciphertext slot. -/
  maxBits : Nat
  /-- NLANES (R6): number of decrypt lanes. -/
  nLanes : Nat
  /-- CTSLOTS (R7): number of ciphertext slots. -/
  ctSlots : Nat
  /-- MSGBYTES (R8): size in bytes of the message RAM. -/
  msgBytes : Nat
  /-- OUTBYTES (R9): size in bytes of the output RAM. -/
  outBytes : Nat
  /-- MR_ROUNDS_DEFAULT (R10): Miller-Rabin rounds GENPRIME uses, and PTEST where its field is 0. -/
  mrRounds : Nat
  /-- PRIME_MAX_ATTEMPTS (R11): candidates GENPRIME tries before it gives up; 0 means no limit. -/
  maxAttempts : Nat
  /-- BASE (R12): the bus address of offset 0 of the window. -/
  base : Nat
  deriving DecidableEq, Repr

/-- The ranges R5-R12 give the parameters. That PRIME_MAX_ATTEMPTS is below 2^32 is DEDUCED from R49, whose PARAM4 shows
it in 32 bits (log entry 2). -/
abbrev Params.Legal (p : Params) : Prop :=
  (p.maxBits % 32 = 0 ∧ 64 ≤ p.maxBits ∧ p.maxBits ≤ 4096) ∧ (1 ≤ p.nLanes ∧ p.nLanes ≤ 255) ∧
    (1 ≤ p.ctSlots ∧ p.ctSlots ≤ 128) ∧ (p.msgBytes % 4 = 0 ∧ 4 ≤ p.msgBytes ∧ p.msgBytes ≤ 65536) ∧
    (p.outBytes % 4 = 0 ∧ 4 ≤ p.outBytes ∧ p.outBytes ≤ 65536) ∧ (1 ≤ p.mrRounds ∧ p.mrRounds ≤ 65535) ∧
    p.maxAttempts < 2 ^ 32 ∧ p.base % 0x40000 = 0

/-- The defaults of R5-R11. BASE is "set by the platform" (R12); 0 is this model's default for it, a DESIGN CHOICE
(log entry 2). -/
def Params.default : Params where
  maxBits := 2048
  nLanes := 4
  ctSlots := 64
  msgBytes := 4096
  outBytes := 4096
  mrRounds := 20
  maxAttempts := 0
  base := 0

namespace Config

/-- E_FIXED (R13): the public exponent GENKEYS writes. -/
def eFixed : Nat := 65537

/-- MARGIN (R13): the reserved margin of the block size. -/
def margin : Nat := 11

/-- FREE VALUE. The byte an unwritten RAM address holds under draw number `draw` (R451: "a model draws one value per byte
or slot, and no rule may rely on it"; log entry 4). A new draw number is used each time the spec makes RAM unspecified. -/
opaque freeByte (draw addr : Nat) : Byte

/-- FREE VALUE. From which the number k of entropy pairs an abandoned command took is made (R409: "takes some number k of
pairs ... A model keeps every k"; log entry 5). -/
opaque freeCount (draw : Nat) : Nat

end Config

end Sys2Proof
end

