-- ==== Sys2Proof/Machine/Arith.lean ====
section
/-! DEFINITION. The integer and byte-string functions of the spec: bitlen and ceil (spec/00_scope.md R14), BE and BEmin (R16),
little-endian limbs (spec/20_memory.md R102, R103), the exponentiation and inverse datapaths (spec/43_codec.md R282,
spec/41_modinv.md R242). Laws/Arith.lean proves the datapaths equal to the functions they stand for (R281, R241). -/

namespace Sys2Proof.Machine

/-- R14: the least k with x < 2^k. -/
def bitLen (x : Nat) : Nat := if x = 0 then 0 else x.log2 + 1

/-- R14: `ceil(a / b)` for b > 0. -/
def ceilDiv (a b : Nat) : Nat := (a + b - 1) / b

/-- R16: the big-endian value of a byte string. -/
def beValue (bs : List Byte) : Nat := bs.foldl (fun acc x => acc * 256 + x.toNat) 0

/-- R16, R105: the shortest byte string whose big-endian value is v; empty for 0. -/
def beMin (v : Nat) : List Byte :=
  let len := ceilDiv (bitLen v) 8
  (List.range len).map fun i => BitVec.ofNat 8 (v >>> (8 * (len - 1 - i)))

/-- The little-endian value of a byte string: byte k has weight 256^k (R102, R103). -/
def leValue (bs : List Byte) : Nat := bs.foldr (fun x acc => x.toNat + 256 * acc) 0

/-- The n low bytes of v, least significant first (R102, R103). -/
def leBytes (n v : Nat) : List Byte := (List.range n).map fun k => BitVec.ofNat 8 (v >>> (8 * k))

/-- Limb j of a big number: bits [32j+31:32j] (R31). -/
def limb (x j : Nat) : Word := BitVec.ofNat 32 (x >>> (32 * j))

/-- The big number x with limb j replaced by v, every other limb kept (R34). -/
def setLimb (x j : Nat) (v : Word) : Nat :=
  x % 2 ^ (32 * j) + v.toNat * 2 ^ (32 * j) + x / 2 ^ (32 * (j + 1)) * 2 ^ (32 * (j + 1))

/-- R282's loop from bit i-1 down to bit 0: square, and multiply where the exponent bit is 1. -/
def modExpFrom (b e m : Nat) : Nat → Nat → Nat
  | 0, r => r
  | i + 1, r =>
    let q := r * r % m
    modExpFrom b e m i (if e.testBit i then q * b % m else q)

/-- R282: left-to-right square-and-multiply, for m >= 1. Its value is `(b^e) mod m` (R281; Laws/Arith.lean). -/
def modExp (b e m : Nat) : Nat := modExpFrom (b % m) e m (bitLen e) (1 % m)

/-- R242's loop on signed coefficients, with fuel for its iterations; the answer is the last x1. The remainders fall
strictly once a < m, so fuel m + 2 is never used up (Laws/Arith.lean). -/
def modInvLoop : Nat → Nat → Nat → Int → Int → Int
  | 0, _, _, _, x1 => x1
  | fuel + 1, a, m, x0, x1 =>
    if a ≤ 1 ∨ m = 0 then x1
    else modInvLoop fuel m (a % m) (x1 - (a / m : Nat) * x0) x0

/-- R242: the inverse of a modulo m, for a >= 1, m >= 2 and gcd(a, m) = 1, "adding the original modulus m0 once" where the
coefficient is negative. -/
def modInv (a m : Nat) : Nat :=
  let x := modInvLoop (m + 2) a m 0 1
  (if x < 0 then x + m else x).toNat

end Sys2Proof.Machine
end

