-- ==== Sys2Proof/Syntax.lean ====
section
/-! DEFINITION. The eight commands of spec/opcode_table.json (spec/30_encoding.md R147), one constructor a row, each with
the operands its row lists in field order. -/

namespace Sys2Proof

/-- A command of the engine (R147). Fields that a row requires to be zero are no operands. -/
inductive Instr where
  /-- NOP (R350): no operands. -/
  | nop
  /-- MODINV (R240): ra destination x, rb the value a, rc the modulus m. -/
  | modinv (ra rb rc : Reg)
  /-- MODEXP (R280): ra destination, rb base, rc exponent, rd modulus. -/
  | modexp (ra rb rc rd : Reg)
  /-- PTEST (R200): rb candidate, imm16 round count, 0 meaning MR_ROUNDS_DEFAULT. -/
  | ptest (rb : Reg) (rounds : BitVec 16)
  /-- GENPRIME (R220): ra destination, imm16 bit length. -/
  | genprime (ra : Reg) (bits : BitVec 16)
  /-- GENKEYS (R260): ra gets n, rb gets e, rc gets d, imm12 key bit length. -/
  | genkeys (ra rb rc : Reg) (bits : BitVec 12)
  /-- ENCRYPT (R300): rb public exponent e, rc modulus n. -/
  | encrypt (rb rc : Reg)
  /-- DECRYPT (R320): rb private exponent d, rc modulus n. -/
  | decrypt (rb rc : Reg)
  deriving DecidableEq, Repr

end Sys2Proof
end

