-- ==== Sys2Proof/Machine/State.lean ====
section
/-! DEFINITION. The engine's state as plain data (spec/10_state.md R30-R73), with the agents' pending moves beside it: the
host's bus accesses and the choices of spec/45_decrypt.md R327 and spec/60_exceptions.md R408 (which step comes first) stand
in `script`, the entropy pairs the port has delivered in `entropy`. Reset is spec/70_reset_and_hazards.md R450. -/

namespace Sys2Proof.Machine

/-- The ERRCODE values (R401). "Values 0x0A to 0xFF are never written", so they are no constructors. -/
inductive ErrCode where
  | noError | illegalCmd | uninit | domain | invalidModulus | keyTooSmall | generationFailed | decryptionFailed
  | cancelled | capacity
  deriving DecidableEq, Repr

/-- `run` (R68): Idle, or Running(w) with w the 32-bit command word. -/
inductive Run where
  | idle
  | running (w : Word)
  deriving DecidableEq, Repr

/-- One decrypt lane (R69, R325): free, or computing block `i`. -/
inductive Lane where
  | free
  | busy (i : Nat)
  deriving DecidableEq, Repr

/-- The lane machine of a running DECRYPT (R69, R70, R325). -/
structure DecryptUnit where
  /-- `next`: the next block index to dispatch. -/
  next : Nat
  /-- `lane[0..NLANES-1]`. -/
  lanes : List Lane
  /-- The reorder slots RES[0..CTSLOTS-1] and the set `reported` in one: RES[i] is `some v` exactly when i is reported. An
  unreported slot's content is "unspecified and unobservable" (R70), so none is held. -/
  res : List (Option Nat)
  deriving DecidableEq, Repr

/-- One pair of the entropy port (R71). -/
structure EntropyPair where
  ok : Bool
  word : Word
  deriving DecidableEq, Repr

/-- What moves next. The first two and `hardReset` are the outside's moves; `deliver` is the entropy port's; the last four
choose among the engine's own enabled steps (R326, R327, R330, R152). A move that is not enabled changes nothing. -/
inductive Event where
  /-- A host bus read of `width` bytes at bus address `addr` (R107). -/
  | read (addr width : Nat)
  /-- A host bus write of `width` bytes of `v` at bus address `addr` (R107). -/
  | write (addr width : Nat) (v : Word)
  /-- The platform's reset input (R450). -/
  | hardReset
  /-- The entropy port delivers its next pair (R71). -/
  | deliver (p : EntropyPair)
  /-- The running command's completion step (R152, R411). -/
  | engine
  /-- The lane machine's dispatch step (R326). -/
  | dispatch
  /-- Lane `l` finishes its block (R327). -/
  | lane (l : Nat)
  /-- The arbiter's step (R330). -/
  | arbiter
  deriving DecidableEq, Repr

/-- What the bus showed the host after its last access: an output port, not a register of the engine. -/
inductive BusResponse where
  /-- No access yet. -/
  | quiet
  /-- A write was taken (or ignored with a normal response, R42, R111). -/
  | done
  /-- A read returned this word. -/
  | data (v : Word)
  /-- The bus error (R424). -/
  | error
  /-- The address lies outside the window (R100), so the engine does not answer. -/
  | unclaimed
  deriving DecidableEq, Repr

/-- The RAM behind the CT, MSG and OUT windows (R63, R65, R66), by window offset (R101), as a sparse list in canonical form:
addresses strictly rising (`Memory.wf`, Machine/Ops.lean). An unlisted address holds no stored value: it reads as the FREE
VALUE of its draw (R451, R410, R332), so no entry can equal what an unlisted address holds. -/
structure Memory where
  cells : List Host.Cell
  /-- The draw number of each ciphertext slot (R451 "a draw per slot"). -/
  ctDraw : List Nat
  /-- The draw number of the message RAM. -/
  msgDraw : Nat
  /-- The draw number of the output RAM. -/
  outDraw : Nat
  deriving DecidableEq, Repr

/-- The memory whose every address is unspecified under draw number `d` (R451). -/
def Memory.blank (p : Params) (d : Nat) : Memory where
  cells := []
  ctDraw := List.replicate p.ctSlots d
  msgDraw := d
  outDraw := d

/-- The state record of R30. -/
structure State where
  /-- The implementation parameters R5-R12: no step changes them (log entry 1). -/
  params : Params
  /-- B[0..15] (R31), each in [0, 2^MAXBITS). -/
  b : Vector Nat 16
  /-- VALID[0..15] (R32). -/
  valid : Vector Bool 16
  /-- CT, MSG and OUT (R63, R65, R66). -/
  mem : Memory
  /-- CTRL.IRQEN (R52). -/
  irqen : Bool
  /-- STATUS.DONE (R37). -/
  done : Bool
  /-- STATUS.ERR (R38). -/
  err : Bool
  /-- STATUS.PRIME (R39). -/
  prime : Bool
  /-- STATUS.CMDOVR (R40). -/
  cmdovr : Bool
  /-- STATUS.ERRCODE (R41). -/
  errcode : ErrCode
  /-- ERRINFO.SUBCODE (R56). -/
  subcode : BitVec 8
  /-- ERRINFO.INDEX (R56). -/
  index : BitVec 16
  /-- LASTCMD (R35, R55). -/
  lastcmd : Word
  /-- MSGLEN (R57). -/
  msglen : Word
  /-- BLKSIZE (R58). -/
  blksize : Word
  /-- CTCOUNT (R59). -/
  ctcount : Word
  /-- OUTLEN (R60). -/
  outlen : Word
  /-- `run` (R68); STATUS.BUSY is its view (R36). -/
  run : Run
  /-- `abort_pending` (R67). -/
  abortPending : Bool
  /-- Lane, dispatch and reorder state (R69, R70); none outside a DECRYPT that passed its checks. -/
  unit : Option DecryptUnit
  /-- The pairs the entropy port has delivered and no command has taken (R71), oldest first. -/
  entropy : List EntropyPair
  /-- The moves still to come, first one next; when it is empty the engine moves by itself (log entry 3). -/
  script : List Event
  /-- The response of the last bus access. -/
  bus : BusResponse
  /-- THE MODEL'S OWN: how many draws of free values have been made (log entry 4). -/
  draws : Nat
  deriving DecidableEq, Repr

/-- Why the machine stops. The engine itself never stops: every error is a completion (R400). -/
inductive Fault where
  /-- Raised by `step` in a state whose parameters lie outside the ranges of R5-R12. No such engine exists, so nothing the
  spec describes is refused. Safe. -/
  | illegalParams
  deriving DecidableEq, Repr

/-- Why an instruction has no meaning. -/
inductive Refusal where
  /-- An arm of `exec` that has not got its meaning yet. No arm is left with it. Safe. -/
  | notModelled (mnemonic : String)
  deriving DecidableEq, Repr

/-- The three outcomes of a step of this machine. -/
abbrev Result := Host.Outcome State Fault Refusal

/-- The state after a hard reset of an engine with parameters `p` (R73, R450), nothing pending and the RAM under draw 0. -/
def State.resetWith (p : Params) : State where
  params := p
  b := Vector.replicate 16 0
  valid := Vector.replicate 16 false
  mem := Memory.blank p 0
  irqen := false
  done := false
  err := false
  prime := false
  cmdovr := false
  errcode := .noError
  subcode := 0
  index := 0
  lastcmd := 0
  msglen := 0
  blksize := 0
  ctcount := 0
  outlen := 0
  run := .idle
  abortPending := false
  unit := none
  entropy := []
  script := []
  bus := .quiet
  draws := 0

/-- The machine right after reset (R73), with the spec's default parameters. -/
def State.reset : State := State.resetWith Params.default

end Sys2Proof.Machine
end

