-- ==== Sys2Proof/Machine/Ops.lean ====
section
/-! DEFINITION. The named operations over memory and registers, and the two ends of a command every meaning shares: the
completion step (spec/60_exceptions.md R411), which is the engine's trap entry, and the acknowledgement (R413, R54), which
is all the return it has. -/

namespace Sys2Proof.Machine

/-! ### Memory -/

/-- First offset of the CT window (R101). -/
def ctBase : Nat := 0x10000

/-- First offset of the MSG window (R101). -/
def msgBase : Nat := 0x20000

/-- First offset of the OUT window (R101). -/
def outBase : Nat := 0x30000

/-- The offset after the OUT window, the end of the window map (R101). -/
def outEnd : Nat := 0x40000

/-- Offset of the first byte of CT[i] (R63). -/
def ctAddr (i : Nat) : Nat := ctBase + 0x200 * i

/-- The canonical form of the memory: addresses strictly rising. -/
abbrev Memory.wf (m : Memory) : Prop := m.cells.Pairwise fun x y => x.1 < y.1

/-- The draw number that an unlisted address is under (R451); 0 outside the three RAM windows. -/
def Memory.drawOf (m : Memory) (a : Nat) : Nat :=
  if a < ctBase then 0
  else if a < msgBase then m.ctDraw.getD ((a - ctBase) / 0x200) 0
  else if a < outBase then m.msgDraw
  else if a < outEnd then m.outDraw
  else 0

/-- The byte at offset a: the stored one, else the FREE VALUE of the address's draw (R451). -/
def Memory.read (m : Memory) (a : Nat) : Byte :=
  match m.cells.lookup a with
  | some x => x
  | none => Config.freeByte (m.drawOf a) a

/-- The bytes at offsets a, ..., a+n-1. -/
def Memory.readBytes (m : Memory) (a n : Nat) : List Byte :=
  let near : Memory := { m with cells := m.cells.filter fun c => decide (a ≤ c.1) && decide (c.1 < a + n) }
  (List.range n).map fun k => near.read (a + k)

/-- Cells for the bytes bs from offset a upwards. -/
def cellsFrom : Nat → List Byte → List Host.Cell
  | _, [] => []
  | a, x :: xs => (a, x) :: cellsFrom (a + 1) xs

/-- The cells with those at offsets lo, ..., hi-1 replaced by `new`. -/
def spliceCells (cells : List Host.Cell) (lo hi : Nat) (new : List Host.Cell) : List Host.Cell :=
  (cells.filter fun c => decide (c.1 < lo)) ++ (new ++ cells.filter fun c => decide (hi ≤ c.1))

/-- Store the bytes bs from offset a upwards. -/
def Memory.writeBytes (m : Memory) (a : Nat) (bs : List Byte) : Memory :=
  { m with cells := spliceCells m.cells a (a + bs.length) (cellsFrom a bs) }

/-- The 32-bit word at a 4-aligned offset, byte lanes little-endian (R102). -/
def Memory.readWord (m : Memory) (a : Nat) : Word := BitVec.ofNat 32 (leValue (m.readBytes a 4))

/-- Store a 32-bit word at a 4-aligned offset, byte lanes little-endian (R102). -/
def Memory.writeWord (m : Memory) (a : Nat) (v : Word) : Memory := m.writeBytes a (leBytes 4 v.toNat)

/-- CT[0..cnt-1] become unspecified, "a draw per slot" (R410). -/
def Memory.redrawCt (m : Memory) (cnt d : Nat) : Memory :=
  { m with
    cells := spliceCells m.cells ctBase (ctAddr (min cnt m.ctDraw.length)) []
    ctDraw := List.replicate (min cnt m.ctDraw.length) d ++ m.ctDraw.drop cnt }

/-- Every byte of OUT becomes unspecified, "a draw per byte" (R332, R410). -/
def Memory.redrawOut (m : Memory) (d : Nat) : Memory :=
  { m with cells := spliceCells m.cells outBase outEnd [], outDraw := d }

/-- The value of CT[i], least significant limb first (R63, R103). -/
def State.ct (s : State) (i : Nat) : Nat := leValue (s.mem.readBytes (ctAddr i) (s.params.maxBits / 8))

/-- `CT[i] <- v` for 0 <= v < 2^MAXBITS (R123). -/
def State.writeCt (s : State) (i v : Nat) : State :=
  { s with mem := s.mem.writeBytes (ctAddr i) (leBytes (s.params.maxBits / 8) v) }

/-- `CT[i+j] <- vs[j]` for every j (R304: "CT[0..cnt-1], each once"). -/
def State.writeCts (s : State) : Nat → List Nat → State
  | _, [] => s
  | i, v :: vs => State.writeCts (s.writeCt i v) (i + 1) vs

/-- `MsgBlock(p, k)` (R122): the bytes MSG[p..p+k). -/
def State.msgBlock (s : State) (p k : Nat) : List Byte := s.mem.readBytes (msgBase + p) k

/-- `OutWrite(0, t)` (R123). -/
def State.outWrite (s : State) (t : List Byte) : State := { s with mem := s.mem.writeBytes outBase t }

/-! ### Registers -/

/-- `B[k]` (R31). -/
def State.reg (s : State) (k : Reg) : Nat := s.b[k]

/-- `VALID[k]` (R32). -/
def State.isValid (s : State) (k : Reg) : Bool := s.valid[k]

/-- `B[k] <- v`, which sets VALID[k] (R17, R32). -/
def State.writeReg (s : State) (k : Reg) (v : Nat) : State :=
  { s with b := s.b.set k v, valid := s.valid.set k true }

/-- STATUS.BUSY (R36): 1 exactly when run = Running(w). -/
def State.busy (s : State) : Bool := decide (s.run ≠ .idle)

/-! ### Free values -/

/-- CT[0..cnt-1] take fresh draws (R410, R453). -/
def State.redrawCt (s : State) (cnt : Nat) : State :=
  { s with mem := s.mem.redrawCt cnt (s.draws + 1), draws := s.draws + 1 }

/-- Every OUT byte takes a fresh draw (R332, R410, R453). -/
def State.redrawOut (s : State) : State :=
  { s with mem := s.mem.redrawOut (s.draws + 1), draws := s.draws + 1 }

/-- Some number k of pairs, 0 <= k <= bound, leaves the entropy stream: a FREE VALUE (R409). -/
def State.takeSome (s : State) (bound : Nat) : State :=
  if bound = 0 then s
  else { s with entropy := s.entropy.drop (Config.freeCount (s.draws + 1) % (bound + 1)), draws := s.draws + 1 }

/-! ### Ending a command -/

/-- An error completion's record: ERRCODE, SUBCODE and INDEX (R17 `raise E(sub=s, index=x)`, R402, R403). -/
structure Failure where
  code : ErrCode
  sub : Nat
  index : Nat
  deriving DecidableEq, Repr

/-- THE COMPLETION STEP (R411), the engine's trap entry, after the outcome's writes: the record, ERR and DONE are set,
the engine is Idle, no abort is pending, and the lane state and RES are discarded. -/
def State.complete (s : State) (code : ErrCode) (sub idx : Nat) : State :=
  { s with
    errcode := code
    subcode := BitVec.ofNat 8 sub
    index := BitVec.ofNat 16 idx
    err := decide (code ≠ .noError)
    done := true
    run := .idle
    abortPending := false
    unit := none }

/-- `raise` (R17): complete with an error. -/
def State.raise (s : State) (f : Failure) : State := s.complete f.code f.sub f.index

/-- `complete()` (R17): complete with ERRCODE = NONE. -/
def State.succeed (s : State) : State := s.complete .noError 0 0

/-- THE ACKNOWLEDGEMENT of a completion, a write of v to STATUS (R54, R413): "There is no return-from-trap"; bits 1, 2 and 4
are write-1-to-clear and nothing else changes. -/
def State.acknowledge (s : State) (v : Word) : State :=
  { s with
    done := s.done && !v.getLsbD 1
    err := s.err && !v.getLsbD 2
    cmdovr := s.cmdovr && !v.getLsbD 4 }

/-- The record of a cancelled command (R401, R410). -/
def cancelledFailure : Failure := ⟨.cancelled, 0, 0⟩

/-- Which outcome a decoded command has (R408): the first check-phase error, else CANCELLED with the effects `cancelled`
where an abort is pending, else the execution phase `go`. -/
@[inline] def State.command (s : State) (check : Option Failure) (cancelled : State) (go : Result) : Result :=
  match check with
  | some f => .next (s.raise f)
  | none => if s.abortPending then .next (cancelled.raise cancelledFailure) else go

end Sys2Proof.Machine
end

