-- ==== Sys2Proof/Machine/Flags.lean ====
section
/-! DEFINITION. The flags and the words software reads them in: STATUS (spec/10_state.md R36-R41), ERRINFO (R56), CTRL (R50),
BVALID (R61), the PARAM words (R45-R49), ID and VERSION (R43, R44), and the interrupt output (R72). -/

namespace Sys2Proof.Machine

/-- The code of an ERRCODE value (R401). -/
def ErrCode.code : ErrCode → Nat
  | .noError => 0x00
  | .illegalCmd => 0x01
  | .uninit => 0x02
  | .domain => 0x03
  | .invalidModulus => 0x04
  | .keyTooSmall => 0x05
  | .generationFailed => 0x06
  | .decryptionFailed => 0x07
  | .cancelled => 0x08
  | .capacity => 0x09

/-- A flag as the number of its bit. -/
def bit (f : Bool) : Nat := if f then 1 else 0

/-- STATUS as read (R36-R41): BUSY bit 0, DONE 1, ERR 2, PRIME 3, CMDOVR 4, ERRCODE 15:8, the rest 0. -/
def State.statusWord (s : State) : Word :=
  BitVec.ofNat 32 (bit s.busy + 2 * bit s.done + 4 * bit s.err + 8 * bit s.prime + 16 * bit s.cmdovr +
    2 ^ 8 * s.errcode.code)

/-- ERRINFO as read (R56): INDEX in bits 15:0, SUBCODE in bits 23:16. -/
def State.errinfoWord (s : State) : Word := BitVec.ofNat 32 (s.index.toNat + 2 ^ 16 * s.subcode.toNat)

/-- CTRL as read (R50): IRQEN in bit 1, every other bit 0. -/
def State.ctrlWord (s : State) : Word := BitVec.ofNat 32 (2 * bit s.irqen)

/-- BVALID as read (R61): bit k = VALID[k], bits 31:16 = 0. -/
def State.bvalidWord (s : State) : Word :=
  BitVec.ofNat 32 (leSum (s.valid.toList.map bit))
where
  /-- Σ xs[k] * 2^k. -/
  leSum : List Nat → Nat
    | [] => 0
    | x :: xs => x + 2 * leSum xs

/-- The interrupt output (R72, R415): `irq = CTRL.IRQEN AND STATUS.DONE`. -/
def State.irq (s : State) : Bool := s.irqen && s.done

/-- ID (R43). -/
def idWord : Word := 0x52534131#32

/-- VERSION (R44). -/
def versionWord : Word := 0x00010000#32

/-- PARAM0 (R45): MAXBITS in 15:0, NLANES in 23:16, 16 in 31:24. -/
def param0Word (p : Params) : Word := BitVec.ofNat 32 (p.maxBits + 2 ^ 16 * p.nLanes + 2 ^ 24 * 16)

/-- PARAM1 (R46): CTSLOTS in 15:0, MR_ROUNDS_DEFAULT in 31:16. -/
def param1Word (p : Params) : Word := BitVec.ofNat 32 (p.ctSlots + 2 ^ 16 * p.mrRounds)

/-- PARAM2 (R47): MSGBYTES. -/
def param2Word (p : Params) : Word := BitVec.ofNat 32 p.msgBytes

/-- PARAM3 (R48): OUTBYTES. -/
def param3Word (p : Params) : Word := BitVec.ofNat 32 p.outBytes

/-- PARAM4 (R49): PRIME_MAX_ATTEMPTS. -/
def param4Word (p : Params) : Word := BitVec.ofNat 32 p.maxAttempts

end Sys2Proof.Machine
end

