-- ==== Sys2Proof/WellFormed.lean ====
section
/-! DEFINITION. Which terms of Instr are commands. The operand types already bound every field (R144-R146); the one further
condition is GENKEYS's (spec/30_encoding.md R147, R151): ra, rb and rc differ pairwise. -/

namespace Sys2Proof

/-- R151: a GENKEYS needs three different destinations; every other command has no condition. -/
def Instr.wellFormed : Instr → Bool
  | .nop => true
  | .modinv _ _ _ => true
  | .modexp _ _ _ _ => true
  | .ptest _ _ => true
  | .genprime _ _ => true
  | .genkeys ra rb rc _ => ra != rb && ra != rc && rb != rc
  | .encrypt _ _ => true
  | .decrypt _ _ => true

end Sys2Proof
end

