-- ==== Sys2Proof/Decode.lean ====
section
/-! DEFINITION. The command decoder (spec/30_encoding.md R148), total on all 2^32 words and refusing by name, and after it
the encoder written from the formats R141-R143. -/

namespace Sys2Proof

/-- R15: `v[hi:lo] = (v div 2^lo) mod 2^(hi-lo+1)`. -/
def field (w : Word) (hi lo : Nat) : Nat := w.toNat / 2 ^ lo % 2 ^ (hi - lo + 1)

/-- A 4-bit register field as a register number (R144). -/
def regField (w : Word) (hi lo : Nat) : Reg := Fin.ofNat 16 (field w hi lo)

/-- Why a word is ILLEGAL_CMD (R148): the three checks, in order. -/
inductive Illegal where
  /-- R149: opcode 0x08..0xFF, subcode 1. -/
  | undefinedOpcode
  /-- R150: a nonzero bit in a field that must be zero, subcode 2. -/
  | nonzeroField
  /-- R151: GENKEYS with two equal destinations, subcode 3. -/
  | equalDestinations
  deriving DecidableEq, Repr

/-- The SUBCODE of an ILLEGAL_CMD completion (R403). -/
def Illegal.subcode : Illegal → Nat
  | .undefinedOpcode => 1
  | .nonzeroField => 2
  | .equalDestinations => 3

/-- The rows of the opcode map (R147). -/
inductive Opcode where
  | nop | modinv | modexp | ptest | genprime | genkeys | encrypt | decrypt
  deriving DecidableEq, Repr

/-- The row of an opcode value; none for 0x08 and above (R147, R149). -/
def opcodeOf : Nat → Option Opcode
  | 0 => some .nop
  | 1 => some .modinv
  | 2 => some .modexp
  | 3 => some .ptest
  | 4 => some .genprime
  | 5 => some .genkeys
  | 6 => some .encrypt
  | 7 => some .decrypt
  | _ => none

/-- The mask column of R147: the opcode and the fields that must be zero. -/
def Opcode.mask : Opcode → Word
  | .nop => 0xFFFFFFFF#32
  | .modinv => 0xFF000FFF#32
  | .modexp => 0xFF0000FF#32
  | .ptest => 0xFFF00000#32
  | .genprime => 0xFF0F0000#32
  | .genkeys => 0xFF000000#32
  | .encrypt => 0xFFF00FFF#32
  | .decrypt => 0xFFF00FFF#32

/-- The match column of R147. -/
def Opcode.value : Opcode → Word
  | .nop => 0x00000000#32
  | .modinv => 0x01000000#32
  | .modexp => 0x02000000#32
  | .ptest => 0x03000000#32
  | .genprime => 0x04000000#32
  | .genkeys => 0x05000000#32
  | .encrypt => 0x06000000#32
  | .decrypt => 0x07000000#32

/-- The operands of a word of a row, from the formats R, I and K (R141-R146). -/
def operandsOf (op : Opcode) (w : Word) : Instr :=
  match op with
  | .nop => .nop
  | .modinv => .modinv (regField w 23 20) (regField w 19 16) (regField w 15 12)
  | .modexp => .modexp (regField w 23 20) (regField w 19 16) (regField w 15 12) (regField w 11 8)
  | .ptest => .ptest (regField w 19 16) (BitVec.ofNat 16 (field w 15 0))
  | .genprime => .genprime (regField w 23 20) (BitVec.ofNat 16 (field w 15 0))
  | .genkeys =>
    .genkeys (regField w 23 20) (regField w 19 16) (regField w 15 12) (BitVec.ofNat 12 (field w 11 0))
  | .encrypt => .encrypt (regField w 19 16) (regField w 15 12)
  | .decrypt => .decrypt (regField w 19 16) (regField w 15 12)

/-- R148: opcode, then zero fields, then GENKEYS's distinctness; the first failure is the answer. -/
def decode (w : Word) : Except Illegal Instr :=
  match opcodeOf (field w 31 24) with
  | none => .error .undefinedOpcode
  | some op =>
    if w &&& op.mask ≠ op.value then .error .nonzeroField
    else if (operandsOf op w).wellFormed then .ok (operandsOf op w)
    else .error .equalDestinations

/-- Format R (R141): `w = op*2^24 + ra*2^20 + rb*2^16 + rc*2^12 + rd*2^8`. -/
def formatR (op : Nat) (ra rb rc rd : Reg) : Word :=
  BitVec.ofNat 32 (op * 2 ^ 24 + ra.val * 2 ^ 20 + rb.val * 2 ^ 16 + rc.val * 2 ^ 12 + rd.val * 2 ^ 8)

/-- Format I (R142): `w = op*2^24 + ra*2^20 + rb*2^16 + imm16`. -/
def formatI (op : Nat) (ra rb : Reg) (imm : BitVec 16) : Word :=
  BitVec.ofNat 32 (op * 2 ^ 24 + ra.val * 2 ^ 20 + rb.val * 2 ^ 16 + imm.toNat)

/-- Format K (R143): `w = op*2^24 + ra*2^20 + rb*2^16 + rc*2^12 + imm12`. -/
def formatK (op : Nat) (ra rb rc : Reg) (imm : BitVec 12) : Word :=
  BitVec.ofNat 32 (op * 2 ^ 24 + ra.val * 2 ^ 20 + rb.val * 2 ^ 16 + rc.val * 2 ^ 12 + imm.toNat)

/-- The word of a command (R147, R160). -/
def encode : Instr → Word
  | .nop => formatR 0x00 0 0 0 0
  | .modinv ra rb rc => formatR 0x01 ra rb rc 0
  | .modexp ra rb rc rd => formatR 0x02 ra rb rc rd
  | .ptest rb rounds => formatI 0x03 0 rb rounds
  | .genprime ra bits => formatI 0x04 ra 0 bits
  | .genkeys ra rb rc bits => formatK 0x05 ra rb rc bits
  | .encrypt rb rc => formatR 0x06 0 rb rc 0
  | .decrypt rb rc => formatR 0x07 0 rb rc 0

/-- The command read from a table row's word: `w` numbered as spec/opcode_table.json numbers it (one 32-bit word, bit 0 the
least significant), the bits above `nbits` zero. None where the decoder refuses the word. -/
def decodeTableWord (nbits w : Nat) : Option Instr :=
  match decode (BitVec.ofNat 32 (w % 2 ^ nbits)) with
  | .ok i => some i
  | .error _ => none

end Sys2Proof
end

