-- ==== Sys2Proof/Machine/Operands.lean ====
section
/-! DEFINITION. The operand forms of a command: register sources, with the UNINIT check (spec/10_state.md R32, R33,
spec/60_exceptions.md R405), and the round count of PTEST (spec/30_encoding.md R145). The operand fields themselves are read
in Decode.lean (R144-R146). -/

namespace Sys2Proof.Machine

/-- R405: the first source, in check order, whose VALID bit is 0 gives UNINIT with its number as INDEX. -/
def State.checkSources (s : State) (sources : List Reg) : Option Failure :=
  (sources.find? fun k => !s.isValid k).map fun k => ⟨.uninit, 0, k.val⟩

/-- A check of a command's pseudocode: `if bad then raise f`. -/
def failIf (bad : Bool) (f : Failure) : Option Failure := if bad then some f else none

/-- R145, R200: the round count of PTEST, 0 meaning MR_ROUNDS_DEFAULT. -/
def State.roundsOf (s : State) (imm : BitVec 16) : Nat := if imm = 0 then s.params.mrRounds else imm.toNat

end Sys2Proof.Machine
end

