-- ==== Sys2Proof/Machine/Codec.lean ====
section
/-! DEFINITION. The modular exponentiation command and the block codec (spec/43_codec.md). -/

namespace Sys2Proof.Machine

/-- R280's checks: UNINIT rb, rc, rd, then DOMAIN subcode 1 where m = 0. -/
def checkModexp (rb rc rd : Reg) (s : State) : Option Failure :=
  (s.checkSources [rb, rc, rd]).or (failIf (decide (s.reg rd = 0)) ⟨.domain, 1, 0⟩)

/-- MODEXP (R280): B[ra] <- B[rb]^B[rc] mod B[rd]. -/
def execModexp (ra rb rc rd : Reg) (s : State) : Result :=
  s.command (checkModexp rb rc rd s) s
    (.next (s.writeReg ra (modExp (s.reg rb) (s.reg rc) (s.reg rd))).succeed)

/-- `EncodeBlock(s, e, n)` (R283). -/
def encodeBlock (bs : List Byte) (e n : Nat) : Nat := modExp (beValue bs) e n

/-- `DecodeBlock(c, d, n)` (R284). -/
def decodeBlock (c d n : Nat) : List Byte := beMin (modExp c d n)

end Sys2Proof.Machine
end

