-- ==== Sys2Proof/Machine/Decrypt.lean ====
section
/-! DEFINITION. DECRYPT's atomic rule (spec/45_decrypt.md section 1). The lane machine is Machine/Lanes.lean. -/

namespace Sys2Proof.Machine

/-- R320: the lowest i < CTCOUNT with CT[i] >= n. -/
def State.firstBadBlock (s : State) (n : Nat) : Option Nat :=
  (List.range s.ctcount.toNat).find? fun i => decide (s.ct i ≥ n)

/-- R320, R321's checks: UNINIT rb, rc; DOMAIN subcode 1; CAPACITY subcode 4; DECRYPTION_FAILED with the lowest index. -/
def checkDecrypt (rb rc : Reg) (s : State) : Option Failure :=
  (s.checkSources [rb, rc]).or <|
    (failIf (decide (s.reg rc = 0)) ⟨.domain, 1, 0⟩).or <|
      (failIf (decide (s.ctcount.toNat > s.params.ctSlots)) ⟨.capacity, 4, 0⟩).or <|
        (s.firstBadBlock (s.reg rc)).map fun i => ⟨.decryptionFailed, 1, i⟩

/-- R322, R323: the plaintext t, the decoded blocks in index order with nothing between them. -/
def State.plaintext (s : State) (rb rc : Reg) : List Byte :=
  (List.range s.ctcount.toNat).flatMap fun i => decodeBlock (s.ct i) (s.reg rb) (s.reg rc)

/-- R410, R332: a cancelled DECRYPT, and one ended by CAPACITY subcode 5, sets OUTLEN to 0 and leaves every OUT byte
unspecified. -/
def cancelDecrypt (s : State) : State := { s.redrawOut with outlen := 0 }

/-- R320 from the reassembled plaintext on, shared with the arbiter's step (R330): the capacity check (R324), OUT and OUTLEN,
and the completion. -/
def State.finishDecrypt (s : State) (t : List Byte) : State :=
  if t.length > s.params.outBytes then (cancelDecrypt s).raise ⟨.capacity, 5, 0⟩
  else ({ s.outWrite t with outlen := BitVec.ofNat 32 t.length } : State).succeed

/-- DECRYPT (R320): CT[0..CTCOUNT-1] into OUT[0..OUTLEN-1]. -/
def execDecrypt (rb rc : Reg) (s : State) : Result :=
  s.command (checkDecrypt rb rc s) (cancelDecrypt s) (.next (s.finishDecrypt (s.plaintext rb rc)))

end Sys2Proof.Machine
end

