-- ==== Sys2Proof/Machine/Lanes.lean ====
section
/-! DEFINITION. The lane machine inside a running DECRYPT (spec/45_decrypt.md section 2) and the acceptance of a command
(spec/30_encoding.md R152), which starts it. DECRYPT's meaning is its atomic rule; the lane steps are the refinement whose
result R331 says is the same. -/

namespace Sys2Proof.Machine

/-- The operand fields (rb, rc) of a DECRYPT; none for every other command. -/
def decryptFields : Instr → Option (Reg × Reg)
  | .nop => none
  | .modinv _ _ _ => none
  | .modexp _ _ _ _ => none
  | .ptest _ _ => none
  | .genprime _ _ => none
  | .genkeys _ _ _ _ => none
  | .encrypt _ _ => none
  | .decrypt rb rc => some (rb, rc)

/-- The operand fields of the running command if it is a DECRYPT. -/
def State.runningDecrypt (s : State) : Option (Reg × Reg) :=
  match s.run with
  | .idle => none
  | .running w =>
    match decode w with
    | .error _ => none
    | .ok i => decryptFields i

/-- R325: next = 0, every lane Free, reported = ∅. -/
def DecryptUnit.start (p : Params) : DecryptUnit where
  next := 0
  lanes := List.replicate p.nLanes .free
  res := List.replicate p.ctSlots none

/-- R325: the lane machine starts for a DECRYPT that passes the checks of R321; no other command has one. -/
def State.startUnit (s : State) : State :=
  match s.runningDecrypt with
  | none => { s with unit := none }
  | some (rb, rc) =>
    match checkDecrypt rb rc s with
    | some _ => { s with unit := none }
    | none => { s with unit := some (DecryptUnit.start s.params) }

/-- ACCEPTANCE of w (R152), the lane machine started with it. -/
def State.accept (s : State) (w : Word) : State :=
  ({ s with
    lastcmd := w
    run := .running w
    done := false
    err := false
    errcode := .noError
    subcode := 0
    index := 0
    abortPending := false } : State).startUnit

/-- R326: the lowest-numbered free lane takes the next block. Not enabled when every block is dispatched or no lane is free. -/
def DecryptUnit.dispatch (u : DecryptUnit) (cnt : Nat) : DecryptUnit :=
  match u.lanes.findIdx? fun l => l == Lane.free with
  | none => u
  | some l =>
    if u.next < cnt then { u with next := u.next + 1, lanes := u.lanes.set l (.busy u.next) } else u

/-- R327: lane l reports block i with value v and is free. -/
def DecryptUnit.report (u : DecryptUnit) (l i v : Nat) : DecryptUnit :=
  { u with lanes := u.lanes.set l .free, res := u.res.set i (some v) }

/-- R329: reported = (0, ..., cnt-1). -/
def DecryptUnit.allReported (u : DecryptUnit) (cnt : Nat) : Bool :=
  (List.range cnt).all fun i => (u.res.getD i none).isSome

/-- R330: `BEmin(RES[0]) ++ ... ++ BEmin(RES[cnt-1])`. -/
def DecryptUnit.reassemble (u : DecryptUnit) (cnt : Nat) : List Byte :=
  (List.range cnt).flatMap fun i => beMin ((u.res.getD i none).getD 0)

/-- The dispatch step (R326). -/
def State.dispatchStep (s : State) : State :=
  match s.unit with
  | none => s
  | some u => { s with unit := some (u.dispatch s.ctcount.toNat) }

/-- The lane step of lane l (R327): RES[i] <- CT[i]^d mod n. Not enabled for a free lane. -/
def State.laneStep (s : State) (l : Nat) : State :=
  match s.unit, s.runningDecrypt with
  | some u, some (rb, rc) =>
    match u.lanes.getD l .free with
    | .free => s
    | .busy i => { s with unit := some (u.report l i (modExp (s.ct i) (s.reg rb) (s.reg rc))) }
  | _, _ => s

/-- The arbiter's step (R329, R330): reassembly, the capacity check and the completion. Not enabled before every block is
reported, nor while an abort is pending (R408: the completion is then CANCELLED's). -/
def State.arbiterStep (s : State) : State :=
  match s.unit with
  | none => s
  | some u =>
    if u.allReported s.ctcount.toNat && !s.abortPending then s.finishDecrypt (u.reassemble s.ctcount.toNat) else s

end Sys2Proof.Machine
end

