-- ==== Sys2Proof/Machine/Encrypt.lean ====
section
/-! DEFINITION. The block-wise cipher (spec/44_encrypt.md). -/

namespace Sys2Proof.Machine

/-- R301: `blockSize = floor(bitlen(n)/8) - 11`, a signed integer. -/
def blockSize (n : Nat) : Int := (bitLen n / 8 : Nat) - (Config.margin : Int)

/-- R300: the block count `ceil(L / bs)` for a positive block size. -/
def blockCount (len bs : Nat) : Nat := ceilDiv len bs

/-- The block size an ENCRYPT under modulus B[rc] uses, once it is known positive. -/
def State.encryptSize (s : State) (rc : Reg) : Nat := (blockSize (s.reg rc)).toNat

/-- The block count of an ENCRYPT under modulus B[rc]; 0 where no positive block size exists. -/
def State.encryptCount (s : State) (rc : Reg) : Nat :=
  if blockSize (s.reg rc) ≤ 0 then 0 else blockCount s.msglen.toNat (s.encryptSize rc)

/-- R300's checks: UNINIT rb, rc; KEY_TOO_SMALL; CAPACITY subcode 2; CAPACITY subcode 3. -/
def checkEncrypt (rb rc : Reg) (s : State) : Option Failure :=
  (s.checkSources [rb, rc]).or <|
    (failIf (decide (blockSize (s.reg rc) ≤ 0)) ⟨.keyTooSmall, 0, 0⟩).or <|
      (failIf (decide (s.msglen.toNat > s.params.msgBytes)) ⟨.capacity, 2, 0⟩).or <|
        failIf (decide (s.encryptCount rc > s.params.ctSlots)) ⟨.capacity, 3, 0⟩

/-- R302: block i, MSG[i*bs .. min((i+1)*bs, L)). -/
def State.messageBlock (s : State) (bs i : Nat) : List Byte :=
  s.msgBlock (i * bs) (min bs (s.msglen.toNat - i * bs))

/-- R300's loop: the ciphertexts of blocks 0, ..., cnt-1. -/
def State.ciphertexts (s : State) (rb rc : Reg) : List Nat :=
  (List.range (s.encryptCount rc)).map fun i =>
    encodeBlock (s.messageBlock (s.encryptSize rc) i) (s.reg rb) (s.reg rc)

/-- R410: a cancelled ENCRYPT sets CTCOUNT to 0 and leaves CT[0..cnt-1] unspecified. -/
def cancelEncrypt (rc : Reg) (s : State) : State :=
  { s.redrawCt (s.encryptCount rc) with ctcount := 0 }

/-- ENCRYPT (R300): MSG[0..MSGLEN-1], block by block, into CT[0..cnt-1]; BLKSIZE and CTCOUNT follow. -/
def execEncrypt (rb rc : Reg) (s : State) : Result :=
  s.command (checkEncrypt rb rc s) (cancelEncrypt rc s)
    (.next ({ s.writeCts 0 (s.ciphertexts rb rc) with
      blksize := BitVec.ofNat 32 (s.encryptSize rc)
      ctcount := BitVec.ofNat 32 (s.encryptCount rc) } : State).succeed)

end Sys2Proof.Machine
end

