-- ==== Sys2Proof/Machine/Entropy.lean ====
section
/-! DEFINITION. Taking words from the entropy port (spec/10_state.md R71, spec/40_prime.md R203). A computation reads the pairs
the port has delivered and answers a value with the pairs it left, a GENERATION_FAILED subcode with the pairs it left, or
that it needs a pair the port has not delivered yet: the command then waits, "and takes no state step" (R71). -/

namespace Sys2Proof.Machine

/-- The answer of a computation over the delivered pairs. -/
inductive Draw (α : Type) where
  /-- A value; `rest` is not taken. -/
  | got (v : α) (rest : List EntropyPair)
  /-- `raise GENERATION_FAILED(sub)`; `rest` is not taken, the pair with ok = 0 is (R409). -/
  | failed (sub : Nat) (rest : List EntropyPair)
  /-- No outcome on the pairs delivered so far. -/
  | starved
  deriving DecidableEq, Repr

/-- Go on with the value and the pairs left. -/
def Draw.bind {α β : Type} (d : Draw α) (f : α → List EntropyPair → Draw β) : Draw β :=
  match d with
  | .got v rest => f v rest
  | .failed sub rest => .failed sub rest
  | .starved => .starved

/-- How many of the delivered pairs the computation took; all of them where it waits for more (R409). -/
def Draw.taken {α : Type} (d : Draw α) (delivered : List EntropyPair) : Nat :=
  match d with
  | .got _ rest => delivered.length - rest.length
  | .failed _ rest => delivered.length - rest.length
  | .starved => delivered.length

/-- `Entropy()` (R17, R71): the next word, or GENERATION_FAILED subcode 2 where its ok flag is 0. -/
def takeWord : List EntropyPair → Draw Word
  | [] => .starved
  | p :: rest => if p.ok then .got p.word rest else .failed 2 rest

/-- `EntropyInt(k)` (R17, R203): k words, the first taken being the least significant limb. -/
def entropyInt : Nat → List EntropyPair → Draw Nat
  | 0, ps => .got 0 ps
  | k + 1, ps =>
    (takeWord ps).bind fun w ps' => (entropyInt k ps').bind fun v rest => .got (w.toNat + 2 ^ 32 * v) rest

/-- The value of words in the order taken, the first being the least significant limb (R203): Σ word_j * 2^(32*j). -/
def wordsValue : List Word → Nat
  | [] => 0
  | w :: ws => w.toNat + 2 ^ 32 * wordsValue ws

/-- The words as pairs the port delivers with ok = 1 (R71). -/
def okPairs (ws : List Word) : List EntropyPair := ws.map fun w => ⟨true, w⟩

/-- The end of a command that draws entropy: its value goes on in `use` with the taken pairs gone, a failure completes with
GENERATION_FAILED (R409), and a computation that waits leaves the command running, the state as it is (R71, R223). -/
def State.settle {α : Type} (s : State) (d : Draw α) (use : State → α → Result) : Result :=
  match d with
  | .got v rest => use { s with entropy := rest } v
  | .failed sub rest => .next (({ s with entropy := rest } : State).raise ⟨.generationFailed, sub, 0⟩)
  | .starved => .next s

end Sys2Proof.Machine
end

