-- ==== Sys2Proof/Machine/Prime.lean ====
section
/-! DEFINITION. The prime test oracle and the prime generator (spec/40_prime.md). -/

namespace Sys2Proof.Machine

/-- R202: for t > 0, the largest s with 2^s dividing t, and t div 2^s; `fuel` bounds s. -/
def splitTwos : Nat → Nat → Nat × Nat
  | 0, t => (0, t)
  | fuel + 1, t =>
    if t % 2 = 0 then ((splitTwos fuel (t / 2)).1 + 1, (splitTwos fuel (t / 2)).2) else (0, t)

/-- R202's inner loop: some of the next j squarings of x modulo n is n - 1. -/
def reachesMinusOne (n : Nat) : Nat → Nat → Bool
  | 0, _ => false
  | j + 1, x => if x * x % n = n - 1 then true else reachesMinusOne n j (x * x % n)

/-- One round of R202 with base a, n - 1 = 2^s * t: whether it passes. -/
def roundPasses (n s t a : Nat) : Bool :=
  let x := modExp a t n
  x == 1 || x == n - 1 || reachesMinusOne n (s - 1) x

/-- `MRBase(n)` (R203) for odd n >= 5. -/
def mrBase (n : Nat) (ps : List EntropyPair) : Draw Nat :=
  (entropyInt (ceilDiv (bitLen n) 32) ps).bind fun r rest => .got (2 + r % (n - 3)) rest

/-- The k rounds of R202; a round that fails ends the test. -/
def mrRounds (n s t : Nat) : Nat → List EntropyPair → Draw Bool
  | 0, ps => .got true ps
  | k + 1, ps =>
    (mrBase n ps).bind fun a rest => if roundPasses n s t a then mrRounds n s t k rest else .got false rest

/-- `MRTest(n, k)` (R202). -/
def mrTest (n k : Nat) (ps : List EntropyPair) : Draw Bool :=
  if n < 2 then .got false ps
  else if n < 4 then .got true ps
  else if n % 2 = 0 then .got false ps
  else mrRounds n (splitTwos (bitLen (n - 1)) (n - 1)).1 (splitTwos (bitLen (n - 1)) (n - 1)).2 k ps

/-- R200's checks: UNINIT rb. -/
def checkPtest (rb : Reg) (s : State) : Option Failure := s.checkSources [rb]

/-- The draw of a PTEST that passed its checks. -/
def drawPtest (rb : Reg) (rounds : BitVec 16) (s : State) : Draw Bool :=
  mrTest (s.reg rb) (s.roundsOf rounds) s.entropy

/-- The most pairs an abandoned PTEST can have taken (R409); none where a check fails. -/
def takenPtest (rb : Reg) (rounds : BitVec 16) (s : State) : Nat :=
  if (checkPtest rb s).isSome then 0 else (drawPtest rb rounds s).taken s.entropy

/-- PTEST (R200): STATUS.PRIME <- MRTest(B[rb], k). -/
def execPtest (rb : Reg) (rounds : BitVec 16) (s : State) : Result :=
  s.command (checkPtest rb s) (s.takeSome (takenPtest rb rounds s))
    (s.settle (drawPtest rb rounds s) fun s' r => .next ({ s' with prime := r } : State).succeed)

/-- R221's candidate: the low `bits` bits of R with the top two bits and bit 0 set. -/
def candidate (bits r : Nat) : Nat := r % 2 ^ bits ||| 2 ^ (bits - 1) ||| 2 ^ (bits - 2) ||| 1

/-- R221's loop after `attempts` candidates; each attempt takes at least one pair, so fuel one above the number of pairs
is never used up. -/
def genPrimeFrom (p : Params) (bits : Nat) : Nat → Nat → List EntropyPair → Draw Nat
  | 0, _, _ => .starved
  | fuel + 1, attempts, ps =>
    if p.maxAttempts ≠ 0 ∧ attempts = p.maxAttempts then .failed 3 ps
    else
      (entropyInt (ceilDiv bits 32) ps).bind fun r ps' =>
        (mrTest (candidate bits r) p.mrRounds ps').bind fun pass rest =>
          if pass then .got (candidate bits r) rest else genPrimeFrom p bits fuel (attempts + 1) rest

/-- `GenPrime(bits)` (R221) for bits >= 2. -/
def genPrime (p : Params) (bits : Nat) (ps : List EntropyPair) : Draw Nat :=
  genPrimeFrom p bits (ps.length + 1) 0 ps

/-- R220's checks: GENERATION_FAILED subcode 1 below 2 bits, CAPACITY subcode 1 above MAXBITS. -/
def checkGenprime (bits : BitVec 16) (s : State) : Option Failure :=
  (failIf (decide (bits.toNat < 2)) ⟨.generationFailed, 1, 0⟩).or
    (failIf (decide (bits.toNat > s.params.maxBits)) ⟨.capacity, 1, 0⟩)

/-- The draw of a GENPRIME that passed its checks. -/
def drawGenprime (bits : BitVec 16) (s : State) : Draw Nat := genPrime s.params bits.toNat s.entropy

/-- The most pairs an abandoned GENPRIME can have taken (R409); none where a check fails. -/
def takenGenprime (bits : BitVec 16) (s : State) : Nat :=
  if (checkGenprime bits s).isSome then 0 else (drawGenprime bits s).taken s.entropy

/-- GENPRIME (R220): B[ra] <- GenPrime(imm16). -/
def execGenprime (ra : Reg) (bits : BitVec 16) (s : State) : Result :=
  s.command (checkGenprime bits s) (s.takeSome (takenGenprime bits s))
    (s.settle (drawGenprime bits s) fun s' c => .next (s'.writeReg ra c).succeed)

end Sys2Proof.Machine
end

