-- ==== Sys2Proof/Machine/KeyGen.lean ====
section
/-! DEFINITION. The key generator (spec/42_keygen.md). -/

namespace Sys2Proof.Machine

/-- R260's checks: CAPACITY subcode 1 above MAXBITS, then GENERATION_FAILED subcode 1 where bits div 2 < 2. -/
def checkGenkeys (bits : BitVec 12) (s : State) : Option Failure :=
  (failIf (decide (bits.toNat > s.params.maxBits)) ⟨.capacity, 1, 0⟩).or
    (failIf (decide (bits.toNat / 2 < 2)) ⟨.generationFailed, 1, 0⟩)

/-- R260, R261: p from the stream, then q from the same stream. -/
def drawGenkeys (bits : BitVec 12) (s : State) : Draw (Nat × Nat) :=
  (genPrime s.params (bits.toNat / 2) s.entropy).bind fun p rest =>
    (genPrime s.params (bits.toNat / 2) rest).bind fun q rest' => .got (p, q) rest'

/-- The most pairs an abandoned GENKEYS can have taken (R409); none where a check fails. -/
def takenGenkeys (bits : BitVec 12) (s : State) : Nat :=
  if (checkGenkeys bits s).isSome then 0 else (drawGenkeys bits s).taken s.entropy

/-- R260's phi. -/
def phiOf (p q : Nat) : Nat := (p - 1) * (q - 1)

/-- R260's writes for the primes p and q: n, e = 65537 and d into the three destinations. -/
def State.writeKeys (s : State) (ra rb rc : Reg) (p q : Nat) : State :=
  ((s.writeReg ra (p * q)).writeReg rb Config.eFixed).writeReg rc (modInv Config.eFixed (phiOf p q))

/-- R260 from the two primes on: INVALID_MODULUS where e has no inverse ("no retry", §4.3), else the three writes. -/
def finishGenkeys (ra rb rc : Reg) (s : State) (pq : Nat × Nat) : Result :=
  if Nat.gcd Config.eFixed (phiOf pq.1 pq.2) ≠ 1 then .next (s.raise ⟨.invalidModulus, 0, 0⟩)
  else .next (s.writeKeys ra rb rc pq.1 pq.2).succeed

/-- GENKEYS (R260): a textbook RSA keypair into B[ra], B[rb] and B[rc]. -/
def execGenkeys (ra rb rc : Reg) (bits : BitVec 12) (s : State) : Result :=
  s.command (checkGenkeys bits s) (s.takeSome (takenGenkeys bits s))
    (s.settle (drawGenkeys bits s) fun s' pq => finishGenkeys ra rb rc s' pq)

end Sys2Proof.Machine
end

