-- ==== Sys2Proof/Machine/Reset.lean ====
section
/-! DEFINITION. The hard and the soft reset (spec/70_reset_and_hazards.md R450-R453). -/

namespace Sys2Proof.Machine

/-- What a command abandoned by a reset leaves in the RAM and in the entropy stream (R453, R409): an ENCRYPT leaves
CT[0..cnt-1] unspecified, cnt clipped to CTSLOTS (log entry 9), a DECRYPT every OUT byte, and PTEST, GENPRIME and GENKEYS have taken some number of pairs. -/
def abandonInstr (i : Instr) (s : State) : State :=
  match i with
  | .nop => s
  | .modinv _ _ _ => s
  | .modexp _ _ _ _ => s
  | .ptest rb rounds => s.takeSome (takenPtest rb rounds s)
  | .genprime _ bits => s.takeSome (takenGenprime bits s)
  | .genkeys _ _ _ bits => s.takeSome (takenGenkeys bits s)
  | .encrypt _ rc => s.redrawCt (min (s.encryptCount rc) s.params.ctSlots)
  | .decrypt _ _ => s.redrawOut

/-- The running command, if there is one and its word is legal, is abandoned "with no completion step" (R453). -/
def State.abandon (s : State) : State :=
  match s.run with
  | .idle => s
  | .running w =>
    match decode w with
    | .error _ => s
    | .ok i => abandonInstr i s

/-- The registers, CSRs and hidden state of `s` at their reset values (R450), with what is no state of the engine kept: its
parameters, the entropy pairs not taken, the moves to come and the model's draw counter. The RAM is kept too. -/
def State.resetRegisters (s : State) : State :=
  { State.resetWith s.params with
    mem := s.mem
    entropy := s.entropy
    script := s.script
    bus := s.bus
    draws := s.draws }

/-- SOFT RESET (R452): a running command is abandoned, and everything but the RAM takes its reset value. -/
def State.softReset (s : State) : State := s.abandon.resetRegisters

/-- HARD RESET (R450, R451): as the soft reset, and every RAM byte and slot takes a fresh draw. -/
def State.hardReset (s : State) : State :=
  { s.softReset with
    mem := Memory.blank s.params (s.abandon.draws + 1)
    draws := s.abandon.draws + 1
    bus := .quiet }

end Sys2Proof.Machine
end

