-- ==== Sys2Proof/Machine/Bus.lean ====
section
/-! DEFINITION. The host bus: the window map (spec/20_memory.md R101), the CSR map (spec/10_state.md R42), reads and writes of
every location, and the bus error (spec/60_exceptions.md R424). -/

namespace Sys2Proof.Machine

/-- The CSRs of R42. -/
inductive Csr where
  | id | version | param0 | param1 | param2 | param3 | param4 | ctrl | status | cmd | errinfo | msglen | blksize
  | ctcount | outlen | bvalid | bzero
  deriving DecidableEq, Repr

/-- What stands at an offset of the window (R101). -/
inductive Loc where
  | csr (c : Csr)
  /-- Limb j of B[k]. -/
  | breg (k : Reg) (j : Nat)
  /-- Limb j of CT[i]; `off` is the window offset. -/
  | ct (i j off : Nat)
  /-- The MSG word at window offset `off`. -/
  | msg (off : Nat)
  /-- The OUT word at window offset `off`. -/
  | out (off : Nat)
  deriving DecidableEq, Repr

/-- The CSR map of R42; none for an offset that is not in the table. -/
def csrAt : Nat → Option Csr
  | 0x000 => some .id
  | 0x004 => some .version
  | 0x008 => some .param0
  | 0x00C => some .param1
  | 0x010 => some .param2
  | 0x014 => some .param3
  | 0x018 => some .param4
  | 0x020 => some .ctrl
  | 0x024 => some .status
  | 0x028 => some .cmd
  | 0x02C => some .errinfo
  | 0x030 => some .msglen
  | 0x034 => some .blksize
  | 0x038 => some .ctcount
  | 0x03C => some .outlen
  | 0x040 => some .bvalid
  | 0x044 => some .bzero
  | _ => none

/-- The window map of R101, for a 4-aligned offset; none where the offset is unmapped. -/
def locate (p : Params) (off : Nat) : Option Loc :=
  if off < 0x1000 then (csrAt off).map .csr
  else if off < 0x3000 then some (.breg (Fin.ofNat 16 ((off - 0x1000) / 0x200)) ((off - 0x1000) % 0x200 / 4))
  else if off < ctBase then none
  else if off < msgBase then
    if (off - ctBase) / 0x200 < p.ctSlots then some (.ct ((off - ctBase) / 0x200) ((off - ctBase) % 0x200 / 4) off)
    else none
  else if off < outBase then if off - msgBase < p.msgBytes then some (.msg off) else none
  else if off < outEnd then if off - outBase < p.outBytes then some (.out off) else none
  else none

/-- R100, R12: the window offset of a bus address; none outside the window's 0x40000 bytes. -/
def windowOffset (p : Params) (addr : Nat) : Option Nat :=
  if p.base ≤ addr ∧ addr < p.base + 0x40000 then some (addr - p.base) else none

/-- R110: whether a read of the location gets a bus error while BUSY = 1. -/
def Loc.readLocked : Loc → Bool
  | .csr _ => false
  | .breg _ _ => true
  | .ct _ _ _ => true
  | .msg _ => true
  | .out _ => true

/-- R110: whether a write gets a bus error while BUSY = 1. -/
def Loc.writeLocked : Loc → Bool
  | .csr .msglen => true
  | .csr .ctcount => true
  | .csr .bzero => true
  | .csr _ => false
  | .breg _ _ => true
  | .ct _ _ _ => true
  | .msg _ => true
  | .out _ => true

/-- The word a CSR reads as (R43-R62). -/
def State.readCsr (s : State) : Csr → Word
  | .id => idWord
  | .version => versionWord
  | .param0 => param0Word s.params
  | .param1 => param1Word s.params
  | .param2 => param2Word s.params
  | .param3 => param3Word s.params
  | .param4 => param4Word s.params
  | .ctrl => s.ctrlWord
  | .status => s.statusWord
  | .cmd => s.lastcmd
  | .errinfo => s.errinfoWord
  | .msglen => s.msglen
  | .blksize => s.blksize
  | .ctcount => s.ctcount
  | .outlen => s.outlen
  | .bvalid => s.bvalidWord
  | .bzero => 0

/-- The word a location reads as (R34, R63, R102; limbs above MAXBITS read 0, R111). -/
def State.readLoc (s : State) : Loc → Word
  | .csr c => s.readCsr c
  | .breg k j => if j < s.params.maxBits / 32 then limb (s.reg k) j else 0
  | .ct _ j off => if j < s.params.maxBits / 32 then s.mem.readWord off else 0
  | .msg off => s.mem.readWord off
  | .out off => s.mem.readWord off

/-- BZERO (R62): for k in 0..15, B[k] <- 0 where v[k] = 1. -/
def State.bzero (s : State) (v : Word) : State :=
  { s with
    b := Vector.ofFn fun k : Fin 16 => if v.getLsbD k.val then 0 else s.reg k
    valid := Vector.ofFn fun k : Fin 16 => v.getLsbD k.val || s.isValid k }

/-- CTRL (R50-R53): bit 2 is a soft reset, bits 0 and 1 then ignored; else IRQEN takes bit 1, and bit 0 sets abort_pending
while BUSY = 1. -/
def State.writeCtrl (s : State) (v : Word) : State :=
  if v.getLsbD 2 then s.softReset
  else { s with irqen := v.getLsbD 1, abortPending := s.abortPending || (v.getLsbD 0 && s.busy) }

/-- CMD (R55): accepted while Idle; dropped with CMDOVR set while BUSY = 1. -/
def State.writeCmd (s : State) (w : Word) : State := if s.busy then { s with cmdovr := true } else s.accept w

/-- A write to a CSR (R42-R62); a read-only one ignores it. -/
def State.writeCsr (s : State) (c : Csr) (v : Word) : State :=
  match c with
  | .ctrl => s.writeCtrl v
  | .status => s.acknowledge v
  | .cmd => s.writeCmd v
  | .msglen => { s with msglen := v }
  | .ctcount => { s with ctcount := v }
  | .bzero => s.bzero v
  | .id | .version | .param0 | .param1 | .param2 | .param3 | .param4 | .errinfo | .blksize | .outlen | .bvalid => s

/-- A write to a location (R34, R63, R102; limbs above MAXBITS ignore it, R111). -/
def State.writeLoc (s : State) (loc : Loc) (v : Word) : State :=
  match loc with
  | .csr c => s.writeCsr c v
  | .breg k j => if j < s.params.maxBits / 32 then s.writeReg k (setLimb (s.reg k) j v) else s
  | .ct _ j off => if j < s.params.maxBits / 32 then { s with mem := s.mem.writeWord off v } else s
  | .msg off => { s with mem := s.mem.writeWord off v }
  | .out off => { s with mem := s.mem.writeWord off v }

/-- The location a host access reaches: none where it gets a bus error for its width, its alignment or an unmapped offset
(R107, R112). -/
def State.target (s : State) (off width : Nat) : Option Loc :=
  if width ≠ 4 ∨ off % 4 ≠ 0 then none else locate s.params off

/-- A host read (R107-R112): no side effect (R109). -/
def State.busRead (s : State) (addr width : Nat) : State :=
  match windowOffset s.params addr with
  | none => { s with bus := .unclaimed }
  | some off =>
    match s.target off width with
    | none => { s with bus := .error }
    | some loc =>
      if s.busy && loc.readLocked then { s with bus := .error } else { s with bus := .data (s.readLoc loc) }

/-- A host write (R107-R112). -/
def State.busWrite (s : State) (addr width : Nat) (v : Word) : State :=
  match windowOffset s.params addr with
  | none => { s with bus := .unclaimed }
  | some off =>
    match s.target off width with
    | none => { s with bus := .error }
    | some loc =>
      if s.busy && loc.writeLocked then { s with bus := .error } else { s.writeLoc loc v with bus := .done }

end Sys2Proof.Machine
end

