-- ==== Sys2Proof/Machine/Control.lean ====
section
/-! DEFINITION. The control command, NOP (spec/46_control.md). -/

namespace Sys2Proof.Machine

/-- NOP (R350): `complete()`; CANCELLED if an abort is pending. -/
def execNop (s : State) : Result := s.command none s (.next s.succeed)

end Sys2Proof.Machine
end

