-- ==== Sys2Proof/Machine/ModInv.lean ====
section
/-! DEFINITION. The modular inverse engine (spec/41_modinv.md). -/

namespace Sys2Proof.Machine

/-- R240's checks before the datapath: UNINIT rb, UNINIT rc, DOMAIN subcode 2 where m <= 1. -/
def checkModinv (rb rc : Reg) (s : State) : Option Failure :=
  (s.checkSources [rb, rc]).or (failIf (decide (s.reg rc ≤ 1)) ⟨.domain, 2, 0⟩)

/-- MODINV (R240): B[ra] <- the inverse of B[rb] modulo B[rc]; INVALID_MODULUS where there is none, an execution-phase error
(R408). -/
def execModinv (ra rb rc : Reg) (s : State) : Result :=
  s.command (checkModinv rb rc s) s
    (if Nat.gcd (s.reg rb) (s.reg rc) ≠ 1 then .next (s.raise ⟨.invalidModulus, 0, 0⟩)
     else .next (s.writeReg ra (modInv (s.reg rb) (s.reg rc))).succeed)

end Sys2Proof.Machine
end

