-- ==== Sys2Proof/Machine/Dispatch.lean ====
section
/-! DEFINITION. `exec`: the completion step of each command (spec/30_encoding.md R152, Exec(S, w, E, abort)), one arm a row. -/

namespace Sys2Proof.Machine

/-- The completion of the running command i. -/
def exec (i : Instr) (s : State) : Host.Outcome State Fault Refusal :=
  match i with
  | .nop => Sys2Proof.Machine.execNop s
  | .modinv ra rb rc => Sys2Proof.Machine.execModinv ra rb rc s
  | .modexp ra rb rc rd => Sys2Proof.Machine.execModexp ra rb rc rd s
  | .ptest rb rounds => Sys2Proof.Machine.execPtest rb rounds s
  | .genprime ra bits => Sys2Proof.Machine.execGenprime ra bits s
  | .genkeys ra rb rc bits => Sys2Proof.Machine.execGenkeys ra rb rc bits s
  | .encrypt rb rc => Sys2Proof.Machine.execEncrypt rb rc s
  | .decrypt rb rc => Sys2Proof.Machine.execDecrypt rb rc s

end Sys2Proof.Machine
end

