-- ==== Sys2Proof/Machine/Engine.lean ====
section
/-! DEFINITION. The two agents' moves (spec/20_memory.md R115): the engine's completion step (spec/30_encoding.md R152), and
the effect of each event of the script. -/

namespace Sys2Proof.Machine

/-- The completion step of the running word: ILLEGAL_CMD where the decoder refuses it (R148, R404), else the command's
meaning. -/
def completionStep (w : Word) (s : State) : Result :=
  match decode w with
  | .error e => .next (s.raise ⟨.illegalCmd, e.subcode, 0⟩)
  | .ok i => exec i s

/-- The engine's own move: nothing while Idle (R454, R423), else the completion step. -/
def engineStep (s : State) : Result :=
  match s.run with
  | .idle => .next s
  | .running w => completionStep w s

/-- The effect of one event. -/
def eventStep (e : Event) (s : State) : Result :=
  match e with
  | .read addr width => .next (s.busRead addr width)
  | .write addr width v => .next (s.busWrite addr width v)
  | .hardReset => .next s.hardReset
  | .deliver p => .next { s with entropy := s.entropy ++ [p] }
  | .engine => engineStep s
  | .dispatch => .next s.dispatchStep
  | .lane l => .next (s.laneStep l)
  | .arbiter => .next s.arbiterStep

/-- The move that comes next: the script's first event, else the engine's own move. -/
def nextMove (s : State) : Result :=
  match s.script with
  | [] => engineStep s
  | e :: rest => eventStep e { s with script := rest }

end Sys2Proof.Machine
end

