-- ==== Sys2Proof/Machine/Step.lean ====
section
/-! DEFINITION. One step of the machine (spec/20_memory.md R115: one interleaving of host accesses and engine steps), and how a
word comes to be the running command. -/

namespace Sys2Proof.Machine

/-- One step: the next move, in an engine the spec describes (R5-R12). -/
def step (s : State) : Host.Outcome State Fault Refusal :=
  if s.params.Legal then nextMove s else .fault .illegalParams

/-- `s` with the word w accepted as the running command (R152) and the engine to move next: the engine "fetches nothing"
(R35), so acceptance is where a word becomes the command the next completion step runs (log entry 6). -/
def State.withFetchWord (s : State) (nbits w : Nat) : State :=
  { s.accept (BitVec.ofNat 32 (w % 2 ^ nbits)) with script := [] }

end Sys2Proof.Machine
end

