-- ==== Sys2Proof/Machine/HostScript.lean ====
section
/-! DEFINITION. The spec's command and host-script syntax (spec/30_encoding.md R160, R161, R170): an assembler from a mnemonic
and operands to a command, and each line of a host script as the events it stands for. No step uses this file; programs are
written with it. -/

namespace Sys2Proof.Machine

/-- An assembler operand (R160): a register `B0`..`B15`, or an immediate. -/
inductive AsmOperand where
  | breg (k : Nat)
  | imm (v : Nat)
  deriving DecidableEq, Repr

/-- A register operand; none for a number that names no register. -/
def asReg : AsmOperand → Option Reg
  | .breg k => if h : k < 16 then some ⟨k, h⟩ else none
  | .imm _ => none

/-- An immediate of `width` bits: "an assembler refuses a value that does not" fit its field. -/
def asImm (width : Nat) : AsmOperand → Option (BitVec width)
  | .breg _ => none
  | .imm v => if v < 2 ^ width then some (BitVec.ofNat width v) else none

/-- R160's table of forms, with R161's one pseudo-instruction: PTEST without a round count. -/
def assemble (mnemonic : String) (ops : List AsmOperand) : Option Instr :=
  match mnemonic, ops with
  | "NOP", [] => some .nop
  | "MODINV", [x, a, m] => do some (.modinv (← asReg x) (← asReg a) (← asReg m))
  | "MODEXP", [x, b, e, m] => do some (.modexp (← asReg x) (← asReg b) (← asReg e) (← asReg m))
  | "PTEST", [n, k] => do some (.ptest (← asReg n) (← asImm 16 k))
  | "PTEST", [n] => do some (.ptest (← asReg n) 0)
  | "GENPRIME", [p, bits] => do some (.genprime (← asReg p) (← asImm 16 bits))
  | "GENKEYS", [n, e, d, bits] => do some (.genkeys (← asReg n) (← asReg e) (← asReg d) (← asImm 12 bits))
  | "ENCRYPT", [e, n] => do some (.encrypt (← asReg e) (← asReg n))
  | "DECRYPT", [d, n] => do some (.decrypt (← asReg d) (← asReg n))
  | _, _ => none

/-- `wr32 off, v`: one 32-bit bus write. -/
def wr32 (p : Params) (off : Nat) (v : Word) : Event := .write (p.base + off) 4 v

/-- `rd32 off`: one 32-bit bus read; what it returns stands in the bus response. -/
def rd32 (p : Params) (off : Nat) : Event := .read (p.base + off) 4

/-- `cmd <command>`: the command's word to CMD. -/
def cmd (p : Params) (i : Instr) : Event := wr32 p 0x028 (encode i)

/-- `wait`: STATUS is read once the engine has taken its completion step. The spec's loop reads it again and again until BUSY
is 0; a read has no side effect (R109), so the reads before the last one add nothing. -/
def wait (p : Params) : List Event := [.engine, rd32 p 0x024]

/-- `abort`: CTRL.ABORT with IRQEN kept. -/
def abort (p : Params) (irqen : Bool) : Event := wr32 p 0x020 (BitVec.ofNat 32 (2 * bit irqen + 1))

/-- `setbig Bk, x`: BZERO, then each limb up to the highest nonzero one. -/
def setbig (p : Params) (k : Reg) (x : Nat) : List Event :=
  wr32 p 0x044 (BitVec.ofNat 32 (2 ^ k.val)) ::
    (List.range (ceilDiv (bitLen x) 32)).map fun j => wr32 p (0x1000 + 0x200 * k.val + 4 * j) (limb x j)

/-- `setct i, x`: every limb of the slot. -/
def setct (p : Params) (i x : Nat) : List Event :=
  (List.range (p.maxBits / 32)).map fun j => wr32 p (ctAddr i + 4 * j) (limb x j)

/-- `setmsg "s"`: the bytes packed four a word, those past the end 0, then MSGLEN. -/
def setmsg (p : Params) (bs : List Byte) : List Event :=
  ((List.range (ceilDiv bs.length 4)).map fun q =>
    wr32 p (msgBase + 4 * q) (BitVec.ofNat 32 (leValue ((bs.drop (4 * q)).take 4)))) ++
    [wr32 p 0x030 (BitVec.ofNat 32 bs.length)]

end Sys2Proof.Machine
end

