-- ==== Sys2Proof/Safety.lean ====
section
/-! DEFINITION. What claims are stated in terms of: the invariant every reachable state of the engine has, and what a safe run
is. Each clause is a fact of the spec about every state (ranges, R31, R63; which fields can stand together, R36-R41, R54,
R67-R69; the lane machine's bookkeeping, R325-R329). -/

namespace Sys2Proof

open Sys2Proof.Machine

/-- The offset is a byte of the mapped part of the CT, MSG or OUT window that has storage behind it (R101, R111). -/
abbrev hasStorage (p : Params) (a : Nat) : Prop :=
  (ctBase ≤ a ∧ a < msgBase ∧ (a - ctBase) / 0x200 < p.ctSlots ∧ (a - ctBase) % 0x200 < p.maxBits / 8) ∨
    (msgBase ≤ a ∧ a < msgBase + p.msgBytes) ∨ (outBase ≤ a ∧ a < outBase + p.outBytes)

/-- The memory is canonical, and holds values only where there is storage. -/
structure MemoryInv (p : Params) (m : Memory) : Prop where
  /-- Addresses strictly rising. -/
  canonical : m.wf
  /-- Every stored byte has an address with storage. -/
  mapped : ∀ c ∈ m.cells, hasStorage p c.1
  /-- One draw number a ciphertext slot. -/
  slots : m.ctDraw.length = p.ctSlots

/-- The big registers: R31's range, and a register nothing has written is 0 (R32, R450). -/
structure RegsInv (s : State) : Prop where
  /-- R31: an unsigned integer in [0, 2^MAXBITS). -/
  fit : ∀ k : Reg, s.reg k < 2 ^ s.params.maxBits
  /-- A register whose VALID bit is 0 still holds its reset value. -/
  unwritten : ∀ k : Reg, s.isValid k = false → s.reg k = 0

/-- The status fields, the error record and the running command (R36-R41, R54, R56, R67, R68). -/
structure StatusInv (s : State) : Prop where
  /-- An abort is pending only while a command runs (R51, R67). -/
  abortBusy : s.abortPending = true → s.busy = true
  /-- LASTCMD is the running word (R55, R68). -/
  lastcmd : ∀ w, s.run = .running w → s.lastcmd = w
  /-- While BUSY = 1 no completion stands recorded (R152, R54). -/
  busyClear : s.busy = true → s.done = false ∧ s.err = false ∧ s.errcode = .noError
  /-- ERR stands only beside an error code (R38). -/
  errCode : s.err = true → s.errcode ≠ .noError
  /-- ERRINFO is 0 where ERRCODE is NONE (R56). -/
  errInfo : s.errcode = .noError → s.subcode = 0 ∧ s.index = 0

/-- The lane machine `u` of a DECRYPT with exponent d and modulus n (R325-R329). -/
structure UnitInv (s : State) (d n : Nat) (u : DecryptUnit) : Prop where
  /-- NLANES lanes. -/
  lanes : u.lanes.length = s.params.nLanes
  /-- CTSLOTS reorder slots. -/
  slots : u.res.length = s.params.ctSlots
  /-- No block past CTCOUNT is dispatched. -/
  next : u.next ≤ s.ctcount.toNat
  /-- A busy lane computes a dispatched block that is not reported yet. -/
  working : ∀ i, Lane.busy i ∈ u.lanes → i < u.next ∧ u.res.getD i none = none
  /-- No block is on two lanes: "every block is dispatched exactly once" (R326). -/
  once : ∀ l l' i : Nat, u.lanes[l]? = some (Lane.busy i) → u.lanes[l']? = some (Lane.busy i) → l = l'
  /-- Every dispatched block is reported or on a lane. -/
  dispatched : ∀ i, i < u.next → u.res.getD i none = none → Lane.busy i ∈ u.lanes
  /-- A reported block was dispatched, and RES holds its decrypted value (R327). -/
  reported : ∀ i v, u.res.getD i none = some v → i < u.next ∧ v = s.ct i ^ d % n

/-- The lane machine stands only in a running DECRYPT that passed its checks (R69, R325). -/
def LanesInv (s : State) : Prop :=
  ∀ u, s.unit = some u →
    ∃ rb rc, s.runningDecrypt = some (rb, rc) ∧ checkDecrypt rb rc s = none ∧ UnitInv s (s.reg rb) (s.reg rc) u

/-- The invariant of the machine. -/
structure Inv (s : State) : Prop where
  legal : s.params.Legal
  memory : MemoryInv s.params s.mem
  regs : RegsInv s
  status : StatusInv s
  lanes : LanesInv s

/-- A safe step: it answers a next state with the invariant and the same parameters, so it neither faults nor refuses. -/
def SafeStep (s : State) : Prop := ∃ t, step s = .next t ∧ Inv t ∧ t.params = s.params

/-! ### Terms that claims share -/

/-- The check phase of a command (R408, items 2 and 3): its first check-phase error at this state, if it has one. -/
def checkOf (i : Instr) (s : State) : Option Failure :=
  match i with
  | .nop => none
  | .modinv _ rb rc => checkModinv rb rc s
  | .modexp _ rb rc rd => checkModexp rb rc rd s
  | .ptest rb _ => checkPtest rb s
  | .genprime _ bits => checkGenprime bits s
  | .genkeys _ _ _ bits => checkGenkeys bits s
  | .encrypt rb rc => checkEncrypt rb rc s
  | .decrypt rb rc => checkDecrypt rb rc s

/-- R202's round, without the loop: with n - 1 = 2^k * t and t odd, a^t is 1 or some a^(2^i * t) with i < k is n - 1,
modulo n. For a composite n such a base a is a strong liar (R204). -/
def PassesBase (n a : Nat) : Prop :=
  ∃ k t, n - 1 = 2 ^ k * t ∧ t % 2 = 1 ∧ (a ^ t % n = 1 ∨ ∃ i, i < k ∧ a ^ (2 ^ i * t) % n = n - 1)

/-- How many entropy words one draw below n takes (R203): ceil(bitlen(n) / 32). -/
def wordsFor (n : Nat) : Nat := ceilDiv (bitLen n) 32

/-- The base of round j, made from the words ws the test takes (R203). -/
def baseOf (n : Nat) (ws : List Word) (j : Nat) : Nat :=
  2 + wordsValue ((ws.drop (j * wordsFor n)).take (wordsFor n)) % (n - 3)

/-- Block i of the message, byte by byte (R302): MSG[i*bs .. min((i+1)*bs, L)). -/
def messageBytes (s : State) (bs i : Nat) : List Byte :=
  (List.range (min bs (s.msglen.toNat - i * bs))).map fun k => s.mem.read (msgBase + (i * bs + k))

/-- The message, byte by byte: MSG[0..MSGLEN-1]. -/
def wholeMessage (s : State) : List Byte := (List.range s.msglen.toNat).map fun k => s.mem.read (msgBase + k)

/-- A byte of the slots CT[0..cnt-1] (R63). -/
def inSlots (p : Params) (cnt a : Nat) : Prop := ∃ i, i < cnt ∧ ctAddr i ≤ a ∧ a < ctAddr i + p.maxBits / 8

/-- Every big register and its valid bit are the same. -/
def SameRegs (s t : State) : Prop := ∀ k : Reg, t.reg k = s.reg k ∧ t.isValid k = s.isValid k

/-- Every big register and its valid bit are the same, but for those listed. -/
def SameRegsBut (ks : List Reg) (s t : State) : Prop :=
  ∀ k : Reg, k ∉ ks → t.reg k = s.reg k ∧ t.isValid k = s.isValid k

/-- Every byte of memory reads the same. -/
def SameMem (s t : State) : Prop := ∀ a, t.mem.read a = s.mem.read a

/-- The record a successful completion leaves (R411 with ERRCODE = NONE). -/
structure Succeeded (t : State) : Prop where
  done : t.done = true
  err : t.err = false
  errcode : t.errcode = .noError
  subcode : t.subcode = 0
  index : t.index = 0
  run : t.run = .idle
  abort : t.abortPending = false
  unit : t.unit = none

/-- What no completion changes, whatever its outcome (R411), the bus and the moves to come among it. -/
structure SameKept (s t : State) : Prop where
  params : t.params = s.params
  irqen : t.irqen = s.irqen
  cmdovr : t.cmdovr = s.cmdovr
  lastcmd : t.lastcmd = s.lastcmd
  msglen : t.msglen = s.msglen
  script : t.script = s.script
  bus : t.bus = s.bus

/-! ### The generator's attempts and the entropy of an abandoned command -/

/-- One attempt of R221 that fails: its ceil(bits/32) words make a candidate that the test rejects, and `rest` is left. -/
def Rejects (p : Params) (bits : Nat) (ps rest : List EntropyPair) : Prop :=
  ∃ ws qs, ws.length = ceilDiv bits 32 ∧ ps = okPairs ws ++ qs ∧
    mrTest (candidate bits (wordsValue ws)) p.mrRounds qs = .got false rest

/-- k attempts of R221 one after the other, all of them rejected. -/
def RejectsTimes (p : Params) (bits : Nat) : Nat → List EntropyPair → List EntropyPair → Prop
  | 0, ps, rest => ps = rest
  | k + 1, ps, rest => ∃ mid, Rejects p bits ps mid ∧ RejectsTimes p bits k mid rest

/-- R221: attempt number k, counted from 0, is still within PRIME_MAX_ATTEMPTS. -/
def WithinLimit (p : Params) (k : Nat) : Prop := p.maxAttempts = 0 ∨ k < p.maxAttempts

/-- A pair with ok = 0 in one attempt, among the candidate's words or in a round of its test; `rest` follows it (R203). -/
def MeetsBadPair (p : Params) (bits : Nat) (ps rest : List EntropyPair) : Prop :=
  (∃ ws x, ws.length < ceilDiv bits 32 ∧ ps = okPairs ws ++ ⟨false, x⟩ :: rest) ∨
    ∃ ws qs, ws.length = ceilDiv bits 32 ∧ ps = okPairs ws ++ qs ∧
      mrTest (candidate bits (wordsValue ws)) p.mrRounds qs = .failed 2 rest

/-- How GenPrime(bits) fails on the pairs ps (R221): with subcode 3 after PRIME_MAX_ATTEMPTS rejected candidates, with
subcode 2 at a pair with ok = 0 in the first attempt or in a later one. -/
def GenerationFails (p : Params) (bits : Nat) (ps : List EntropyPair) (sub : Nat) (rest : List EntropyPair) : Prop :=
  (sub = 3 ∧ 0 < p.maxAttempts ∧ RejectsTimes p bits p.maxAttempts ps rest) ∨
    (sub = 2 ∧ ∃ k mid, WithinLimit p k ∧ RejectsTimes p bits k ps mid ∧ MeetsBadPair p bits mid rest)

/-- The commands that take entropy (R71, R351). -/
def drawsEntropy : Instr → Bool
  | .nop => false
  | .modinv _ _ _ => false
  | .modexp _ _ _ _ => false
  | .ptest _ _ => true
  | .genprime _ _ => true
  | .genkeys _ _ _ _ => true
  | .encrypt _ _ => false
  | .decrypt _ _ => false

/-- R409 for a command i abandoned in state s by an abort or a reset that leaves t: some pairs from the front are gone; none
where i takes no entropy or fails a check; and no more than i's own outcome takes, where it has one. -/
def TakesWithinBound (i : Instr) (s t : State) : Prop :=
  t.entropy <:+ s.entropy ∧ (drawsEntropy i = false ∨ checkOf i s ≠ none → t.entropy = s.entropy) ∧
    ∀ u, s.busy = true → exec i { s with abortPending := false } = .next u → u.busy = false → u.entropy <:+ t.entropy

/-- R409 for a reset that leaves t: nothing is taken from an Idle engine or by an illegal word; a running command is
abandoned within its bound. -/
def ResetTakesWithinBound (s t : State) : Prop :=
  (s.run = .idle → t.entropy = s.entropy) ∧
    (∀ w e, s.run = .running w → decode w = .error e → t.entropy = s.entropy) ∧
    ∀ w i, s.run = .running w → decode w = .ok i → TakesWithinBound i s t

/-- The lane events of a schedule, in order; the other events are no lane steps and are left out. -/
def runLanes (s : State) : List Event → State
  | [] => s
  | .dispatch :: es => runLanes s.dispatchStep es
  | .lane l :: es => runLanes (s.laneStep l) es
  | .read _ _ :: es => runLanes s es
  | .write _ _ _ :: es => runLanes s es
  | .hardReset :: es => runLanes s es
  | .deliver _ :: es => runLanes s es
  | .engine :: es => runLanes s es
  | .arbiter :: es => runLanes s es

/-- The (ERRCODE, SUBCODE) pairs a legal command can complete with (R351, R401, R403). -/
def recordsOf : Instr → List (ErrCode × Nat)
  | .nop => [(.noError, 0), (.cancelled, 0)]
  | .modinv _ _ _ => [(.noError, 0), (.cancelled, 0), (.uninit, 0), (.domain, 2), (.invalidModulus, 0)]
  | .modexp _ _ _ _ => [(.noError, 0), (.cancelled, 0), (.uninit, 0), (.domain, 1)]
  | .ptest _ _ => [(.noError, 0), (.cancelled, 0), (.uninit, 0), (.generationFailed, 2)]
  | .genprime _ _ =>
    [(.noError, 0), (.cancelled, 0), (.generationFailed, 1), (.generationFailed, 2), (.generationFailed, 3),
      (.capacity, 1)]
  | .genkeys _ _ _ _ =>
    [(.noError, 0), (.cancelled, 0), (.capacity, 1), (.generationFailed, 1), (.generationFailed, 2),
      (.generationFailed, 3), (.invalidModulus, 0)]
  | .encrypt _ _ =>
    [(.noError, 0), (.cancelled, 0), (.uninit, 0), (.keyTooSmall, 0), (.capacity, 2), (.capacity, 3)]
  | .decrypt _ _ =>
    [(.noError, 0), (.cancelled, 0), (.uninit, 0), (.domain, 1), (.capacity, 4), (.capacity, 5),
      (.decryptionFailed, 1)]

end Sys2Proof
end

