-- ==== Sys2Proof/Certificates/Slice0/Obligations.lean ====
section
/-! DEFINITION. The statements for the provers. Each docstring names the rule of the spec it formalises, and the model's choice
where a clause rests on one. A hypothesis `s.params.Legal` says that the engine's parameters lie in the ranges of
spec/00_scope.md R5-R12, as those of every engine do. -/

open Sys2Proof Sys2Proof.Machine

/-! ### Encoding -/

/-- R141-R147: no bit of an encoding is dropped: decoding the word of a well-formed command gives it back. -/
def Obligations.DecodeEncodeRoundTrip : Prop := ∀ i : Instr, i.wellFormed = true → decode (encode i) = .ok i

/-- R147, R154: a word has one meaning: a word that decodes is the word of the command it decodes to, which is well formed. -/
def Obligations.EncodeDecodeRoundTrip : Prop :=
  ∀ (w : Word) (i : Instr), decode w = .ok i → encode i = w ∧ i.wellFormed = true

/-- R149, R150, R151: every word that is no command completes with ILLEGAL_CMD: subcode 1 for an opcode above 0x07, subcode
2 for a nonzero field that the opcode's row requires to be zero (R147), subcode 3 for a GENKEYS with two equal destinations.
The engine moves by itself or by the script's choice, whose entry is then gone (log entry 3). -/
def Obligations.IllegalWordsComplete : Prop :=
  ∀ (s s' : State) (w : Word), s.params.Legal → s.run = .running w →
    (s.script = [] ∧ s' = s ∨ ∃ rest, s.script = .engine :: rest ∧ s' = { s with script := rest }) →
    (7 < field w 31 24 → step s = .next (s'.raise ⟨.illegalCmd, 1, 0⟩)) ∧
    ((field w 31 24 = 0 ∧ field w 23 0 ≠ 0) ∨ (field w 31 24 = 1 ∧ field w 11 0 ≠ 0) ∨
        (field w 31 24 = 2 ∧ field w 7 0 ≠ 0) ∨ (field w 31 24 = 3 ∧ field w 23 20 ≠ 0) ∨
        (field w 31 24 = 4 ∧ field w 19 16 ≠ 0) ∨
        ((field w 31 24 = 6 ∨ field w 31 24 = 7) ∧ (field w 23 20 ≠ 0 ∨ field w 11 0 ≠ 0)) →
      step s = .next (s'.raise ⟨.illegalCmd, 2, 0⟩)) ∧
    (field w 31 24 = 5 →
      (field w 23 20 = field w 19 16 ∨ field w 23 20 = field w 15 12 ∨ field w 19 16 = field w 15 12) →
      step s = .next (s'.raise ⟨.illegalCmd, 3, 0⟩))

/-- R160, R161 and spec/95_test_vectors.md 2.1: words written out from the formats decode to the commands they stand for, the
assembler makes those commands, and it refuses an immediate that does not fit its field. -/
def Obligations.SampleWordsDecode : Prop :=
  decode 0x00000000#32 = .ok .nop ∧ decode 0x01312000#32 = .ok (.modinv 3 1 2) ∧
    decode 0x02412300#32 = .ok (.modexp 4 1 2 3) ∧ decode 0x03010014#32 = .ok (.ptest 1 20) ∧
    decode 0x04200008#32 = .ok (.genprime 2 8) ∧ decode 0x05DEF010#32 = .ok (.genkeys 13 14 15 16) ∧
    decode 0x06021000#32 = .ok (.encrypt 2 1) ∧ decode 0x07031000#32 = .ok (.decrypt 3 1) ∧
    assemble "MODEXP" [.breg 4, .breg 1, .breg 2, .breg 3] = some (.modexp 4 1 2 3) ∧
    assemble "PTEST" [.breg 1] = some (.ptest 1 0) ∧ assemble "GENPRIME" [.breg 2, .imm 65535] = some (.genprime 2 65535) ∧
    assemble "GENPRIME" [.breg 2, .imm 65536] = none ∧ assemble "GENKEYS" [.breg 1, .breg 2, .breg 3, .imm 4096] = none

/-! ### The step, acceptance and completion -/

/-- R152: the completion step of a running word that decodes is the command's meaning; nothing stands around it but the
script's entry that chose the engine's move, which is gone. `withFetchWord` makes the word the running one.
The script and `withFetchWord` are the model's (log entries 3 and 6). -/
def Obligations.StepRunsDecodedCommand : Prop :=
  (∀ (s : State) (w : Word) (i : Instr), s.params.Legal → s.script = [] → s.run = .running w → decode w = .ok i →
      step s = exec i s) ∧
    (∀ (s : State) (w : Word) (i : Instr) (rest : List Event), s.params.Legal → s.script = .engine :: rest →
      s.run = .running w → decode w = .ok i → step s = exec i { s with script := rest }) ∧
    (∀ (s : State) (n : Nat) (i : Instr), s.params.Legal → decodeTableWord 32 n = some i →
      step (s.withFetchWord 32 n) = exec i (s.withFetchWord 32 n))

/-- R55, R152, R325: a write to CMD while Idle accepts the word, with everything but the fields of R152 and the lane machine
kept (a DECRYPT that passes its checks starts one); while BUSY = 1 it is dropped and sets CMDOVR; a read returns LASTCMD.
That the lane machine starts with the acceptance is the model's choice (log entry 8). -/
def Obligations.CmdWriteAcceptsOrOverruns : Prop :=
  (∀ (s : State) (w : Word) (rest : List Event), s.params.Legal → s.script = .write (s.params.base + 0x028) 4 w :: rest →
    (s.busy = false → ∃ u, step s = .next { s with
          script := rest, bus := .done, lastcmd := w, run := .running w, done := false, err := false,
          errcode := .noError, subcode := 0, index := 0, abortPending := false, unit := u } ∧
        (∀ rb rc, decode w = .ok (.decrypt rb rc) → checkDecrypt rb rc s = none →
          u = some (DecryptUnit.start s.params)) ∧
        ((∀ rb rc, decode w = .ok (.decrypt rb rc) → checkDecrypt rb rc s ≠ none) → u = none)) ∧
    (s.busy = true → step s = .next { s with script := rest, bus := .done, cmdovr := true })) ∧
  (∀ (s : State) (rest : List Event), s.params.Legal → s.script = .read (s.params.base + 0x028) 4 :: rest →
    step s = .next { s with script := rest, bus := .data s.lastcmd }) ∧
  State.reset.lastcmd = 0

/-- R411: what the completion step writes, and that it writes nothing else. -/
def Obligations.CompletionStepRecord : Prop :=
  ∀ (s : State) (c : ErrCode) (sub idx : Nat), sub < 256 → idx < 65536 →
    (s.complete c sub idx).errcode = c ∧ (s.complete c sub idx).subcode.toNat = sub ∧
      (s.complete c sub idx).index.toNat = idx ∧ ((s.complete c sub idx).err = true ↔ c ≠ .noError) ∧
      (s.complete c sub idx).done = true ∧ (s.complete c sub idx).busy = false ∧
      (s.complete c sub idx).run = .idle ∧ (s.complete c sub idx).abortPending = false ∧
      (s.complete c sub idx).unit = none ∧ SameKept s (s.complete c sub idx) ∧ SameRegs s (s.complete c sub idx) ∧
      (s.complete c sub idx).mem = s.mem ∧ (s.complete c sub idx).prime = s.prime ∧
      (s.complete c sub idx).blksize = s.blksize ∧ (s.complete c sub idx).ctcount = s.ctcount ∧
      (s.complete c sub idx).outlen = s.outlen ∧ (s.complete c sub idx).entropy = s.entropy

/-! ### NOP, MODINV, MODEXP -/

/-- R350: NOP completes with no effect; CANCELLED if an abort is pending. -/
def Obligations.NopCompletes : Prop :=
  ∀ s : State, (s.abortPending = false → exec .nop s = .next (s.complete .noError 0 0)) ∧
    (s.abortPending = true → exec .nop s = .next (s.complete .cancelled 0 0))

/-- R241, R246: where the modulus is at least 2 and coprime to a, MODINV completes with the one x in [0, m) with
(a * x) mod m = 1 in B[ra], whatever registers ra, rb and rc name, and with nothing else written.
That MODINV then completes so is R246, an inference the spec marks as its own ("MODINV completes with ERRCODE = NONE and
with B[ra] in [0, m)"); R241 itself is the rule. -/
def Obligations.ModinvGivesTheInverse : Prop :=
  ∀ (ra rb rc : Reg) (s : State), s.isValid rb = true → s.isValid rc = true → 2 ≤ s.reg rc →
    Nat.gcd (s.reg rb) (s.reg rc) = 1 → s.abortPending = false →
    ∃ x, x < s.reg rc ∧ s.reg rb * x % s.reg rc = 1 ∧
      (∀ y, y < s.reg rc → s.reg rb * y % s.reg rc = 1 → y = x) ∧
      exec (.modinv ra rb rc) s = .next ((s.writeReg ra x).complete .noError 0 0)

/-- R280, R281: where the modulus is not 0, MODEXP completes with B[rb]^B[rc] mod B[rd] in B[ra] (b^0 = 1 for every b, and
0 for m = 1), and with nothing else written. -/
def Obligations.ModexpGivesThePower : Prop :=
  ∀ (ra rb rc rd : Reg) (s : State), s.isValid rb = true → s.isValid rc = true → s.isValid rd = true →
    0 < s.reg rd → s.abortPending = false →
    exec (.modexp ra rb rc rd) s = .next ((s.writeReg ra (s.reg rb ^ s.reg rc % s.reg rd)).complete .noError 0 0)

/-- R240, R280, R405, R408: the errors of MODINV and MODEXP, the first invalid source first; a check-phase error is reported
whether or not an abort is pending, and INVALID_MODULUS only where none is. -/
def Obligations.InverseAndPowerErrors : Prop :=
  (∀ (ra rb rc : Reg) (s : State),
    (s.isValid rb = false → exec (.modinv ra rb rc) s = .next (s.raise ⟨.uninit, 0, rb.val⟩)) ∧
    (s.isValid rb = true → s.isValid rc = false → exec (.modinv ra rb rc) s = .next (s.raise ⟨.uninit, 0, rc.val⟩)) ∧
    (s.isValid rb = true → s.isValid rc = true → s.reg rc ≤ 1 →
      exec (.modinv ra rb rc) s = .next (s.raise ⟨.domain, 2, 0⟩)) ∧
    (s.isValid rb = true → s.isValid rc = true → 2 ≤ s.reg rc → Nat.gcd (s.reg rb) (s.reg rc) ≠ 1 →
      exec (.modinv ra rb rc) s =
        .next (if s.abortPending then s.raise ⟨.cancelled, 0, 0⟩ else s.raise ⟨.invalidModulus, 0, 0⟩))) ∧
  (∀ (ra rb rc rd : Reg) (s : State),
    (s.isValid rb = false → exec (.modexp ra rb rc rd) s = .next (s.raise ⟨.uninit, 0, rb.val⟩)) ∧
    (s.isValid rb = true → s.isValid rc = false →
      exec (.modexp ra rb rc rd) s = .next (s.raise ⟨.uninit, 0, rc.val⟩)) ∧
    (s.isValid rb = true → s.isValid rc = true → s.isValid rd = false →
      exec (.modexp ra rb rc rd) s = .next (s.raise ⟨.uninit, 0, rd.val⟩)) ∧
    (s.isValid rb = true → s.isValid rc = true → s.isValid rd = true → s.reg rd = 0 →
      exec (.modexp ra rb rc rd) s = .next (s.raise ⟨.domain, 1, 0⟩)))

/-! ### PTEST -/

/-- R202, R203, R204: for an odd candidate n >= 5 and k rounds whose words are all ok, PTEST answers 1 where every base drawn
passes, having taken exactly k * ceil(bitlen(n)/32) words, and 0 at the first base that does not, no later word taken.
R204 is an inference the spec marks as its own ("it returns 1 exactly when each of the k bases is a strong liar for n"). -/
def Obligations.PtestFollowsTheBases : Prop :=
  ∀ (rb : Reg) (rounds : BitVec 16) (s : State) (k : Nat) (ws : List Word) (rest : List EntropyPair),
    s.isValid rb = true → s.abortPending = false → 5 ≤ s.reg rb → s.reg rb % 2 = 1 →
    k = (if rounds = 0 then s.params.mrRounds else rounds.toNat) → ws.length = k * wordsFor (s.reg rb) →
    s.entropy = okPairs ws ++ rest →
    ((∀ j, j < k → PassesBase (s.reg rb) (baseOf (s.reg rb) ws j)) →
      exec (.ptest rb rounds) s =
        .next (({ s with entropy := rest, prime := true } : State).complete .noError 0 0)) ∧
    (∀ j, j < k → (∀ i, i < j → PassesBase (s.reg rb) (baseOf (s.reg rb) ws i)) →
      ¬ PassesBase (s.reg rb) (baseOf (s.reg rb) ws j) →
      exec (.ptest rb rounds) s =
        .next (({ s with entropy := okPairs (ws.drop ((j + 1) * wordsFor (s.reg rb))) ++ rest, prime := false } :
          State).complete .noError 0 0))

/-- R204: "If n is prime, MRTest(n, k) returns 1 for every k and every entropy stream that keeps ok=1": PTEST of a prime
completes with PRIME = 1.
R204 is an inference the spec marks as its own. -/
def Obligations.PtestPassesEveryPrime : Prop :=
  ∀ (rb : Reg) (rounds : BitVec 16) (s : State) (k : Nat) (ws : List Word) (rest : List EntropyPair),
    s.isValid rb = true → s.abortPending = false → Nat.Prime (s.reg rb) →
    k = (if rounds = 0 then s.params.mrRounds else rounds.toNat) →
    ws.length = (if s.reg rb < 4 then 0 else k * wordsFor (s.reg rb)) → s.entropy = okPairs ws ++ rest →
    exec (.ptest rb rounds) s = .next (({ s with entropy := rest, prime := true } : State).complete .noError 0 0)

/-- R200, R203: PTEST of 0 and 1 answers 0, of 2 and 3 answers 1, of an even number from 4 up answers 0, none of them taking
a word; an invalid candidate is UNINIT. -/
def Obligations.PtestSmallAndEven : Prop :=
  ∀ (rb : Reg) (rounds : BitVec 16) (s : State),
    (s.isValid rb = false → exec (.ptest rb rounds) s = .next (s.raise ⟨.uninit, 0, rb.val⟩)) ∧
    (s.isValid rb = true → s.abortPending = false →
      (s.reg rb < 2 ∨ (4 ≤ s.reg rb ∧ s.reg rb % 2 = 0) →
        exec (.ptest rb rounds) s = .next (({ s with prime := false } : State).complete .noError 0 0)) ∧
      (s.reg rb = 2 ∨ s.reg rb = 3 →
        exec (.ptest rb rounds) s = .next (({ s with prime := true } : State).complete .noError 0 0)))

/-- R203, R409: a word with ok = 0 ends the command with GENERATION_FAILED subcode 2, that pair and those before it taken and
no later one, PRIME unchanged. Said of a prime candidate, whose test no base ends early. -/
def Obligations.PtestEntropyFailure : Prop :=
  ∀ (rb : Reg) (rounds : BitVec 16) (s : State) (k : Nat) (ws : List Word) (x : Word) (rest : List EntropyPair),
    s.isValid rb = true → s.abortPending = false → Nat.Prime (s.reg rb) → 5 ≤ s.reg rb →
    k = (if rounds = 0 then s.params.mrRounds else rounds.toNat) → ws.length < k * wordsFor (s.reg rb) →
    s.entropy = okPairs ws ++ ⟨false, x⟩ :: rest →
    exec (.ptest rb rounds) s = .next (({ s with entropy := rest } : State).complete .generationFailed 2 0)

/-! ### GENPRIME -/

/-- R221, R220: where the first candidates made from the delivered words are rejected, none at all of them or fewer than
PRIME_MAX_ATTEMPTS, and the next one is prime, GENPRIME completes with it in B[ra], having taken the rejected attempts' words,
the candidate's ceil(bits/32) words and those of MR_ROUNDS_DEFAULT rounds, and with nothing else written. -/
def Obligations.GenprimeCompletesOnPrimeCandidate : Prop :=
  ∀ (ra : Reg) (bits : BitVec 16) (s : State) (k : Nat) (ws ws' : List Word) (mid rest : List EntropyPair) (c : Nat),
    2 ≤ bits.toNat → bits.toNat ≤ s.params.maxBits → s.abortPending = false →
    WithinLimit s.params k → RejectsTimes s.params bits.toNat k s.entropy mid → ws.length = ceilDiv bits.toNat 32 →
    c = (wordsValue ws % 2 ^ bits.toNat ||| 2 ^ (bits.toNat - 1) ||| 2 ^ (bits.toNat - 2) ||| 1) → Nat.Prime c →
    ws'.length = (if c < 4 then 0 else s.params.mrRounds * wordsFor c) →
    mid = okPairs ws ++ (okPairs ws' ++ rest) →
    exec (.genprime ra bits) s =
      .next ((({ s with entropy := rest } : State).writeReg ra c).complete .noError 0 0)

/-- R222: what a GENPRIME that completes without error leaves in B[ra]: an odd number of exactly `bits` bits with its top two
bits set, which passed the test with MR_ROUNDS_DEFAULT rounds on words of the stream.
R222 is an inference the spec marks as its own ("c is odd; 2^(bits-1) + 2^(bits-2) <= c < 2^bits; bitlen(c) = bits
exactly"). -/
def Obligations.GenprimeResultShape : Prop :=
  ∀ (ra : Reg) (bits : BitVec 16) (s t : State), s.busy = true → exec (.genprime ra bits) s = .next t →
    t.busy = false → t.errcode = .noError →
    t.isValid ra = true ∧ t.reg ra % 2 = 1 ∧
      2 ^ (bits.toNat - 1) + 2 ^ (bits.toNat - 2) ≤ t.reg ra ∧ t.reg ra < 2 ^ bits.toNat ∧
      bitLen (t.reg ra) = bits.toNat ∧
      ∃ ps, ps <:+ s.entropy ∧ mrTest (t.reg ra) s.params.mrRounds ps = .got true t.entropy

/-- R221: with no limit on attempts, a rejected candidate leaves the generator as it would be on the words that remain. -/
def Obligations.GenprimeRetriesAfterRejection : Prop :=
  ∀ (p : Params) (bits r : Nat) (ps ps' rest : List EntropyPair), p.maxAttempts = 0 → 2 ≤ bits →
    entropyInt (ceilDiv bits 32) ps = .got r ps' → mrTest (candidate bits r) p.mrRounds ps' = .got false rest →
    genPrime p bits ps = genPrime p bits rest

/-- R220, R221, R203, R408, R409: GENPRIME's errors: bits below 2 and above MAXBITS (whether or not an abort is pending);
subcode 3 after PRIME_MAX_ATTEMPTS rejected candidates, whatever that limit; subcode 2 at a pair with ok = 0, in any word of
any attempt, that pair and those before it taken. -/
def Obligations.GenprimeErrors : Prop :=
  ∀ (ra : Reg) (bits : BitVec 16) (s : State),
    (bits.toNat < 2 → exec (.genprime ra bits) s = .next (s.raise ⟨.generationFailed, 1, 0⟩)) ∧
    (2 ≤ bits.toNat → s.params.maxBits < bits.toNat → exec (.genprime ra bits) s = .next (s.raise ⟨.capacity, 1, 0⟩)) ∧
    (2 ≤ bits.toNat → bits.toNat ≤ s.params.maxBits → s.abortPending = false →
      ∀ sub rest, GenerationFails s.params bits.toNat s.entropy sub rest →
        exec (.genprime ra bits) s = .next (({ s with entropy := rest } : State).raise ⟨.generationFailed, sub, 0⟩))

/-! ### GENKEYS -/

/-- R262, R265: where the stream gives two primes whose phi is coprime to 65537, GENKEYS completes with n = p*q below
2^bits, e = 65537 and d in [0, phi) with (e * d) mod phi = 1 in its three destinations, each valid, and with nothing else
written.
R265 is an inference the spec marks as its own ("On success, (B[rb] * B[rc]) mod phi = 1 and 0 <= B[rc] < phi"). -/
def Obligations.GenkeysWritesAKeypair : Prop :=
  ∀ (ra rb rc : Reg) (bits : BitVec 12) (s : State) (p q : Nat) (r1 r2 : List EntropyPair),
    (Instr.genkeys ra rb rc bits).wellFormed = true → 4 ≤ bits.toNat → bits.toNat ≤ s.params.maxBits →
    s.abortPending = false → genPrime s.params (bits.toNat / 2) s.entropy = .got p r1 →
    genPrime s.params (bits.toNat / 2) r1 = .got q r2 → Nat.gcd 65537 ((p - 1) * (q - 1)) = 1 →
    ∃ t, exec (.genkeys ra rb rc bits) s = .next t ∧ t.reg ra = p * q ∧ t.reg rb = 65537 ∧
      t.reg rb * t.reg rc % ((p - 1) * (q - 1)) = 1 ∧ t.reg rc < (p - 1) * (q - 1) ∧ t.reg ra < 2 ^ bits.toNat ∧
      2 ^ bits.toNat ≤ 2 ^ s.params.maxBits ∧ t.isValid ra = true ∧ t.isValid rb = true ∧ t.isValid rc = true ∧
      SameRegsBut [ra, rb, rc] s t ∧ t.mem = s.mem ∧ SameKept s t ∧ t.entropy = r2 ∧ t.prime = s.prime ∧
      t.blksize = s.blksize ∧ t.ctcount = s.ctcount ∧ t.outlen = s.outlen ∧ Succeeded t

/-- R264: both primes lie in [3 * 2^(h-2), 2^h), so n has exactly 2h bits: 1024 bits give block size 117, and 64 bits
give -3, for which ENCRYPT raises KEY_TOO_SMALL.
R264 is an inference the spec marks as its own ("Both primes lie in [3 * 2^(h-2), 2^h)"). -/
def Obligations.GenkeysModulusLength : Prop :=
  ∀ (pr : Params) (h p q : Nat) (ps r1 r2 : List EntropyPair), 2 ≤ h → genPrime pr h ps = .got p r1 →
    genPrime pr h r1 = .got q r2 →
    3 * 2 ^ (h - 2) ≤ p ∧ p < 2 ^ h ∧ 3 * 2 ^ (h - 2) ≤ q ∧ q < 2 ^ h ∧ 9 * 2 ^ (2 * h - 4) ≤ p * q ∧
      p * q < 2 ^ (2 * h) ∧ bitLen (p * q) = 2 * h ∧ (h = 512 → blockSize (p * q) = 117) ∧
      (h = 32 → blockSize (p * q) = -3 ∧ ∀ (s : State) (rb rc : Reg), s.isValid rb = true → s.isValid rc = true →
        s.reg rc = p * q → exec (.encrypt rb rc) s = .next (s.raise ⟨.keyTooSmall, 0, 0⟩))

/-- R260, R261, R221, R203, R408: GENKEYS's errors: bits above MAXBITS, then bits div 2 below 2 (whether or not an abort is
pending); subcode 3 after PRIME_MAX_ATTEMPTS rejected candidates and subcode 2 at a pair with ok = 0 in any word, while p is
drawn and while q is; and a phi that shares a factor with 65537, no register written. -/
def Obligations.GenkeysErrors : Prop :=
  ∀ (ra rb rc : Reg) (bits : BitVec 12) (s : State),
    (s.params.maxBits < bits.toNat → exec (.genkeys ra rb rc bits) s = .next (s.raise ⟨.capacity, 1, 0⟩)) ∧
    (bits.toNat ≤ s.params.maxBits → bits.toNat < 4 →
      exec (.genkeys ra rb rc bits) s = .next (s.raise ⟨.generationFailed, 1, 0⟩)) ∧
    (bits.toNat ≤ s.params.maxBits → 4 ≤ bits.toNat → s.abortPending = false →
      (∀ sub rest, GenerationFails s.params (bits.toNat / 2) s.entropy sub rest →
        exec (.genkeys ra rb rc bits) s =
          .next (({ s with entropy := rest } : State).raise ⟨.generationFailed, sub, 0⟩)) ∧
      (∀ p r1 sub rest, genPrime s.params (bits.toNat / 2) s.entropy = .got p r1 →
        GenerationFails s.params (bits.toNat / 2) r1 sub rest →
        exec (.genkeys ra rb rc bits) s =
          .next (({ s with entropy := rest } : State).raise ⟨.generationFailed, sub, 0⟩)) ∧
      (∀ p q r1 r2, genPrime s.params (bits.toNat / 2) s.entropy = .got p r1 →
        genPrime s.params (bits.toNat / 2) r1 = .got q r2 → Nat.gcd 65537 ((p - 1) * (q - 1)) ≠ 1 →
        exec (.genkeys ra rb rc bits) s = .next (({ s with entropy := r2 } : State).raise ⟨.invalidModulus, 0, 0⟩)))

/-- R71, R223, R461: the port delivers one pair at a time, each after those before it, and nothing else changes; a command
whose port has delivered nothing waits: it stays the running command and takes no state step. Said of PTEST with an odd
candidate from 5 up, GENPRIME and GENKEYS that passed their checks. That the delivered pairs stand in the state, and that a
command waits in a step that changes nothing, is the model's form of it (log entry 7). -/
def Obligations.EmptyPortHoldsTheCommand : Prop :=
  (∀ (s : State) (p : EntropyPair) (rest : List Event), s.params.Legal → s.script = .deliver p :: rest →
    step s = .next { s with script := rest, entropy := s.entropy ++ [p] }) ∧
  (∀ s : State, s.params.Legal → s.abortPending = false → s.entropy = [] →
    (∀ (rb : Reg) (rounds : BitVec 16), s.isValid rb = true → 5 ≤ s.reg rb → s.reg rb % 2 = 1 →
      exec (.ptest rb rounds) s = .next s) ∧
    (∀ (ra : Reg) (bits : BitVec 16), 2 ≤ bits.toNat → bits.toNat ≤ s.params.maxBits →
      exec (.genprime ra bits) s = .next s) ∧
    (∀ (ra rb rc : Reg) (bits : BitVec 12), 4 ≤ bits.toNat → bits.toNat ≤ s.params.maxBits →
      exec (.genkeys ra rb rc bits) s = .next s))

/-- R409: "Each command takes a prefix of the entropy stream": the outcome of a command that completes does not depend on
pairs delivered after those it took, and those stay for the next command.
The delivered pairs stand in the state by the model's choice (log entry 7). -/
def Obligations.OutcomeIgnoresLaterPairs : Prop :=
  ∀ (i : Instr) (s t : State) (later : List EntropyPair), s.busy = true → s.abortPending = false →
    exec i s = .next t → t.busy = false →
    exec i { s with entropy := s.entropy ++ later } = .next { t with entropy := t.entropy ++ later } ∧
      t.entropy <:+ s.entropy

/-! ### ENCRYPT -/

/-- R302, R304, R305: a successful ENCRYPT writes CT[i] = BE(block i)^e mod n for each of the ceil(MSGLEN / BLKSIZE) blocks of
the message, BLKSIZE and CTCOUNT, and leaves every byte outside those slots, every register and every other CSR field.
R304 and R305 are inferences the spec marks as its own ("ENCRYPT writes exactly CT[0..cnt-1], each once"). -/
def Obligations.EncryptWritesTheCiphertexts : Prop :=
  ∀ (rb rc : Reg) (s : State) (bs : Nat), s.params.Legal → s.reg rc < 2 ^ s.params.maxBits → s.isValid rb = true →
    s.isValid rc = true → blockSize (s.reg rc) = (bs : Int) → 0 < bs → s.msglen.toNat ≤ s.params.msgBytes →
    ceilDiv s.msglen.toNat bs ≤ s.params.ctSlots → s.abortPending = false →
    ∃ t, exec (.encrypt rb rc) s = .next t ∧ t.blksize.toNat = bs ∧ t.ctcount.toNat = ceilDiv s.msglen.toNat bs ∧
      (∀ i, i < ceilDiv s.msglen.toNat bs →
        t.ct i = beValue (messageBytes s bs i) ^ s.reg rb % s.reg rc ∧ t.ct i < s.reg rc) ∧
      (∀ a, ¬ inSlots s.params (ceilDiv s.msglen.toNat bs) a → t.mem.read a = s.mem.read a) ∧
      SameRegs s t ∧ SameKept s t ∧ t.outlen = s.outlen ∧ t.prime = s.prime ∧ t.entropy = s.entropy ∧ Succeeded t

/-- R122, R304: ENCRYPT reads no byte at or above MSGLEN, and nothing outside MSG: two states that differ in memory only, and
agree on MSG[0..MSGLEN-1], complete alike and with the same ciphertexts.
R304 is an inference the spec marks as its own ("reads no byte at or above MSGLEN"). -/
def Obligations.EncryptReadsOnlyTheMessage : Prop :=
  ∀ (rb rc : Reg) (s t t' : State) (m : Memory), s.params.Legal →
    (∀ k, k < s.msglen.toNat → m.read (msgBase + k) = s.mem.read (msgBase + k)) →
    exec (.encrypt rb rc) s = .next t → exec (.encrypt rb rc) { s with mem := m } = .next t' →
    t'.errcode = t.errcode ∧ t'.subcode = t.subcode ∧ t'.index = t.index ∧ t'.ctcount = t.ctcount ∧
      t'.blksize = t.blksize ∧ (t.errcode = .noError → ∀ i, i < t.ctcount.toNat → t'.ct i = t.ct i)

/-- R300, R408: ENCRYPT's errors in their order, whether or not an abort is pending. -/
def Obligations.EncryptErrors : Prop :=
  ∀ (rb rc : Reg) (s : State),
    (s.isValid rb = false → exec (.encrypt rb rc) s = .next (s.raise ⟨.uninit, 0, rb.val⟩)) ∧
    (s.isValid rb = true → s.isValid rc = false → exec (.encrypt rb rc) s = .next (s.raise ⟨.uninit, 0, rc.val⟩)) ∧
    (s.isValid rb = true → s.isValid rc = true →
      (blockSize (s.reg rc) ≤ 0 → exec (.encrypt rb rc) s = .next (s.raise ⟨.keyTooSmall, 0, 0⟩)) ∧
      (∀ bs : Nat, blockSize (s.reg rc) = (bs : Int) → 0 < bs →
        (s.params.msgBytes < s.msglen.toNat → exec (.encrypt rb rc) s = .next (s.raise ⟨.capacity, 2, 0⟩)) ∧
        (s.msglen.toNat ≤ s.params.msgBytes → s.params.ctSlots < ceilDiv s.msglen.toNat bs →
          exec (.encrypt rb rc) s = .next (s.raise ⟨.capacity, 3, 0⟩))))

/-- R303: a byte string no longer than the block size of n has a value below n, so every block of a message has.
R303 is an inference the spec marks as its own ("Every block's value is below n"). -/
def Obligations.BlocksAreBelowTheModulus : Prop :=
  (∀ (n : Nat) (xs : List Byte), (xs.length : Int) ≤ blockSize n → beValue xs < n) ∧
    (∀ (s : State) (rc : Reg) (bs i : Nat), blockSize (s.reg rc) = (bs : Int) →
      beValue (messageBytes s bs i) < s.reg rc)

/-- R301: `blockSize = floor(bitlen(n)/8) - 11`, positive exactly when bitlen(n) >= 96, that is n >= 2^95; below that ENCRYPT
completes with KEY_TOO_SMALL and nothing else. -/
def Obligations.KeyTooSmallBelow96Bits : Prop :=
  (∀ n : Nat, blockSize n = ((bitLen n / 8 : Nat) : Int) - 11 ∧ (0 < blockSize n ↔ 96 ≤ bitLen n) ∧
      (0 < blockSize n ↔ 2 ^ 95 ≤ n)) ∧
    (∀ (s : State) (rb rc : Reg), s.isValid rb = true → s.isValid rc = true → s.reg rc < 2 ^ 95 →
      exec (.encrypt rb rc) s = .next (s.raise ⟨.keyTooSmall, 0, 0⟩))

/-! ### DECRYPT and the lane machine -/

/-- R322, R323: a successful DECRYPT leaves the blocks BEmin(CT[i]^d mod n) in index order, with nothing between them, in
OUT[0..OUTLEN-1], and every other byte, every register and every other CSR field as they were. -/
def Obligations.DecryptWritesThePlaintext : Prop :=
  ∀ (rb rc : Reg) (s : State) (out : List Byte), s.params.Legal → s.isValid rb = true → s.isValid rc = true →
    0 < s.reg rc → s.ctcount.toNat ≤ s.params.ctSlots → (∀ i, i < s.ctcount.toNat → s.ct i < s.reg rc) →
    s.abortPending = false →
    out = (List.range s.ctcount.toNat).flatMap (fun i => beMin (s.ct i ^ s.reg rb % s.reg rc)) →
    out.length ≤ s.params.outBytes →
    ∃ t, exec (.decrypt rb rc) s = .next t ∧ t.outlen.toNat = out.length ∧
      (∀ k, (h : k < out.length) → t.mem.read (outBase + k) = out[k]) ∧
      (∀ a, ¬ (outBase ≤ a ∧ a < outBase + out.length) → t.mem.read a = s.mem.read a) ∧
      SameRegs s t ∧ SameKept s t ∧ t.blksize = s.blksize ∧ t.ctcount = s.ctcount ∧ t.prime = s.prime ∧
      t.entropy = s.entropy ∧ Succeeded t

/-- R320, R321, R324, R332: DECRYPT's errors in their order, whether or not an abort is pending but for CAPACITY subcode 5;
DECRYPTION_FAILED carries the lowest failing index, and CAPACITY subcode 5 leaves OUTLEN = 0 and every byte outside the OUT
window as it was. -/
def Obligations.DecryptErrors : Prop :=
  ∀ (rb rc : Reg) (s : State),
    (s.isValid rb = false → exec (.decrypt rb rc) s = .next (s.raise ⟨.uninit, 0, rb.val⟩)) ∧
    (s.isValid rb = true → s.isValid rc = false → exec (.decrypt rb rc) s = .next (s.raise ⟨.uninit, 0, rc.val⟩)) ∧
    (s.isValid rb = true → s.isValid rc = true →
      (s.reg rc = 0 → exec (.decrypt rb rc) s = .next (s.raise ⟨.domain, 1, 0⟩)) ∧
      (0 < s.reg rc → s.params.ctSlots < s.ctcount.toNat →
        exec (.decrypt rb rc) s = .next (s.raise ⟨.capacity, 4, 0⟩)) ∧
      (0 < s.reg rc → s.ctcount.toNat ≤ s.params.ctSlots →
        (∀ i, i < s.ctcount.toNat → s.reg rc ≤ s.ct i → (∀ j, j < i → s.ct j < s.reg rc) →
          exec (.decrypt rb rc) s = .next (s.raise ⟨.decryptionFailed, 1, i⟩)) ∧
        ((∀ i, i < s.ctcount.toNat → s.ct i < s.reg rc) → s.abortPending = false →
          s.params.outBytes <
            ((List.range s.ctcount.toNat).flatMap fun i => beMin (s.ct i ^ s.reg rb % s.reg rc)).length →
          ∃ t, exec (.decrypt rb rc) s = .next t ∧ t.errcode = .capacity ∧ t.subcode = 5 ∧ t.index = 0 ∧
            t.err = true ∧ t.done = true ∧ t.run = .idle ∧ t.outlen = 0 ∧ t.blksize = s.blksize ∧
            t.ctcount = s.ctcount ∧ t.prime = s.prime ∧ SameRegs s t ∧ SameKept s t ∧
            (∀ a, ¬ (outBase ≤ a ∧ a < outEnd) → t.mem.read a = s.mem.read a))))

/-- R306, R334: an ENCRYPT of an empty message under a key of at least 96 bits writes no slot and CTCOUNT = 0; a DECRYPT of an
empty sequence with n >= 1 writes no byte and OUTLEN = 0.
Both rules are inferences the spec marks as its own. -/
def Obligations.EmptyMessageAndSequence : Prop :=
  (∀ (rb rc : Reg) (s : State), s.isValid rb = true → s.isValid rc = true → 96 ≤ bitLen (s.reg rc) → s.msglen = 0 →
      s.abortPending = false →
      ∃ t, exec (.encrypt rb rc) s = .next t ∧ t.ctcount = 0 ∧ SameMem s t ∧ Succeeded t) ∧
    (∀ (rb rc : Reg) (s : State), s.isValid rb = true → s.isValid rc = true → 1 ≤ s.reg rc → s.ctcount = 0 →
      s.abortPending = false →
      ∃ t, exec (.decrypt rb rc) s = .next t ∧ t.outlen = 0 ∧ SameMem s t ∧ Succeeded t)

/-- R325-R331: the dispatch step gives the next block to the lowest-numbered free lane and is not enabled once every block is
dispatched or while no lane is free; a busy lane's step reports its block's value CT[i]^d mod n and frees the lane; the
arbiter's step is not enabled before every block is reported. Whatever the lane count and the order of dispatch and lane
steps, the arbiter's step then leaves exactly the state of DECRYPT's atomic rule. R331 is an inference the spec marks as its own
("the output equals rule R320's t"). Which event takes which step, and that a pending abort holds the arbiter back, is the
model's (log entries 3 and 8). -/
def Obligations.LaneOrderDoesNotMatter : Prop :=
  (∀ (s : State) (u : DecryptUnit) (rest : List Event), s.params.Legal → s.unit = some u → s.script = .dispatch :: rest →
    (∀ l, u.lanes[l]? = some .free → (∀ k, k < l → u.lanes[k]? ≠ some .free) → u.next < s.ctcount.toNat →
      step s = .next { s with
        script := rest, unit := some { u with next := u.next + 1, lanes := u.lanes.set l (.busy u.next) } }) ∧
    (s.ctcount.toNat ≤ u.next ∨ (∀ l : Nat, u.lanes[l]? ≠ some .free) → step s = .next { s with script := rest })) ∧
  (∀ (s : State) (u : DecryptUnit) (l : Nat) (rb rc : Reg) (rest : List Event), s.params.Legal → s.unit = some u →
    s.runningDecrypt = some (rb, rc) → s.script = .lane l :: rest →
    (∀ i, u.lanes[l]? = some (.busy i) →
      step s = .next { s with
        script := rest
        unit := some { u with
          lanes := u.lanes.set l .free, res := u.res.set i (some (s.ct i ^ s.reg rb % s.reg rc)) } }) ∧
    ((∀ i, u.lanes[l]? ≠ some (.busy i)) → step s = .next { s with script := rest })) ∧
  (∀ (s : State) (u : DecryptUnit) (rest : List Event), s.params.Legal → s.unit = some u → s.script = .arbiter :: rest →
    step s = .next ({ s with script := rest } : State).arbiterStep ∧
    ((∃ i, i < s.ctcount.toNat ∧ u.res.getD i none = none) ∨ s.abortPending = true →
      step s = .next { s with script := rest })) ∧
  (∀ (s : State) (rb rc : Reg) (schedule : List Event) (u : DecryptUnit), s.params.Legal →
    s.unit = some (DecryptUnit.start s.params) → s.runningDecrypt = some (rb, rc) → checkDecrypt rb rc s = none →
    s.abortPending = false → (runLanes s schedule).unit = some u →
    (u.allReported s.ctcount.toNat = false → (runLanes s schedule).arbiterStep = runLanes s schedule) ∧
      (u.allReported s.ctcount.toNat = true →
        exec (.decrypt rb rc) s = .next (runLanes s schedule).arbiterStep))

/-- R333, the round-trip law: for distinct primes p and q with n = p*q of at least 96 bits, and exponents inverse modulo
(p-1)(q-1), ENCRYPT followed by DECRYPT leaves in OUT the message with the leading zero bytes of each block removed, which
is the message exactly when the first byte of every block is not zero.
R333 is a law the spec marks as its own inference. -/
def Obligations.RoundTripRecoversTheMessage : Prop :=
  ∀ (s : State) (re rd rn : Reg) (p q bs : Nat), s.params.Legal → s.reg rn < 2 ^ s.params.maxBits →
    Nat.Prime p → Nat.Prime q → p ≠ q → s.reg rn = p * q → s.reg re * s.reg rd % ((p - 1) * (q - 1)) = 1 →
    s.isValid re = true → s.isValid rd = true → s.isValid rn = true → blockSize (s.reg rn) = (bs : Int) → 0 < bs →
    s.msglen.toNat ≤ s.params.msgBytes → s.msglen.toNat ≤ s.params.outBytes →
    ceilDiv s.msglen.toNat bs ≤ s.params.ctSlots → s.abortPending = false →
    ∃ t u, exec (.encrypt re rn) s = .next t ∧
      exec (.decrypt rd rn) (t.accept (encode (.decrypt rd rn))) = .next u ∧ u.errcode = .noError ∧
      u.mem.readBytes outBase u.outlen.toNat =
        (List.range (ceilDiv s.msglen.toNat bs)).flatMap
          (fun i => (messageBytes s bs i).dropWhile fun x => x == 0) ∧
      (u.mem.readBytes outBase u.outlen.toNat = wholeMessage s ↔
        ∀ i, i < ceilDiv s.msglen.toNat bs → (messageBytes s bs i).head? ≠ some 0)

/-! ### Errors, cancellation, precision and frames -/

/-- R408, items 2 to 4: a check-phase error is reported before anything else, whether or not an abort is pending. -/
def Obligations.CheckErrorsComeFirst : Prop :=
  ∀ (i : Instr) (s : State) (f : Failure), checkOf i s = some f → exec i s = .next (s.raise f)

/-- R410: what a CANCELLED completion leaves: no register, valid bit or PRIME is written; a cancelled ENCRYPT leaves CTCOUNT = 0,
BLKSIZE and every byte outside CT[0..cnt-1]; a cancelled DECRYPT leaves OUTLEN = 0 and every byte outside OUT; no other
command writes memory or a count. R409: it has taken no more pairs than its own outcome takes, and none where it takes no
entropy; how many is a free value (log entry 5). -/
def Obligations.CancelledEffects : Prop :=
  ∀ (i : Instr) (s : State), checkOf i s = none → s.abortPending = true →
    ∃ t, exec i s = .next t ∧ t.errcode = .cancelled ∧ t.subcode = 0 ∧ t.index = 0 ∧ t.err = true ∧ t.done = true ∧
      t.run = .idle ∧ t.abortPending = false ∧ SameRegs s t ∧ SameKept s t ∧ t.prime = s.prime ∧
      t.blksize = s.blksize ∧ TakesWithinBound i s t ∧
      (∀ rb rc, i = .encrypt rb rc → t.ctcount = 0 ∧ t.outlen = s.outlen ∧
        ∀ a, ¬ (ctBase ≤ a ∧ a < ctAddr (s.encryptCount rc)) → t.mem.read a = s.mem.read a) ∧
      (∀ rb rc, i = .decrypt rb rc → t.outlen = 0 ∧ t.ctcount = s.ctcount ∧
        ∀ a, ¬ (outBase ≤ a ∧ a < outEnd) → t.mem.read a = s.mem.read a) ∧
      ((∀ rb rc, i ≠ .encrypt rb rc) → (∀ rb rc, i ≠ .decrypt rb rc) →
        t.ctcount = s.ctcount ∧ t.outlen = s.outlen ∧ SameMem s t)

/-- R412: every error completion except CANCELLED and CAPACITY subcode 5 leaves every register, valid bit, byte of memory,
MSGLEN, BLKSIZE, CTCOUNT, OUTLEN and PRIME as they were; those two leave every register, valid bit, MSGLEN, BLKSIZE and
PRIME. -/
def Obligations.ErrorsArePrecise : Prop :=
  ∀ (i : Instr) (s t : State), s.busy = true → exec i s = .next t → t.busy = false → t.errcode ≠ .noError →
    SameRegs s t ∧ t.msglen = s.msglen ∧ t.blksize = s.blksize ∧ t.prime = s.prime ∧
      (t.errcode ≠ .cancelled → ¬ (t.errcode = .capacity ∧ t.subcode = 5) →
        t.mem = s.mem ∧ t.ctcount = s.ctcount ∧ t.outlen = s.outlen)

/-- R411, R412: a running command's step either leaves the state as it is (it waits for entropy) or completes: DONE, Idle, no
abort pending, no lane machine, ERR exactly with an error code, and LASTCMD, CMDOVR, IRQEN, MSGLEN and the parameters kept.
That a command waiting for entropy (R71) answers a step that changes nothing is the model's choice (log entry 7). -/
def Obligations.CompletionsRecordAndKeep : Prop :=
  ∀ (i : Instr) (s t : State), s.busy = true → exec i s = .next t →
    t = s ∨ (t.done = true ∧ t.run = .idle ∧ t.abortPending = false ∧ t.unit = none ∧
      (t.err = true ↔ t.errcode ≠ .noError) ∧ SameKept s t)

/-- R351, R401, R403: each command completes only with the codes and subcodes the tables give it; INDEX is 0 but for UNINIT (a
register number) and DECRYPTION_FAILED (a block index below CTSLOTS, so below 128).
R351 restates what the commands' own rules say. -/
def Obligations.RecordsAreTabled : Prop :=
  ∀ (i : Instr) (s t : State), s.params.Legal → s.busy = true → exec i s = .next t → t.busy = false →
    ∃ r ∈ recordsOf i, t.errcode = r.1 ∧ t.subcode.toNat = r.2 ∧
      (r.1 ≠ .uninit → r.1 ≠ .decryptionFailed → t.index = 0) ∧ (r.1 = .uninit → t.index.toNat < 16) ∧
      (r.1 = .decryptionFailed → t.index.toNat < s.ctcount.toNat ∧ t.index.toNat < 128)

/-- R33, R205, R351: what NOP, MODINV, MODEXP, PTEST, GENPRIME and GENKEYS leave unchanged whatever their outcome: all of
memory, BLKSIZE, CTCOUNT, OUTLEN and what no completion changes; every register but the destinations; STATUS.PRIME but for
PTEST; and the entropy stream but for a prefix.
R205 and R351 restate what the commands' own rules say. -/
def Obligations.FrameOfRegisterCommands : Prop :=
  ∀ (i : Instr) (s t : State) (dests : List Reg), exec i s = .next t →
    ((i = .nop ∧ dests = []) ∨ (∃ ra rb rc, i = .modinv ra rb rc ∧ dests = [ra]) ∨
      (∃ ra rb rc rd, i = .modexp ra rb rc rd ∧ dests = [ra]) ∨ (∃ rb rounds, i = .ptest rb rounds ∧ dests = []) ∨
      (∃ ra bits, i = .genprime ra bits ∧ dests = [ra]) ∨
      (∃ ra rb rc bits, i = .genkeys ra rb rc bits ∧ dests = [ra, rb, rc])) →
    SameMem s t ∧ t.blksize = s.blksize ∧ t.ctcount = s.ctcount ∧ t.outlen = s.outlen ∧ SameKept s t ∧
      SameRegsBut dests s t ∧ ((∀ rb rounds, i ≠ .ptest rb rounds) → t.prime = s.prime) ∧ t.entropy <:+ s.entropy

/-- R64, R304, R410: what ENCRYPT leaves unchanged whatever its outcome: every byte outside CT[0..cnt-1], every register, OUTLEN,
PRIME, the entropy stream and what no completion changes.
R304 is an inference the spec marks as its own. -/
def Obligations.FrameOfEncrypt : Prop :=
  ∀ (rb rc : Reg) (s t : State), s.params.Legal → exec (.encrypt rb rc) s = .next t →
    (∀ a, ¬ (ctBase ≤ a ∧ a < ctAddr (s.encryptCount rc)) → t.mem.read a = s.mem.read a) ∧ SameRegs s t ∧
      t.outlen = s.outlen ∧ t.prime = s.prime ∧ t.entropy = s.entropy ∧ SameKept s t

/-- R64, R320, R332: what DECRYPT leaves unchanged whatever its outcome: every byte outside the OUT window, every register,
BLKSIZE, CTCOUNT, PRIME, the entropy stream and what no completion changes. -/
def Obligations.FrameOfDecrypt : Prop :=
  ∀ (rb rc : Reg) (s t : State), s.params.Legal → exec (.decrypt rb rc) s = .next t →
    (∀ a, ¬ (outBase ≤ a ∧ a < outEnd) → t.mem.read a = s.mem.read a) ∧ SameRegs s t ∧ t.blksize = s.blksize ∧
      t.ctcount = s.ctcount ∧ t.prime = s.prime ∧ t.entropy = s.entropy ∧ SameKept s t

/-! ### Invariants and whole-machine rules -/

/-- R450, R73: the state after reset has the machine's invariant, for every legal choice of the parameters. -/
def Obligations.ResetMeetsTheInvariant : Prop := Inv State.reset ∧ ∀ p : Params, p.Legal → Inv (State.resetWith p)

/-- R31, R36-R41, R54, R67-R69, R325-R328, R407: every step keeps the invariant, from every state that has it: registers in
[0, 2^MAXBITS), the memory canonical and inside the RAMs, the status record coherent, the lane machine's reported values
right. Such a step neither faults nor refuses, and the parameters stay.
The memory's canonical form and the parameters in the state are the model's (log entries 1 and 4). -/
def Obligations.StepKeepsTheInvariant : Prop := ∀ s : State, Inv s → SafeStep s

/-- R68: while a command runs on, its operands do not change: no step that leaves the command running changes a register, a
valid bit, memory, MSGLEN or CTCOUNT. -/
def Obligations.OperandsAreFrozenWhileRunning : Prop :=
  ∀ (s t : State) (w : Word), s.run = .running w → step s = .next t → t.run = .running w →
    SameRegs s t ∧ t.mem = s.mem ∧ t.msglen = s.msglen ∧ t.ctcount = s.ctcount

/-- R32, R39: STATUS.PRIME changes only when a PTEST completes with ERRCODE = NONE, or by a reset; nothing clears a valid bit
but a reset. A reset is the platform's input or a CTRL write with bit 2 = 1. -/
def Obligations.OnlyPtestWritesPrimeOnlyResetClearsValid : Prop :=
  ∀ (s t : State), step s = .next t →
    (∀ rest, s.script ≠ .hardReset :: rest) →
    (∀ addr width v rest, s.script = .write addr width v :: rest → v.getLsbD 2 = true →
      windowOffset s.params addr ≠ some 0x020) →
    (∀ k, s.isValid k = true → t.isValid k = true) ∧
      (t.prime ≠ s.prime → ∃ w rb rounds, s.run = .running w ∧ decode w = .ok (.ptest rb rounds) ∧
        t.run = .idle ∧ t.errcode = .noError)

/-- R415, R416: the interrupt rises only with a completion, or when IRQEN is written 1 while DONE = 1; a completion raises it
exactly when IRQEN = 1, whatever its outcome. -/
def Obligations.InterruptRisesOnlyOnCompletion : Prop :=
  (∀ (s t : State), Inv s → step s = .next t → s.irq = false → t.irq = true →
      (s.busy = true ∧ t.busy = false ∧ t.done = true) ∨ (s.done = true ∧ s.irqen = false ∧ t.irqen = true)) ∧
    (∀ (i : Instr) (s t : State), s.busy = true → exec i s = .next t → t.busy = false → t.irq = s.irqen)

/-- R450, R73: the reset values of an engine with parameters p, and that the platform's reset gives them in every state: no
RAM byte is left stored (each holds an unspecified value), and only the entropy stream, the moves to come and the model's
draw counter (log entry 4) outlive it. R409, R453: an idle engine, an illegal word and a command without entropy take no pair,
and a running command no more than its own outcome takes; how many is a free value (log entry 5). That the bus response is
quiet after a hard reset is the model's choice (log entry 10). -/
def Obligations.HardResetValues : Prop :=
  (∀ (p : Params) (k : Reg), (State.resetWith p).reg k = 0 ∧ (State.resetWith p).isValid k = false) ∧
    (∀ p : Params, (State.resetWith p).statusWord = 0 ∧ (State.resetWith p).ctrlWord = 0 ∧
      (State.resetWith p).errinfoWord = 0 ∧ (State.resetWith p).lastcmd = 0 ∧ (State.resetWith p).msglen = 0 ∧
      (State.resetWith p).blksize = 0 ∧ (State.resetWith p).ctcount = 0 ∧ (State.resetWith p).outlen = 0 ∧
      (State.resetWith p).run = .idle ∧ (State.resetWith p).abortPending = false ∧ (State.resetWith p).irq = false ∧
      (State.resetWith p).mem.cells = []) ∧
    (∀ (s : State) (rest : List Event), s.params.Legal → s.script = .hardReset :: rest →
      ∃ t, step s = .next t ∧ t.mem.cells = [] ∧ t.entropy <:+ s.entropy ∧ ResetTakesWithinBound s t ∧
        t = { State.resetWith s.params with
          mem := t.mem, entropy := t.entropy, script := rest, draws := t.draws })

/-- R452, R453: a soft reset gives every register, CSR and hidden field its reset value and keeps the RAM, but for what a
running command writes: CT[0..cnt-1] after an ENCRYPT (cnt no more than CTSLOTS, log entry 9), OUT after a DECRYPT. No register is written by the abandoned command
and no completion is recorded.
R409: an idle engine, an illegal word and a command without entropy take no pair, and a running command no more than its own
outcome takes; how many is a free value (log entry 5). -/
def Obligations.SoftResetKeepsTheRam : Prop :=
  ∀ (s : State) (v : Word) (rest : List Event), s.params.Legal →
    s.script = .write (s.params.base + 0x020) 4 v :: rest → v.getLsbD 2 = true →
    ∃ t, step s = .next t ∧ t.entropy <:+ s.entropy ∧ ResetTakesWithinBound s t ∧
      t = { State.resetWith s.params with
        mem := t.mem, entropy := t.entropy, script := rest, bus := .done, draws := t.draws } ∧
      (s.busy = false → t.mem = s.mem ∧ t.entropy = s.entropy) ∧
      (∀ w e, s.run = .running w → decode w = .error e → t.mem = s.mem ∧ t.entropy = s.entropy) ∧
      (∀ w i, s.run = .running w → decode w = .ok i →
        (∀ rb rc, i = .encrypt rb rc →
          ∀ a, ¬ (ctBase ≤ a ∧ a < ctAddr (min (s.encryptCount rc) s.params.ctSlots)) → t.mem.read a = s.mem.read a) ∧
        (∀ rb rc, i = .decrypt rb rc → ∀ a, ¬ (outBase ≤ a ∧ a < outEnd) → t.mem.read a = s.mem.read a) ∧
        ((∀ rb rc, i ≠ .encrypt rb rc) → (∀ rb rc, i ≠ .decrypt rb rc) → t.mem = s.mem))

/-! ### The host bus -/

/-- R109: "Reads have no side effects anywhere in the window": a read changes nothing but the bus response.
That a read outside the window changes nothing either is the model's choice (log entry 10). -/
def Obligations.ReadsHaveNoSideEffect : Prop :=
  ∀ (s : State) (addr width : Nat) (rest : List Event), s.params.Legal → s.script = .read addr width :: rest →
    ∃ r, step s = .next { s with script := rest, bus := r }

/-- R107, R112, R101: an access of another width, at an offset that is not a multiple of 4, or at an unmapped offset gets a bus
error and changes no state.
The bus response is the model's output port (log entry 10). -/
def Obligations.BusErrorsChangeNothing : Prop :=
  ∀ (s : State) (off width : Nat) (v : Word) (rest : List Event), s.params.Legal → off < 0x40000 →
    (width ≠ 4 ∨ off % 4 ≠ 0 ∨
      (off < 0x1000 ∧ off ∉ [0x000, 0x004, 0x008, 0x00C, 0x010, 0x014, 0x018, 0x020, 0x024, 0x028, 0x02C, 0x030, 0x034,
        0x038, 0x03C, 0x040, 0x044]) ∨
      (0x3000 ≤ off ∧ off < 0x10000) ∨
      (0x10000 ≤ off ∧ off < 0x20000 ∧ s.params.ctSlots ≤ (off - 0x10000) / 0x200) ∨
      (0x20000 + s.params.msgBytes ≤ off ∧ off < 0x30000) ∨ 0x30000 + s.params.outBytes ≤ off) →
    (s.script = .read (s.params.base + off) width :: rest →
      step s = .next { s with script := rest, bus := .error }) ∧
    (s.script = .write (s.params.base + off) width v :: rest →
      step s = .next { s with script := rest, bus := .error })

/-- R110: while BUSY = 1 every access to the B, CT, MSG and OUT windows, and every write to MSGLEN, CTCOUNT or BZERO, gets a bus
error and changes no state; every CSR can still be read, and CTRL, STATUS and CMD written. -/
def Obligations.WindowsAreLockedWhileBusy : Prop :=
  ∀ (s : State) (off : Nat) (v : Word) (rest : List Event), s.params.Legal → s.busy = true →
    (0x1000 ≤ off → off < 0x40000 →
      (s.script = .read (s.params.base + off) 4 :: rest → step s = .next { s with script := rest, bus := .error }) ∧
      (s.script = .write (s.params.base + off) 4 v :: rest → step s = .next { s with script := rest, bus := .error })) ∧
    (off = 0x030 ∨ off = 0x038 ∨ off = 0x044 → s.script = .write (s.params.base + off) 4 v :: rest →
      step s = .next { s with script := rest, bus := .error }) ∧
    (∀ c, csrAt off = some c → s.script = .read (s.params.base + off) 4 :: rest →
      step s = .next { s with script := rest, bus := .data (s.readCsr c) }) ∧
    (off = 0x020 ∨ off = 0x024 ∨ off = 0x028 → s.script = .write (s.params.base + off) 4 v :: rest →
      ∃ t, step s = .next t ∧ t.bus = .done)

/-- R34, R111: host access to limb j of B[k]: below MAXBITS/32 a read returns it and a write sets it, leaves every other limb and
register and sets VALID[k]; above, a read returns 0 and a write is ignored; while BUSY = 1 each gets a bus error. -/
def Obligations.RegisterWindowAccess : Prop :=
  ∀ (s : State) (k : Reg) (j : Nat) (v : Word) (rest : List Event), s.params.Legal → j < 128 →
    (s.script = .read (s.params.base + (0x1000 + 0x200 * k.val + 4 * j)) 4 :: rest →
      step s = .next { s with
        script := rest
        bus := if s.busy then .error
          else .data (if j < s.params.maxBits / 32 then BitVec.ofNat 32 (s.reg k / 2 ^ (32 * j)) else 0) }) ∧
    (s.script = .write (s.params.base + (0x1000 + 0x200 * k.val + 4 * j)) 4 v :: rest →
      (s.busy = true → step s = .next { s with script := rest, bus := .error }) ∧
      (s.busy = false → s.params.maxBits / 32 ≤ j → step s = .next { s with script := rest, bus := .done }) ∧
      (s.busy = false → j < s.params.maxBits / 32 →
        ∃ t, step s = .next t ∧ t = { s with script := rest, bus := .done, b := t.b, valid := t.valid } ∧
          SameRegsBut [k] s t ∧ t.isValid k = true ∧ limb (t.reg k) j = v ∧
          ∀ i, i ≠ j → limb (t.reg k) i = limb (s.reg k) i))

/-- R62: a write of v to BZERO while BUSY = 0 sets B[k] to 0 and VALID[k] to 1 for every k with v[k] = 1, and changes no other
register; BZERO reads 0. -/
def Obligations.BzeroClearsRegisters : Prop :=
  ∀ (s : State) (v : Word) (rest : List Event), s.params.Legal →
    (s.busy = false → s.script = .write (s.params.base + 0x044) 4 v :: rest →
      ∃ t, step s = .next t ∧ t = { s with script := rest, bus := .done, b := t.b, valid := t.valid } ∧
        ∀ k : Reg, (v.getLsbD k.val = true → t.reg k = 0 ∧ t.isValid k = true) ∧
          (v.getLsbD k.val = false → t.reg k = s.reg k ∧ t.isValid k = s.isValid k)) ∧
    (s.busy = true → s.script = .write (s.params.base + 0x044) 4 v :: rest →
      step s = .next { s with script := rest, bus := .error }) ∧
    (s.script = .read (s.params.base + 0x044) 4 :: rest → step s = .next { s with script := rest, bus := .data 0 })

/-- R63, R103, R111: host access to limb j of CT[i] while BUSY = 0: below MAXBITS/32 a read returns bits [32j+31:32j] of CT[i]
and a write sets them and leaves every other limb, slot and byte; above, a read returns 0 and a write is ignored. -/
def Obligations.CiphertextWindowAccess : Prop :=
  ∀ (s : State) (i j : Nat) (v : Word) (rest : List Event), s.params.Legal → s.busy = false → i < s.params.ctSlots →
    j < 128 →
    (s.script = .read (s.params.base + (0x10000 + 0x200 * i + 4 * j)) 4 :: rest →
      step s = .next { s with
        script := rest
        bus := .data (if j < s.params.maxBits / 32 then BitVec.ofNat 32 (s.ct i / 2 ^ (32 * j)) else 0) }) ∧
    (s.script = .write (s.params.base + (0x10000 + 0x200 * i + 4 * j)) 4 v :: rest →
      (s.params.maxBits / 32 ≤ j → step s = .next { s with script := rest, bus := .done }) ∧
      (j < s.params.maxBits / 32 →
        ∃ t, step s = .next t ∧ t = { s with script := rest, bus := .done, mem := t.mem } ∧
          limb (t.ct i) j = v ∧ (∀ l, l ≠ j → limb (t.ct i) l = limb (s.ct i) l) ∧
          ∀ a, ¬ (0x10000 + 0x200 * i + 4 * j ≤ a ∧ a < 0x10000 + 0x200 * i + 4 * j + 4) →
            t.mem.read a = s.mem.read a))

/-- R102: the word at a 4-aligned offset of MSG or OUT holds byte b in data bits [8b+7:8b]: a read returns the four bytes so
packed and a write sets them and no other byte, while BUSY = 0. -/
def Obligations.MessageAndOutputByteLanes : Prop :=
  ∀ (s : State) (off q : Nat) (v : Word) (rest : List Event), s.params.Legal → s.busy = false →
    ((off = 0x20000 + 4 * q ∧ 4 * q < s.params.msgBytes) ∨ (off = 0x30000 + 4 * q ∧ 4 * q < s.params.outBytes)) →
    (s.script = .read (s.params.base + off) 4 :: rest →
      step s = .next { s with
        script := rest
        bus := .data (BitVec.ofNat 32 ((s.mem.read off).toNat + (s.mem.read (off + 1)).toNat * 2 ^ 8 +
          (s.mem.read (off + 2)).toNat * 2 ^ 16 + (s.mem.read (off + 3)).toNat * 2 ^ 24)) }) ∧
    (s.script = .write (s.params.base + off) 4 v :: rest →
      ∃ t, step s = .next t ∧ t = { s with script := rest, bus := .done, mem := t.mem } ∧
        (∀ b, b < 4 → t.mem.read (off + b) = BitVec.ofNat 8 (v.toNat / 2 ^ (8 * b))) ∧
        ∀ a, ¬ (off ≤ a ∧ a < off + 4) → t.mem.read a = s.mem.read a)

/-- R50, R51, R52, R53: a CTRL write with bit 2 = 0 sets IRQEN to bit 1 and, with bit 0 = 1 while BUSY = 1, makes an abort
pending, and does nothing else; with bit 2 = 1 it is the soft reset; a read returns IRQEN in bit 1 and 0 elsewhere; it is
taken while BUSY = 1 as well. -/
def Obligations.CtrlAccess : Prop :=
  ∀ (s : State) (v : Word) (rest : List Event), s.params.Legal →
    (s.script = .write (s.params.base + 0x020) 4 v :: rest →
      (v.getLsbD 2 = false → step s = .next { s with
        script := rest
        bus := .done
        irqen := v.getLsbD 1
        abortPending := if v.getLsbD 0 = true ∧ s.busy = true then true else s.abortPending }) ∧
      (v.getLsbD 2 = true →
        step s = .next { ({ s with script := rest } : State).softReset with bus := .done })) ∧
    (s.script = .read (s.params.base + 0x020) 4 :: rest →
      step s = .next { s with script := rest, bus := .data (if s.irqen then 2 else 0) })

/-- R54: a STATUS write clears DONE, ERR and CMDOVR where bits 1, 2 and 4 of it are 1 and does nothing else, while BUSY = 1 as
well, where DONE and ERR are already 0. -/
def Obligations.StatusWriteOneToClear : Prop :=
  (∀ (s : State) (v : Word) (rest : List Event), s.params.Legal →
      s.script = .write (s.params.base + 0x024) 4 v :: rest →
      step s = .next { s with
        script := rest
        bus := .done
        done := if v.getLsbD 1 then false else s.done
        err := if v.getLsbD 2 then false else s.err
        cmdovr := if v.getLsbD 4 then false else s.cmdovr }) ∧
    (∀ s : State, Inv s → s.busy = true → s.done = false ∧ s.err = false)

/-- R43-R49: what ID, VERSION and PARAM0-PARAM4 read as, and R57-R60: what MSGLEN, BLKSIZE, CTCOUNT and OUTLEN read as, in
every state. A write of any 32-bit value to MSGLEN or CTCOUNT while BUSY = 0 stores it and does nothing else (R57, R59). A
write to a read-only CSR is ignored with a normal response (R42), said of the constants and of ERRINFO, BLKSIZE, OUTLEN and
BVALID. That PRIME_MAX_ATTEMPTS fits PARAM4's 32 bits is deduced (log entry 2). -/
def Obligations.ConstantCountAndLengthRegisters : Prop :=
  (∀ (s : State) (rest : List Event), s.params.Legal →
    (∀ off v, (off = 0x000 ∧ v = 0x52534131) ∨ (off = 0x004 ∧ v = 0x00010000) ∨
        (off = 0x008 ∧ v = s.params.maxBits + s.params.nLanes * 2 ^ 16 + 16 * 2 ^ 24) ∨
        (off = 0x00C ∧ v = s.params.ctSlots + s.params.mrRounds * 2 ^ 16) ∨ (off = 0x010 ∧ v = s.params.msgBytes) ∨
        (off = 0x014 ∧ v = s.params.outBytes) ∨ (off = 0x018 ∧ v = s.params.maxAttempts) →
      s.script = .read (s.params.base + off) 4 :: rest →
      v < 2 ^ 32 ∧ step s = .next { s with script := rest, bus := .data (BitVec.ofNat 32 v) }) ∧
    (∀ off w, (off = 0x030 ∧ w = s.msglen) ∨ (off = 0x034 ∧ w = s.blksize) ∨ (off = 0x038 ∧ w = s.ctcount) ∨
        (off = 0x03C ∧ w = s.outlen) →
      s.script = .read (s.params.base + off) 4 :: rest → step s = .next { s with script := rest, bus := .data w }) ∧
    (∀ v, s.busy = false →
      (s.script = .write (s.params.base + 0x030) 4 v :: rest →
        step s = .next { s with script := rest, bus := .done, msglen := v }) ∧
      (s.script = .write (s.params.base + 0x038) 4 v :: rest →
        step s = .next { s with script := rest, bus := .done, ctcount := v })) ∧
    (∀ off v, off ∈ [0x000, 0x004, 0x008, 0x00C, 0x010, 0x014, 0x018, 0x02C, 0x034, 0x03C, 0x040] →
      s.script = .write (s.params.base + off) 4 v :: rest → step s = .next { s with script := rest, bus := .done }))

/-- R36-R41, R56, R61: a read of STATUS, of ERRINFO or of BVALID, in every state, returns a word whose bits are the fields of
those rules; the reserved bits read 0. R401: the number STATUS.ERRCODE holds for each of the ten outcomes. -/
def Obligations.StatusErrinfoBvalidBits : Prop :=
  (∀ (s : State) (rest : List Event), s.params.Legal →
    (s.script = .read (s.params.base + 0x024) 4 :: rest →
      step s = .next { s with script := rest, bus := .data s.statusWord }) ∧
    (s.script = .read (s.params.base + 0x02C) 4 :: rest →
      step s = .next { s with script := rest, bus := .data s.errinfoWord }) ∧
    (s.script = .read (s.params.base + 0x040) 4 :: rest →
      step s = .next { s with script := rest, bus := .data s.bvalidWord })) ∧
  (∀ s : State,
    s.statusWord.getLsbD 0 = s.busy ∧ s.statusWord.getLsbD 1 = s.done ∧ s.statusWord.getLsbD 2 = s.err ∧
      s.statusWord.getLsbD 3 = s.prime ∧ s.statusWord.getLsbD 4 = s.cmdovr ∧
      field s.statusWord 7 5 = 0 ∧ field s.statusWord 15 8 = s.errcode.code ∧ field s.statusWord 31 16 = 0 ∧
      (s.busy = true ↔ ∃ w, s.run = .running w) ∧
      field s.errinfoWord 15 0 = s.index.toNat ∧ field s.errinfoWord 23 16 = s.subcode.toNat ∧
      field s.errinfoWord 31 24 = 0 ∧ (∀ k : Reg, s.bvalidWord.getLsbD k.val = s.isValid k) ∧
      field s.bvalidWord 31 16 = 0) ∧
  (ErrCode.noError.code = 0x00 ∧ ErrCode.illegalCmd.code = 0x01 ∧ ErrCode.uninit.code = 0x02 ∧
    ErrCode.domain.code = 0x03 ∧ ErrCode.invalidModulus.code = 0x04 ∧ ErrCode.keyTooSmall.code = 0x05 ∧
    ErrCode.generationFailed.code = 0x06 ∧ ErrCode.decryptionFailed.code = 0x07 ∧ ErrCode.cancelled.code = 0x08 ∧
    ErrCode.capacity.code = 0x09)
end

