-- ==== Sys2Proof/Laws/Arith.lean ====
section
/-! SUPPORT. What the integer and byte-string functions of Machine/Arith.lean compute: bitlen (spec/00_scope.md R14), the two
datapaths against the functions they stand for (spec/43_codec.md R281, R282; spec/41_modinv.md R241, R242), BE and BEmin
(R16), limbs (spec/10_state.md R31, R34). -/

namespace Sys2Proof.Machine

/-! ### bitlen and ceil -/

theorem bitLen_eq_size (x : Nat) : bitLen x = x.size := by
  unfold bitLen
  split
  · subst_vars; rfl
  · next h =>
    refine (le_antisymm ?_ ?_).symm
    · rw [Nat.size_le]; exact Nat.lt_log2_self
    · have : 2 ^ x.log2 ≤ x := Nat.log2_self_le h
      exact Nat.lt_size.2 this

/-- R14: bitlen(x) is at most k exactly when x < 2^k. -/
theorem bitLen_le_iff (x k : Nat) : bitLen x ≤ k ↔ x < 2 ^ k := by rw [bitLen_eq_size, Nat.size_le]

theorem lt_two_pow_bitLen (x : Nat) : x < 2 ^ bitLen x := (bitLen_le_iff x _).1 le_rfl

theorem two_pow_le_of_lt_bitLen {x k : Nat} (h : k < bitLen x) : 2 ^ k ≤ x := by
  rw [bitLen_eq_size] at h; exact Nat.lt_size.1 h

theorem ceilDiv_eq_zero_iff {a b : Nat} (hb : 0 < b) : ceilDiv a b = 0 ↔ a = 0 := by
  unfold ceilDiv
  rw [Nat.div_eq_zero_iff]
  omega

/-- `ceil(a / b)` is the least k with a <= k * b. -/
theorem ceilDiv_le_iff {a b k : Nat} (hb : 0 < b) : ceilDiv a b ≤ k ↔ a ≤ k * b := by
  unfold ceilDiv
  rw [Nat.div_le_iff_le_mul_add_pred hb, mul_comm]
  omega

theorem le_ceilDiv_mul {a b : Nat} (hb : 0 < b) : a ≤ ceilDiv a b * b := (ceilDiv_le_iff hb).1 le_rfl

theorem lt_ceilDiv_iff {a b k : Nat} (hb : 0 < b) : k < ceilDiv a b ↔ k * b < a := by
  rw [← not_le, ceilDiv_le_iff hb, not_le]

/-! ### The exponentiation datapath (R281, R282) -/

theorem shiftRight_eq_bit (e i : Nat) : e >>> i = 2 * (e >>> (i + 1)) + (if e.testBit i then 1 else 0) := by
  have h : e >>> (i + 1) = (e >>> i) / 2 := by rw [Nat.shiftRight_succ]
  have ht : e.testBit i = decide ((e >>> i) % 2 = 1) := by
    rw [Nat.testBit_eq_decide_div_mod_eq, Nat.shiftRight_eq_div_pow]
  rw [h, ht]
  by_cases hb : (e >>> i) % 2 = 1
  · rw [if_pos (decide_eq_true hb)]; omega
  · rw [if_neg (by rw [decide_eq_true_iff]; exact hb)]; omega

theorem modExpFrom_eq (b e m : Nat) :
    ∀ i r, r = b ^ (e >>> i) % m → modExpFrom (b % m) e m i r = b ^ e % m := by
  intro i
  induction i with
  | zero => intro r hr; simpa [modExpFrom] using hr
  | succ i ih =>
    intro r hr
    apply ih
    have hsq : r * r % m = b ^ (2 * (e >>> (i + 1))) % m := by
      rw [hr, ← Nat.mul_mod, two_mul, pow_add]
    rw [shiftRight_eq_bit e i]
    by_cases hb : e.testBit i
    · simp only [hb, if_true]
      rw [hsq, ← Nat.mul_mod, ← pow_succ]
    · simpa [hb] using hsq

/-- R282: "Its result equals ModExp for every input". -/
theorem modExp_eq (b e m : Nat) : modExp b e m = b ^ e % m := by
  apply modExpFrom_eq
  have h : e >>> bitLen e = 0 := by
    rw [Nat.shiftRight_eq_div_pow]; exact Nat.div_eq_of_lt (lt_two_pow_bitLen e)
  rw [h, pow_zero]

theorem modExp_lt {m : Nat} (b e : Nat) (hm : 0 < m) : modExp b e m < m := by
  rw [modExp_eq]; exact Nat.mod_lt _ hm

/-! ### The inverse datapath (R241, R242, R243) -/

/-- What R243 says of the coefficients, with the identity behind it: they have opposite signs, and
|x1| * m + |x0| * a is the original modulus. -/
def CoeffInv (a m : Nat) (x0 x1 m0 : Int) : Prop :=
  (0 ≤ x1 ∧ x0 ≤ 0 ∧ x1 * m - x0 * a = m0) ∨ (x1 ≤ 0 ∧ 0 ≤ x0 ∧ x0 * a - x1 * m = m0)

theorem CoeffInv.step {a m : Nat} {x0 x1 m0 : Int} (h : CoeffInv a m x0 x1 m0) :
    CoeffInv m (a % m) (x1 - (a / m : Nat) * x0) x0 m0 := by
  have hdiv : ((a % m : Nat) : Int) = a - m * (a / m : Nat) := by
    have := Nat.div_add_mod a m; omega
  have hq : (0 : Int) ≤ (a / m : Nat) := by positivity
  rcases h with ⟨h1, h0, he⟩ | ⟨h1, h0, he⟩
  · right
    refine ⟨h0, by nlinarith, ?_⟩
    rw [hdiv, ← he]; ring
  · left
    refine ⟨h0, by nlinarith, ?_⟩
    rw [hdiv, ← he]; ring

theorem CoeffInv.x0_small {a m : Nat} {x0 x1 m0 : Int} (h : CoeffInv a m x0 x1 m0) (ha : 2 ≤ a) (hm0 : 0 < m0) :
    -m0 < x0 ∧ x0 < m0 := by
  have hm : (0 : Int) ≤ m := by positivity
  have ha' : (2 : Int) ≤ a := by exact_mod_cast ha
  rcases h with ⟨h1, h0, he⟩ | ⟨h1, h0, he⟩ <;> constructor <;> nlinarith [mul_nonneg (abs_nonneg x1) hm]

theorem modInvLoop_spec (a0 m0 : Nat) :
    ∀ (fuel a m : Nat) (x0 x1 : Int), m < fuel → 1 ≤ a → Nat.gcd a m = 1 → 0 < m0 → CoeffInv a m x0 x1 m0 →
      (m0 : Int) ∣ x1 * a0 - a → (m0 : Int) ∣ x0 * a0 - m → -(m0 : Int) < x1 ∧ x1 < m0 →
      (m0 : Int) ∣ modInvLoop fuel a m x0 x1 * a0 - 1 ∧
        -(m0 : Int) < modInvLoop fuel a m x0 x1 ∧ modInvLoop fuel a m x0 x1 < m0 := by
  intro fuel
  induction fuel with
  | zero => intro a m _ _ h; omega
  | succ fuel ih =>
    intro a m x0 x1 hf ha hg hm0 hc hx1 hx0 hb
    unfold modInvLoop
    by_cases hstop : a ≤ 1 ∨ m = 0
    · rw [if_pos hstop]
      have ha1 : a = 1 := by
        rcases hstop with h | h
        · omega
        · subst h; simpa using hg
      subst ha1
      exact ⟨by simpa using hx1, hb⟩
    · rw [if_neg hstop]
      have hm : 0 < m := by omega
      have hdiv : ((a % m : Nat) : Int) = a - m * (a / m : Nat) := by
        have := Nat.div_add_mod a m; omega
      refine ih m (a % m) _ _ ?_ hm ?_ hm0 hc.step hx0 ?_ (hc.x0_small (by omega) (by exact_mod_cast hm0))
      · have := Nat.mod_lt a hm; omega
      · rw [Nat.gcd_comm, ← Nat.gcd_rec, Nat.gcd_comm]; exact hg
      · rw [hdiv]
        have : (x1 - (a / m : Nat) * x0) * (a0 : Int) - (a - m * (a / m : Nat))
            = (x1 * a0 - a) - (a / m : Nat) * (x0 * a0 - m) := by ring
        rw [this]
        exact dvd_sub hx1 (hx0.mul_left _)

/-- R241, R246: for m >= 2 and gcd(a, m) = 1, ModInv(a, m) lies in [0, m) and is an inverse of a. -/
theorem modInv_spec {a m : Nat} (hm : 2 ≤ m) (hg : Nat.gcd a m = 1) :
    modInv a m < m ∧ a * modInv a m % m = 1 := by
  have ha : 1 ≤ a := by
    rcases Nat.eq_zero_or_pos a with h | h
    · subst h; simp at hg; omega
    · exact h
  obtain ⟨hd, hlo, hhi⟩ := modInvLoop_spec a m (m + 2) a m 0 1 (by omega) ha hg (by omega)
    (Or.inl ⟨by norm_num, le_rfl, by ring⟩) (by simp) (by simp) (by constructor <;> omega)
  simp only [modInv]
  generalize modInvLoop (m + 2) a m 0 1 = x at hd hlo hhi
  set y : Int := if x < 0 then x + m else x with hy
  have hy0 : 0 ≤ y := by rw [hy]; split <;> omega
  have hym : y < m := by rw [hy]; split <;> omega
  have hyd : (m : Int) ∣ y * a - 1 := by
    rw [hy]; split
    · have : (x + m) * (a : Int) - 1 = (x * a - 1) + m * a := by ring
      rw [this]; exact dvd_add hd (dvd_mul_right _ _)
    · exact hd
  have hcast : ((y.toNat : Nat) : Int) = y := Int.toNat_of_nonneg hy0
  refine ⟨by omega, ?_⟩
  have hmod : ((a * y.toNat : Nat) : Int) ≡ 1 [ZMOD m] := by
    push_cast
    rw [hcast, mul_comm]
    exact (Int.modEq_iff_dvd.2 (by simpa using (dvd_neg.2 hyd))).trans rfl
  have h1 : a * y.toNat ≡ 1 [MOD m] := by exact_mod_cast hmod
  rw [show a * y.toNat % m = 1 % m from h1]
  exact Nat.mod_eq_of_lt (by omega)

/-- R241: the inverse in [0, m) is unique. -/
theorem inverse_unique {a m x y : Nat} (hm : 2 ≤ m) (hx : x < m) (hy : y < m) (hax : a * x % m = 1)
    (hay : a * y % m = 1) : x = y := by
  have h1 : a * x ≡ 1 [MOD m] := by unfold Nat.ModEq; rw [hax, Nat.mod_eq_of_lt (by omega)]
  have h2 : a * y ≡ 1 [MOD m] := by unfold Nat.ModEq; rw [hay, Nat.mod_eq_of_lt (by omega)]
  have h3 : x ≡ y [MOD m] := by
    calc x = x * 1 := (mul_one x).symm
      _ ≡ x * (a * y) [MOD m] := (Nat.ModEq.refl x).mul h2.symm
      _ = (a * x) * y := by ring
      _ ≡ 1 * y [MOD m] := h1.mul (Nat.ModEq.refl y)
      _ = y := one_mul y
  exact Nat.ModEq.eq_of_lt_of_lt h3 hx hy

/-! ### Byte strings (R16, R102, R105) -/

theorem beValue_append (xs ys : List Byte) : beValue (xs ++ ys) = beValue xs * 256 ^ ys.length + beValue ys := by
  induction ys using List.reverseRecOn with
  | nil => simp [beValue]
  | append_singleton ys y ih =>
    unfold beValue at *
    rw [← List.append_assoc, List.foldl_append, ih]
    simp [pow_succ]; ring

theorem beValue_singleton (x : Byte) : beValue [x] = x.toNat := by simp [beValue]

theorem beValue_nil : beValue [] = 0 := rfl

theorem beValue_cons (x : Byte) (xs : List Byte) :
    beValue (x :: xs) = x.toNat * 256 ^ xs.length + beValue xs := by
  rw [← List.singleton_append, beValue_append, beValue_singleton]

theorem beValue_lt (xs : List Byte) : beValue xs < 256 ^ xs.length := by
  induction xs with
  | nil => simp [beValue]
  | cons x xs ih =>
    rw [beValue_cons, List.length_cons, pow_succ]
    have := x.isLt
    nlinarith

/-- The n bytes of v, most significant first. -/
theorem beValue_bytes (v : Nat) :
    ∀ n, beValue ((List.range n).map fun i => (BitVec.ofNat 8 (v >>> (8 * (n - 1 - i))) : Byte)) = v % 256 ^ n := by
  intro n
  induction n generalizing v with
  | zero => simp [beValue, Nat.mod_one]
  | succ n ih =>
    rw [List.range_succ, List.map_append, beValue_append]
    have hm : ((List.range n).map fun i => (BitVec.ofNat 8 (v >>> (8 * (n + 1 - 1 - i))) : Byte))
        = (List.range n).map fun i => (BitVec.ofNat 8 ((v / 256) >>> (8 * (n - 1 - i))) : Byte) := by
      apply List.map_congr_left
      intro i hi
      have hi' : i < n := List.mem_range.1 hi
      have h8 : 8 * (n + 1 - 1 - i) = 8 + 8 * (n - 1 - i) := by omega
      rw [h8, Nat.shiftRight_add, Nat.shiftRight_eq_div_pow v 8]
    rw [hm, ih (v / 256)]
    simp only [List.map_cons, List.map_nil, beValue_singleton, List.length_singleton, pow_one, BitVec.toNat_ofNat]
    have h0 : 8 * (n + 1 - 1 - n) = 0 := by omega
    rw [h0, Nat.shiftRight_zero, pow_succ' 256 n, Nat.mod_mul]
    norm_num
    omega

theorem beMin_length (v : Nat) : (beMin v).length = ceilDiv (bitLen v) 8 := by simp [beMin]

/-- R16: BE(BEmin(v)) = v. -/
theorem beValue_beMin (v : Nat) : beValue (beMin v) = v := by
  unfold beMin
  rw [beValue_bytes]
  apply Nat.mod_eq_of_lt
  calc v < 2 ^ bitLen v := lt_two_pow_bitLen v
    _ ≤ 2 ^ (8 * ceilDiv (bitLen v) 8) := by
        apply Nat.pow_le_pow_right (by norm_num)
        have := le_ceilDiv_mul (a := bitLen v) (b := 8) (by norm_num); omega
    _ = 256 ^ ceilDiv (bitLen v) 8 := by rw [pow_mul]; norm_num

/-- R16: BEmin(v) has no leading zero byte. -/
theorem beMin_head_ne_zero (v : Nat) : (beMin v).head? ≠ some 0 := by
  intro h
  have hlen := beMin_length v
  obtain ⟨xs, hxs⟩ : ∃ xs, beMin v = 0 :: xs := by
    cases hb : beMin v with
    | nil => rw [hb] at h; simp at h
    | cons x xs => rw [hb] at h; simp at h; exact ⟨xs, by rw [h]; rfl⟩
  have hv : v < 256 ^ xs.length := by
    have := beValue_beMin v
    rw [hxs, beValue_cons] at this
    have hlt := beValue_lt xs
    simp at this; omega
  rw [hxs, List.length_cons] at hlen
  have hlt : xs.length < ceilDiv (bitLen v) 8 := by omega
  rw [lt_ceilDiv_iff (by norm_num)] at hlt
  have := two_pow_le_of_lt_bitLen hlt
  rw [mul_comm, pow_mul] at this
  norm_num at this
  omega

/-- Two byte strings without a leading zero byte and with the same value are the same. -/
theorem eq_of_beValue_eq {xs ys : List Byte} (hx : xs.head? ≠ some 0) (hy : ys.head? ≠ some 0)
    (h : beValue xs = beValue ys) : xs = ys := by
  have key : ∀ zs : List Byte, zs.head? ≠ some 0 → zs ≠ [] → 256 ^ (zs.length - 1) ≤ beValue zs := by
    intro zs hz hne
    cases zs with
    | nil => exact absurd rfl hne
    | cons z zs =>
      rw [beValue_cons]
      have hz0 : z.toNat ≠ 0 := by
        intro h0; apply hz; simp; exact BitVec.eq_of_toNat_eq (by simpa using h0)
      have : 1 ≤ z.toNat := by omega
      simp only [List.length_cons, Nat.add_sub_cancel]
      nlinarith [Nat.pow_pos (n := zs.length) (show 0 < 256 by norm_num)]
  have hlen : xs.length = ys.length := by
    have hx2 := beValue_lt xs
    have hy2 := beValue_lt ys
    have aux : ∀ us ws : List Byte, us.head? ≠ some 0 → beValue us = beValue ws → us.length ≤ ws.length := by
      intro us ws hu he
      by_contra hlt
      have hne : us ≠ [] := by rintro rfl; simp at hlt
      have h1 := key us hu hne
      have h2 := beValue_lt ws
      have : 256 ^ ws.length ≤ 256 ^ (us.length - 1) := Nat.pow_le_pow_right (by norm_num) (by omega)
      omega
    exact le_antisymm (aux xs ys hx h) (aux ys xs hy h.symm)
  clear hx hy key
  induction xs generalizing ys with
  | nil => cases ys with
    | nil => rfl
    | cons y ys => simp at hlen
  | cons x xs ih => cases ys with
    | nil => simp at hlen
    | cons y ys =>
      simp only [List.length_cons, Nat.add_right_cancel_iff] at hlen
      rw [beValue_cons, beValue_cons, hlen] at h
      have h1 := beValue_lt xs
      have h2 := beValue_lt ys
      rw [hlen] at h1
      have hxy : x.toNat = y.toNat := by
        have hp : 0 < 256 ^ ys.length := by positivity
        have e1 : (x.toNat * 256 ^ ys.length + beValue xs) / 256 ^ ys.length = x.toNat := by
          rw [mul_comm, Nat.mul_add_div hp, Nat.div_eq_of_lt h1, add_zero]
        have e2 : (y.toNat * 256 ^ ys.length + beValue ys) / 256 ^ ys.length = y.toNat := by
          rw [mul_comm, Nat.mul_add_div hp, Nat.div_eq_of_lt h2, add_zero]
        rw [← e1, ← e2, h]
      have hxy' : x = y := BitVec.eq_of_toNat_eq hxy
      subst hxy'
      rw [ih (ys := ys) (by omega) hlen]

/-- Leading zero bytes do not change the value. -/
theorem beValue_dropZeros (xs : List Byte) : beValue (xs.dropWhile fun x => x == 0) = beValue xs := by
  induction xs with
  | nil => rfl
  | cons x xs ih =>
    by_cases hx : x = 0
    · subst hx; rw [List.dropWhile_cons_of_pos (by simp), ih, beValue_cons]; simp
    · rw [List.dropWhile_cons_of_neg (by simpa using hx)]

/-- R285: BEmin(BE(s)) is s with its leading zero bytes removed. -/
theorem beMin_beValue (xs : List Byte) : beMin (beValue xs) = xs.dropWhile fun x => x == 0 := by
  apply eq_of_beValue_eq (beMin_head_ne_zero _)
  · intro h
    have := List.head?_dropWhile_not (fun x : Byte => x == 0) xs
    rw [h] at this
    simp at this
  · rw [beValue_beMin, beValue_dropZeros]

@[simp] theorem leBytes_length (n v : Nat) : (leBytes n v).length = n := by simp [leBytes]

theorem leBytes_succ (n v : Nat) : leBytes (n + 1) v = BitVec.ofNat 8 v :: leBytes n (v / 256) := by
  unfold leBytes
  rw [List.range_succ_eq_map, List.map_cons, List.map_map]
  refine congrArg₂ List.cons (by simp) (List.map_congr_left ?_)
  intro k _
  simp only [Function.comp]
  have h8 : 8 * k.succ = 8 + 8 * k := by omega
  rw [h8, Nat.shiftRight_add, Nat.shiftRight_eq_div_pow v 8]

theorem leValue_cons (x : Byte) (xs : List Byte) : leValue (x :: xs) = x.toNat + 256 * leValue xs := rfl

/-- The n low bytes of v, read back. -/
theorem leValue_leBytes (n v : Nat) : leValue (leBytes n v) = v % 256 ^ n := by
  induction n generalizing v with
  | zero => simp [leBytes, leValue, Nat.mod_one]
  | succ n ih =>
    rw [leBytes_succ, leValue_cons, ih, pow_succ', Nat.mod_mul]
    simp

theorem leValue_lt (xs : List Byte) : leValue xs < 256 ^ xs.length := by
  induction xs with
  | nil => simp [leValue]
  | cons x xs ih =>
    rw [leValue_cons, List.length_cons, pow_succ]
    have := x.isLt
    omega

theorem leBytes_leValue (xs : List Byte) : leBytes xs.length (leValue xs) = xs := by
  induction xs with
  | nil => rfl
  | cons x xs ih =>
    rw [List.length_cons, leBytes_succ, leValue_cons]
    have h1 : (x.toNat + 256 * leValue xs) / 256 = leValue xs := by have := x.isLt; omega
    rw [h1, ih]
    congr 1
    apply BitVec.eq_of_toNat_eq
    have := x.isLt
    simp only [BitVec.toNat_ofNat]
    omega

/-! ### Limbs (R31, R34) -/

theorem limb_toNat (x j : Nat) : (limb x j).toNat = x / 2 ^ (32 * j) % 2 ^ 32 := by
  simp [limb, Nat.shiftRight_eq_div_pow]

/-- Low digits below the replaced one are kept. -/
theorem digit_below {x y I W Q : Nat} (hI : 0 < I) :
    (x % (I * W * Q) + I * W * Q * y) / I % W = x / I % W := by
  have e : x % (I * W * Q) + I * W * Q * y = x % (I * W * Q) + I * (W * (Q * y)) := by ring
  rw [e, Nat.add_mul_div_left _ _ hI, Nat.add_mul_mod_self_left, mul_assoc, Nat.mod_mul_right_div_self,
    Nat.mod_mod_of_dvd _ (dvd_mul_right _ _)]

/-- Digits above the replaced one are kept. -/
theorem digit_above {x l N K W : Nat} (hN : 0 < N) (hl : l < N) :
    (l + x / N * N) / (N * K) % W = x / (N * K) % W := by
  rw [← Nat.div_div_eq_div_mul, ← Nat.div_div_eq_div_mul, Nat.add_mul_div_right _ _ hN, Nat.div_eq_of_lt hl, zero_add]

/-- The replaced digit is the new one. -/
theorem digit_at {x v P W q : Nat} (hP : 0 < P) (hv : v < W) :
    (x % P + v * P + q * (P * W)) / P % W = v := by
  have e : x % P + v * P + q * (P * W) = x % P + P * (v + q * W) := by ring
  rw [e, Nat.add_mul_div_left _ _ hP, Nat.div_eq_of_lt (Nat.mod_lt _ hP), zero_add, Nat.add_mul_mod_self_right,
    Nat.mod_eq_of_lt hv]

/-- The part of setLimb at and below limb j. -/
theorem limb_part_lt {x v P W : Nat} (hP : 0 < P) (hv : v < W) : x % P + v * P < P * W := by
  have h := Nat.mod_lt x hP
  calc x % P + v * P < P + v * P := by omega
    _ = (v + 1) * P := by ring
    _ ≤ W * P := Nat.mul_le_mul_right _ hv
    _ = P * W := mul_comm _ _

theorem pow_limb_succ (j : Nat) : 2 ^ (32 * (j + 1)) = 2 ^ (32 * j) * 2 ^ 32 := by
  rw [← pow_add]; congr 1

/-- R34: limb j of the written register is the written word. -/
theorem limb_setLimb_same (x j : Nat) (v : Word) : limb (setLimb x j v) j = v := by
  apply BitVec.eq_of_toNat_eq
  rw [limb_toNat, setLimb, pow_limb_succ]
  exact digit_at (Nat.two_pow_pos _) v.isLt

/-- R34: "leaves every other limb unchanged". -/
theorem limb_setLimb_other (x : Nat) {j i : Nat} (v : Word) (h : i ≠ j) : limb (setLimb x j v) i = limb x i := by
  apply BitVec.eq_of_toNat_eq
  rw [limb_toNat, limb_toNat, setLimb]
  rcases Nat.lt_or_gt_of_ne h with hlt | hgt
  · have hj : 2 ^ (32 * j) = 2 ^ (32 * i) * 2 ^ 32 * 2 ^ (32 * (j - i - 1)) := by
      rw [← pow_add, ← pow_add]; congr 1; omega
    have e : ∀ z, x % 2 ^ (32 * j) + v.toNat * 2 ^ (32 * j) + z * 2 ^ (32 * (j + 1))
        = x % 2 ^ (32 * j) + 2 ^ (32 * j) * (v.toNat + z * 2 ^ 32) := by
      intro z; rw [pow_limb_succ]; ring
    rw [e, hj]
    exact digit_below (Nat.two_pow_pos _)
  · have hi : 2 ^ (32 * i) = 2 ^ (32 * (j + 1)) * 2 ^ (32 * (i - (j + 1))) := by
      rw [← pow_add]; congr 1; omega
    rw [hi]
    refine digit_above (Nat.two_pow_pos _) ?_
    rw [pow_limb_succ]
    exact limb_part_lt (Nat.two_pow_pos _) v.isLt

/-- R31: a limb write below MAXBITS keeps the register in range. -/
theorem setLimb_lt {x j b : Nat} (v : Word) (hb : b % 32 = 0) (hj : j < b / 32) (hx : x < 2 ^ b) :
    setLimb x j v < 2 ^ b := by
  have hl : x % 2 ^ (32 * j) + v.toNat * 2 ^ (32 * j) < 2 ^ (32 * (j + 1)) := by
    rw [pow_limb_succ]; exact limb_part_lt (Nat.two_pow_pos _) v.isLt
  have hd : 2 ^ b = 2 ^ (b - 32 * (j + 1)) * 2 ^ (32 * (j + 1)) := by
    rw [← pow_add]; congr 1; omega
  have hq : x / 2 ^ (32 * (j + 1)) < 2 ^ (b - 32 * (j + 1)) := by
    rw [Nat.div_lt_iff_lt_mul (Nat.two_pow_pos _), ← hd]; exact hx
  have hle : (x / 2 ^ (32 * (j + 1)) + 1) * 2 ^ (32 * (j + 1)) ≤ 2 ^ b := by
    rw [hd]; exact Nat.mul_le_mul_right _ hq
  rw [add_mul, one_mul] at hle
  unfold setLimb
  omega

end Sys2Proof.Machine
end

