-- ==== Sys2Proof/Laws/Decode.lean ====
section
/-! SUPPORT. The decoder and the encoder (Decode.lean) field by field: what each field of an encoded word reads as, and that the
mask and match test of spec/30_encoding.md R147 is the test that the opcode is the row's and its zero fields are zero. -/

namespace Sys2Proof

theorem field_lt (w : Word) (hi lo : Nat) : field w hi lo < 2 ^ (hi - lo + 1) := Nat.mod_lt _ (Nat.two_pow_pos _)

@[simp] theorem regField_val (w : Word) (hi lo : Nat) (h : hi - lo + 1 = 4) : (regField w hi lo).val = field w hi lo := by
  have := field_lt w hi lo
  rw [h] at this
  unfold regField
  simp only [Fin.val_ofNat]
  omega

/-! ### The fields of an encoded word (R141-R143) -/

theorem formatR_toNat {op : Nat} (h : op < 256) (ra rb rc rd : Reg) :
    (formatR op ra rb rc rd).toNat =
      op * 2 ^ 24 + ra.val * 2 ^ 20 + rb.val * 2 ^ 16 + rc.val * 2 ^ 12 + rd.val * 2 ^ 8 := by
  unfold formatR
  rw [BitVec.toNat_ofNat]
  omega

theorem formatI_toNat {op : Nat} (h : op < 256) (ra rb : Reg) (imm : BitVec 16) :
    (formatI op ra rb imm).toNat = op * 2 ^ 24 + ra.val * 2 ^ 20 + rb.val * 2 ^ 16 + imm.toNat := by
  have := imm.isLt
  unfold formatI
  rw [BitVec.toNat_ofNat]
  omega

theorem formatK_toNat {op : Nat} (h : op < 256) (ra rb rc : Reg) (imm : BitVec 12) :
    (formatK op ra rb rc imm).toNat =
      op * 2 ^ 24 + ra.val * 2 ^ 20 + rb.val * 2 ^ 16 + rc.val * 2 ^ 12 + imm.toNat := by
  have := imm.isLt
  unfold formatK
  rw [BitVec.toNat_ofNat]
  omega

/-- The row of a command. -/
def Instr.opcode : Instr → Opcode
  | .nop => .nop
  | .modinv _ _ _ => .modinv
  | .modexp _ _ _ _ => .modexp
  | .ptest _ _ => .ptest
  | .genprime _ _ => .genprime
  | .genkeys _ _ _ _ => .genkeys
  | .encrypt _ _ => .encrypt
  | .decrypt _ _ => .decrypt

/-- The opcode value of a row (R147). -/
def Opcode.number : Opcode → Nat
  | .nop => 0
  | .modinv => 1
  | .modexp => 2
  | .ptest => 3
  | .genprime => 4
  | .genkeys => 5
  | .encrypt => 6
  | .decrypt => 7

theorem opcodeOf_number (op : Opcode) : opcodeOf op.number = some op := by cases op <;> rfl

theorem opcodeOf_eq_some {n : Nat} {op : Opcode} (h : opcodeOf n = some op) : n = op.number := by
  unfold opcodeOf at h
  split at h <;> first | (cases h; rfl) | cases h

theorem opcodeOf_eq_none_iff (n : Nat) : opcodeOf n = none ↔ 7 < n := by
  constructor
  · intro h
    by_contra hn
    have : n = 0 ∨ n = 1 ∨ n = 2 ∨ n = 3 ∨ n = 4 ∨ n = 5 ∨ n = 6 ∨ n = 7 := by omega
    rcases this with rfl | rfl | rfl | rfl | rfl | rfl | rfl | rfl <;> simp [opcodeOf] at h
  · intro h
    unfold opcodeOf
    split <;> first | rfl | omega

/-! ### The mask and match test (R147, R148) -/

/-- AND with a block of ones is a bit field in place. -/
theorem and_block (n lo len : Nat) : n &&& ((2 ^ len - 1) * 2 ^ lo) = n / 2 ^ lo % 2 ^ len * 2 ^ lo := by
  apply Nat.eq_of_testBit_eq
  intro i
  simp only [Nat.testBit_and, Nat.testBit_mul_two_pow, Nat.testBit_two_pow_sub_one, Nat.testBit_mod_two_pow,
    Nat.testBit_div_two_pow]
  by_cases h : lo ≤ i
  · simp [h, Bool.and_comm]
  · simp [h]

/-- AND with two disjoint blocks of ones. -/
theorem and_two_blocks (n : Nat) {lo len lo' len' : Nat} (h : lo' + len' ≤ lo) :
    n &&& ((2 ^ len - 1) * 2 ^ lo + (2 ^ len' - 1) * 2 ^ lo') =
      n / 2 ^ lo % 2 ^ len * 2 ^ lo + n / 2 ^ lo' % 2 ^ len' * 2 ^ lo' := by
  have small : ∀ x, x < 2 ^ len' → x * 2 ^ lo' < 2 ^ lo := by
    intro x hx
    calc x * 2 ^ lo' < 2 ^ len' * 2 ^ lo' := Nat.mul_lt_mul_of_pos_right hx (Nat.two_pow_pos _)
      _ = 2 ^ (lo' + len') := by rw [← pow_add, add_comm]
      _ ≤ 2 ^ lo := Nat.pow_le_pow_right (by norm_num) h
  have hones : 2 ^ len' - 1 < 2 ^ len' := Nat.sub_lt (Nat.two_pow_pos _) one_pos
  have e1 : (2 ^ len - 1) * 2 ^ lo + (2 ^ len' - 1) * 2 ^ lo' = (2 ^ len - 1) * 2 ^ lo ||| (2 ^ len' - 1) * 2 ^ lo' := by
    rw [mul_comm (2 ^ len - 1), Nat.two_pow_add_eq_or_of_lt (small _ hones)]
  have e2 : n / 2 ^ lo % 2 ^ len * 2 ^ lo + n / 2 ^ lo' % 2 ^ len' * 2 ^ lo'
      = n / 2 ^ lo % 2 ^ len * 2 ^ lo ||| n / 2 ^ lo' % 2 ^ len' * 2 ^ lo' := by
    rw [mul_comm (n / 2 ^ lo % 2 ^ len),
      Nat.two_pow_add_eq_or_of_lt (small _ (Nat.mod_lt _ (Nat.two_pow_pos _)))]
  rw [e1, e2, Nat.and_or_distrib_left, and_block, and_block]

/-- The fields a row requires to be zero (R147's column "zero fields"). -/
def Opcode.zeroFields (op : Opcode) (w : Word) : Prop :=
  match op with
  | .nop => field w 23 0 = 0
  | .modinv => field w 11 0 = 0
  | .modexp => field w 7 0 = 0
  | .ptest => field w 23 20 = 0
  | .genprime => field w 19 16 = 0
  | .genkeys => True
  | .encrypt => field w 23 20 = 0 ∧ field w 11 0 = 0
  | .decrypt => field w 23 20 = 0 ∧ field w 11 0 = 0

/-- R147: `(w AND mask) = match` says that the opcode is the row's and its zero fields are zero. -/
theorem mask_test_iff (op : Opcode) (w : Word) :
    w &&& op.mask = op.value ↔ field w 31 24 = op.number ∧ op.zeroFields w := by
  have hw := w.isLt
  have hand : (w &&& op.mask = op.value) ↔ w.toNat &&& op.mask.toNat = op.value.toNat := by
    rw [← BitVec.toNat_inj, BitVec.toNat_and]
  rw [hand]
  unfold field
  cases op
  · have h := and_block w.toNat 0 32
    simp only [Opcode.mask, Opcode.value, Opcode.number, Opcode.zeroFields, field]
    norm_num at h ⊢
    rw [h]; omega
  · have h := and_two_blocks w.toNat (lo := 24) (len := 8) (lo' := 0) (len' := 12) (by norm_num)
    simp only [Opcode.mask, Opcode.value, Opcode.number, Opcode.zeroFields, field]
    norm_num at h ⊢
    rw [h]; omega
  · have h := and_two_blocks w.toNat (lo := 24) (len := 8) (lo' := 0) (len' := 8) (by norm_num)
    simp only [Opcode.mask, Opcode.value, Opcode.number, Opcode.zeroFields, field]
    norm_num at h ⊢
    rw [h]; omega
  · have h := and_block w.toNat 20 12
    simp only [Opcode.mask, Opcode.value, Opcode.number, Opcode.zeroFields, field]
    norm_num at h ⊢
    rw [h]; omega
  · have h := and_two_blocks w.toNat (lo := 24) (len := 8) (lo' := 16) (len' := 4) (by norm_num)
    simp only [Opcode.mask, Opcode.value, Opcode.number, Opcode.zeroFields, field]
    norm_num at h ⊢
    rw [h]; omega
  · have h := and_block w.toNat 24 8
    simp only [Opcode.mask, Opcode.value, Opcode.number, Opcode.zeroFields]
    norm_num at h ⊢
    rw [h]; omega
  · have h := and_two_blocks w.toNat (lo := 20) (len := 12) (lo' := 0) (len' := 12) (by norm_num)
    simp only [Opcode.mask, Opcode.value, Opcode.number, Opcode.zeroFields, field]
    norm_num at h ⊢
    rw [h]; omega
  · have h := and_two_blocks w.toNat (lo := 20) (len := 12) (lo' := 0) (len' := 12) (by norm_num)
    simp only [Opcode.mask, Opcode.value, Opcode.number, Opcode.zeroFields, field]
    norm_num at h ⊢
    rw [h]; omega

/-! ### What the decoder can answer -/

/-- The decoder by cases: exactly one of R149, R150, R151 and a command of the row (R148). -/
theorem decode_cases (w : Word) :
    (7 < field w 31 24 ∧ decode w = .error .undefinedOpcode) ∨
      ∃ op, opcodeOf (field w 31 24) = some op ∧
        ((w &&& op.mask ≠ op.value ∧ decode w = .error .nonzeroField) ∨
          (w &&& op.mask = op.value ∧ (operandsOf op w).wellFormed = false ∧ decode w = .error .equalDestinations) ∨
          (w &&& op.mask = op.value ∧ (operandsOf op w).wellFormed = true ∧ decode w = .ok (operandsOf op w))) := by
  unfold decode
  cases h : opcodeOf (field w 31 24) with
  | none => exact Or.inl ⟨(opcodeOf_eq_none_iff _).1 h, rfl⟩
  | some op =>
    refine Or.inr ⟨op, rfl, ?_⟩
    by_cases hm : w &&& op.mask = op.value
    · by_cases hf : (operandsOf op w).wellFormed = true
      · exact Or.inr (Or.inr ⟨hm, hf, by simp [hm, hf]⟩)
      · exact Or.inr (Or.inl ⟨hm, by simpa using hf, by simp [hm, hf]⟩)
    · exact Or.inl ⟨hm, by simp [hm]⟩

end Sys2Proof
end

