-- ==== Sys2Proof/Laws/Entropy.lean ====
section
/-! SUPPORT. What the entropy computations take (spec/40_prime.md R203, spec/60_exceptions.md R409) and what a Miller-Rabin
round decides (R202). -/

namespace Sys2Proof.Machine

/-- A computation answers from a prefix of the delivered pairs: it leaves a suffix (R409). -/
def LeavesSuffix {α : Type} (ps : List EntropyPair) (d : Draw α) : Prop :=
  (∀ v rest, d = .got v rest → rest <:+ ps) ∧ (∀ sub rest, d = .failed sub rest → rest <:+ ps)

theorem LeavesSuffix.got {α : Type} (v : α) (ps : List EntropyPair) : LeavesSuffix ps (.got v ps) :=
  ⟨fun _ _ h => (by cases h; exact List.suffix_rfl), fun _ _ h => (by cases h)⟩

theorem LeavesSuffix.failed {α : Type} (sub : Nat) (ps : List EntropyPair) : LeavesSuffix (α := α) ps (.failed sub ps) :=
  ⟨fun _ _ h => (by cases h), fun _ _ h => by cases h; exact List.suffix_rfl⟩

theorem LeavesSuffix.starved {α : Type} (ps : List EntropyPair) : LeavesSuffix (α := α) ps .starved :=
  ⟨fun _ _ h => (by cases h), fun _ _ h => (by cases h)⟩

theorem LeavesSuffix.trans {α : Type} {ps qs : List EntropyPair} {d : Draw α} (h : LeavesSuffix qs d) (hs : qs <:+ ps) :
    LeavesSuffix ps d :=
  ⟨fun v rest he => (h.1 v rest he).trans hs, fun sub rest he => (h.2 sub rest he).trans hs⟩

theorem LeavesSuffix.bind {α β : Type} {ps : List EntropyPair} {d : Draw α} {f : α → List EntropyPair → Draw β}
    (hd : LeavesSuffix ps d) (hf : ∀ v rest, LeavesSuffix rest (f v rest)) : LeavesSuffix ps (d.bind f) := by
  cases d with
  | got v rest => exact (hf v rest).trans (hd.1 v rest rfl)
  | failed sub rest => exact (LeavesSuffix.failed sub rest).trans (hd.2 sub rest rfl)
  | starved => exact LeavesSuffix.starved ps

theorem takeWord_suffix (ps : List EntropyPair) : LeavesSuffix ps (takeWord ps) := by
  cases ps with
  | nil => exact LeavesSuffix.starved _
  | cons p rest =>
    show LeavesSuffix (p :: rest) (if p.ok then .got p.word rest else .failed 2 rest)
    split
    · exact (LeavesSuffix.got p.word rest).trans (List.suffix_cons p rest)
    · exact (LeavesSuffix.failed 2 rest).trans (List.suffix_cons p rest)

theorem entropyInt_suffix (k : Nat) (ps : List EntropyPair) : LeavesSuffix ps (entropyInt k ps) := by
  induction k generalizing ps with
  | zero => exact LeavesSuffix.got 0 ps
  | succ k ih =>
    exact (takeWord_suffix ps).bind fun w rest => (ih rest).bind fun v rest' => LeavesSuffix.got _ rest'

theorem mrBase_suffix (n : Nat) (ps : List EntropyPair) : LeavesSuffix ps (mrBase n ps) :=
  (entropyInt_suffix _ ps).bind fun _ rest => LeavesSuffix.got _ rest

theorem mrRounds_suffix (n s t k : Nat) (ps : List EntropyPair) : LeavesSuffix ps (mrRounds n s t k ps) := by
  induction k generalizing ps with
  | zero => exact LeavesSuffix.got true ps
  | succ k ih =>
    refine (mrBase_suffix n ps).bind fun a rest => ?_
    split
    · exact ih rest
    · exact LeavesSuffix.got false rest

theorem mrTest_suffix (n k : Nat) (ps : List EntropyPair) : LeavesSuffix ps (mrTest n k ps) := by
  unfold mrTest
  split_ifs
  · exact LeavesSuffix.got _ _
  · exact LeavesSuffix.got _ _
  · exact LeavesSuffix.got _ _
  · exact mrRounds_suffix _ _ _ _ _

theorem genPrimeFrom_suffix (p : Params) (bits fuel attempts : Nat) (ps : List EntropyPair) :
    LeavesSuffix ps (genPrimeFrom p bits fuel attempts ps) := by
  induction fuel generalizing attempts ps with
  | zero => exact LeavesSuffix.starved ps
  | succ fuel ih =>
    unfold genPrimeFrom
    split
    · exact LeavesSuffix.failed 3 ps
    · refine (entropyInt_suffix _ ps).bind fun r rest => (mrTest_suffix _ _ rest).bind fun pass rest' => ?_
      split
      · exact LeavesSuffix.got _ _
      · exact ih _ rest'

theorem genPrime_suffix (p : Params) (bits : Nat) (ps : List EntropyPair) : LeavesSuffix ps (genPrime p bits ps) :=
  genPrimeFrom_suffix p bits _ 0 ps

/-- R203: EntropyInt takes exactly its words where every one of them is ok. -/
theorem entropyInt_ok (ws : List Word) (rest : List EntropyPair) :
    entropyInt ws.length (okPairs ws ++ rest) = .got (wordsValue ws) rest := by
  induction ws with
  | nil => rfl
  | cons w ws ih =>
    have ih' := ih
    unfold okPairs at ih'
    simp [entropyInt, takeWord, Draw.bind, okPairs, ih', wordsValue]

/-! ### The Miller-Rabin round (R202) -/

/-- R202: n - 1 = 2^s * t with t odd. -/
theorem splitTwos_spec (fuel t : Nat) (h0 : 0 < t) (hf : t < 2 ^ fuel) :
    t = 2 ^ (splitTwos fuel t).1 * (splitTwos fuel t).2 ∧ (splitTwos fuel t).2 % 2 = 1 := by
  induction fuel generalizing t with
  | zero => simp at hf; omega
  | succ fuel ih =>
    unfold splitTwos
    by_cases he : t % 2 = 0
    · rw [if_pos he]
      have h := ih (t / 2) (by omega) (by rw [pow_succ] at hf; omega)
      refine ⟨?_, h.2⟩
      rw [pow_succ, mul_right_comm, ← h.1]
      omega
    · rw [if_neg he]
      simp only [pow_zero, one_mul, true_and]
      omega

/-- R202's inner loop finds n - 1 among the next j squares. -/
theorem reachesMinusOne_iff (n j x : Nat) :
    reachesMinusOne n j x = true ↔ ∃ i, 1 ≤ i ∧ i ≤ j ∧ x ^ 2 ^ i % n = n - 1 := by
  induction j generalizing x with
  | zero =>
    simp only [reachesMinusOne, Bool.false_eq_true, false_iff]
    rintro ⟨i, h1, h2, -⟩
    omega
  | succ j ih =>
    have hsq : ∀ i, (x * x % n) ^ 2 ^ i % n = x ^ 2 ^ (i + 1) % n := by
      intro i; rw [← Nat.pow_mod, ← pow_two, ← pow_mul, ← pow_succ']
    unfold reachesMinusOne
    by_cases h : x * x % n = n - 1
    · rw [if_pos h]
      simp only [true_iff]
      exact ⟨1, le_rfl, by omega, by rw [pow_one, pow_two]; exact h⟩
    · rw [if_neg h, ih]
      constructor
      · rintro ⟨i, h1, h2, h3⟩
        exact ⟨i + 1, by omega, by omega, by rw [← hsq]; exact h3⟩
      · rintro ⟨i, h1, h2, h3⟩
        rcases Nat.lt_or_ge 1 i with hi | hi
        · refine ⟨i - 1, by omega, by omega, ?_⟩
          rw [hsq, show i - 1 + 1 = i by omega]; exact h3
        · have : i = 1 := by omega
          subst this
          rw [pow_one, pow_two] at h3
          exact absurd h3 h

/-- A round with base a passes exactly when a^t is 1 or some a^(2^i * t), i < s, is n - 1 modulo n. -/
theorem roundPasses_iff (n s t a : Nat) (hs : 1 ≤ s) :
    roundPasses n s t a = true ↔ a ^ t % n = 1 ∨ ∃ i, i < s ∧ a ^ (2 ^ i * t) % n = n - 1 := by
  have hpow : ∀ i, (a ^ t % n) ^ 2 ^ i % n = a ^ (2 ^ i * t) % n := by
    intro i; rw [← Nat.pow_mod, ← pow_mul, mul_comm]
  simp only [roundPasses, modExp_eq, Bool.or_eq_true, beq_iff_eq, reachesMinusOne_iff]
  constructor
  · rintro ((h | h) | ⟨i, h1, h2, h3⟩)
    · exact Or.inl h
    · exact Or.inr ⟨0, by omega, by simpa using h⟩
    · exact Or.inr ⟨i, by omega, by rw [← hpow]; exact h3⟩
  · rintro (h | ⟨i, hi, h⟩)
    · exact Or.inl (Or.inl h)
    · rcases Nat.eq_zero_or_pos i with h0 | h0
      · subst h0; exact Or.inl (Or.inr (by simpa using h))
      · exact Or.inr ⟨i, h0, by omega, by rw [hpow]; exact h⟩

end Sys2Proof.Machine
end

