-- ==== Sys2Proof/Laws/State.lean ====
section
/-! SUPPORT. One lemma a field for each operation that updates the state (Machine/Ops.lean), all true by rfl, so that no proof
unfolds a record update; and the register laws. -/

namespace Sys2Proof.Machine

/-! ### The completion step (R411) -/

@[simp] theorem complete_params (s : State) (c : ErrCode) (u x : Nat) :
    (s.complete c u x).params = s.params := rfl
@[simp] theorem complete_b (s : State) (c : ErrCode) (u x : Nat) :
    (s.complete c u x).b = s.b := rfl
@[simp] theorem complete_valid (s : State) (c : ErrCode) (u x : Nat) :
    (s.complete c u x).valid = s.valid := rfl
@[simp] theorem complete_mem (s : State) (c : ErrCode) (u x : Nat) :
    (s.complete c u x).mem = s.mem := rfl
@[simp] theorem complete_irqen (s : State) (c : ErrCode) (u x : Nat) :
    (s.complete c u x).irqen = s.irqen := rfl
@[simp] theorem complete_done (s : State) (c : ErrCode) (u x : Nat) :
    (s.complete c u x).done = true := rfl
@[simp] theorem complete_err (s : State) (c : ErrCode) (u x : Nat) :
    (s.complete c u x).err = decide (c ≠ .noError) := rfl
@[simp] theorem complete_prime (s : State) (c : ErrCode) (u x : Nat) :
    (s.complete c u x).prime = s.prime := rfl
@[simp] theorem complete_cmdovr (s : State) (c : ErrCode) (u x : Nat) :
    (s.complete c u x).cmdovr = s.cmdovr := rfl
@[simp] theorem complete_errcode (s : State) (c : ErrCode) (u x : Nat) :
    (s.complete c u x).errcode = c := rfl
@[simp] theorem complete_subcode (s : State) (c : ErrCode) (u x : Nat) :
    (s.complete c u x).subcode = BitVec.ofNat 8 u := rfl
@[simp] theorem complete_index (s : State) (c : ErrCode) (u x : Nat) :
    (s.complete c u x).index = BitVec.ofNat 16 x := rfl
@[simp] theorem complete_lastcmd (s : State) (c : ErrCode) (u x : Nat) :
    (s.complete c u x).lastcmd = s.lastcmd := rfl
@[simp] theorem complete_msglen (s : State) (c : ErrCode) (u x : Nat) :
    (s.complete c u x).msglen = s.msglen := rfl
@[simp] theorem complete_blksize (s : State) (c : ErrCode) (u x : Nat) :
    (s.complete c u x).blksize = s.blksize := rfl
@[simp] theorem complete_ctcount (s : State) (c : ErrCode) (u x : Nat) :
    (s.complete c u x).ctcount = s.ctcount := rfl
@[simp] theorem complete_outlen (s : State) (c : ErrCode) (u x : Nat) :
    (s.complete c u x).outlen = s.outlen := rfl
@[simp] theorem complete_run (s : State) (c : ErrCode) (u x : Nat) :
    (s.complete c u x).run = .idle := rfl
@[simp] theorem complete_abortPending (s : State) (c : ErrCode) (u x : Nat) :
    (s.complete c u x).abortPending = false := rfl
@[simp] theorem complete_unit (s : State) (c : ErrCode) (u x : Nat) :
    (s.complete c u x).unit = none := rfl
@[simp] theorem complete_entropy (s : State) (c : ErrCode) (u x : Nat) :
    (s.complete c u x).entropy = s.entropy := rfl
@[simp] theorem complete_script (s : State) (c : ErrCode) (u x : Nat) :
    (s.complete c u x).script = s.script := rfl
@[simp] theorem complete_bus (s : State) (c : ErrCode) (u x : Nat) :
    (s.complete c u x).bus = s.bus := rfl
@[simp] theorem complete_draws (s : State) (c : ErrCode) (u x : Nat) :
    (s.complete c u x).draws = s.draws := rfl

/-! ### Writing a register (R17) -/

@[simp] theorem writeReg_params (s : State) (k : Reg) (v : Nat) :
    (s.writeReg k v).params = s.params := rfl
@[simp] theorem writeReg_b (s : State) (k : Reg) (v : Nat) :
    (s.writeReg k v).b = s.b.set k v := rfl
@[simp] theorem writeReg_valid (s : State) (k : Reg) (v : Nat) :
    (s.writeReg k v).valid = s.valid.set k true := rfl
@[simp] theorem writeReg_mem (s : State) (k : Reg) (v : Nat) :
    (s.writeReg k v).mem = s.mem := rfl
@[simp] theorem writeReg_irqen (s : State) (k : Reg) (v : Nat) :
    (s.writeReg k v).irqen = s.irqen := rfl
@[simp] theorem writeReg_done (s : State) (k : Reg) (v : Nat) :
    (s.writeReg k v).done = s.done := rfl
@[simp] theorem writeReg_err (s : State) (k : Reg) (v : Nat) :
    (s.writeReg k v).err = s.err := rfl
@[simp] theorem writeReg_prime (s : State) (k : Reg) (v : Nat) :
    (s.writeReg k v).prime = s.prime := rfl
@[simp] theorem writeReg_cmdovr (s : State) (k : Reg) (v : Nat) :
    (s.writeReg k v).cmdovr = s.cmdovr := rfl
@[simp] theorem writeReg_errcode (s : State) (k : Reg) (v : Nat) :
    (s.writeReg k v).errcode = s.errcode := rfl
@[simp] theorem writeReg_subcode (s : State) (k : Reg) (v : Nat) :
    (s.writeReg k v).subcode = s.subcode := rfl
@[simp] theorem writeReg_index (s : State) (k : Reg) (v : Nat) :
    (s.writeReg k v).index = s.index := rfl
@[simp] theorem writeReg_lastcmd (s : State) (k : Reg) (v : Nat) :
    (s.writeReg k v).lastcmd = s.lastcmd := rfl
@[simp] theorem writeReg_msglen (s : State) (k : Reg) (v : Nat) :
    (s.writeReg k v).msglen = s.msglen := rfl
@[simp] theorem writeReg_blksize (s : State) (k : Reg) (v : Nat) :
    (s.writeReg k v).blksize = s.blksize := rfl
@[simp] theorem writeReg_ctcount (s : State) (k : Reg) (v : Nat) :
    (s.writeReg k v).ctcount = s.ctcount := rfl
@[simp] theorem writeReg_outlen (s : State) (k : Reg) (v : Nat) :
    (s.writeReg k v).outlen = s.outlen := rfl
@[simp] theorem writeReg_run (s : State) (k : Reg) (v : Nat) :
    (s.writeReg k v).run = s.run := rfl
@[simp] theorem writeReg_abortPending (s : State) (k : Reg) (v : Nat) :
    (s.writeReg k v).abortPending = s.abortPending := rfl
@[simp] theorem writeReg_unit (s : State) (k : Reg) (v : Nat) :
    (s.writeReg k v).unit = s.unit := rfl
@[simp] theorem writeReg_entropy (s : State) (k : Reg) (v : Nat) :
    (s.writeReg k v).entropy = s.entropy := rfl
@[simp] theorem writeReg_script (s : State) (k : Reg) (v : Nat) :
    (s.writeReg k v).script = s.script := rfl
@[simp] theorem writeReg_bus (s : State) (k : Reg) (v : Nat) :
    (s.writeReg k v).bus = s.bus := rfl
@[simp] theorem writeReg_draws (s : State) (k : Reg) (v : Nat) :
    (s.writeReg k v).draws = s.draws := rfl

/-! ### Writing CT and OUT (R123) -/

@[simp] theorem writeCt_params (s : State) (i v : Nat) :
    (s.writeCt i v).params = s.params := rfl
@[simp] theorem writeCt_b (s : State) (i v : Nat) :
    (s.writeCt i v).b = s.b := rfl
@[simp] theorem writeCt_valid (s : State) (i v : Nat) :
    (s.writeCt i v).valid = s.valid := rfl
@[simp] theorem writeCt_mem (s : State) (i v : Nat) :
    (s.writeCt i v).mem = s.mem.writeBytes (ctAddr i) (leBytes (s.params.maxBits / 8) v) := rfl
@[simp] theorem writeCt_irqen (s : State) (i v : Nat) :
    (s.writeCt i v).irqen = s.irqen := rfl
@[simp] theorem writeCt_done (s : State) (i v : Nat) :
    (s.writeCt i v).done = s.done := rfl
@[simp] theorem writeCt_err (s : State) (i v : Nat) :
    (s.writeCt i v).err = s.err := rfl
@[simp] theorem writeCt_prime (s : State) (i v : Nat) :
    (s.writeCt i v).prime = s.prime := rfl
@[simp] theorem writeCt_cmdovr (s : State) (i v : Nat) :
    (s.writeCt i v).cmdovr = s.cmdovr := rfl
@[simp] theorem writeCt_errcode (s : State) (i v : Nat) :
    (s.writeCt i v).errcode = s.errcode := rfl
@[simp] theorem writeCt_subcode (s : State) (i v : Nat) :
    (s.writeCt i v).subcode = s.subcode := rfl
@[simp] theorem writeCt_index (s : State) (i v : Nat) :
    (s.writeCt i v).index = s.index := rfl
@[simp] theorem writeCt_lastcmd (s : State) (i v : Nat) :
    (s.writeCt i v).lastcmd = s.lastcmd := rfl
@[simp] theorem writeCt_msglen (s : State) (i v : Nat) :
    (s.writeCt i v).msglen = s.msglen := rfl
@[simp] theorem writeCt_blksize (s : State) (i v : Nat) :
    (s.writeCt i v).blksize = s.blksize := rfl
@[simp] theorem writeCt_ctcount (s : State) (i v : Nat) :
    (s.writeCt i v).ctcount = s.ctcount := rfl
@[simp] theorem writeCt_outlen (s : State) (i v : Nat) :
    (s.writeCt i v).outlen = s.outlen := rfl
@[simp] theorem writeCt_run (s : State) (i v : Nat) :
    (s.writeCt i v).run = s.run := rfl
@[simp] theorem writeCt_abortPending (s : State) (i v : Nat) :
    (s.writeCt i v).abortPending = s.abortPending := rfl
@[simp] theorem writeCt_unit (s : State) (i v : Nat) :
    (s.writeCt i v).unit = s.unit := rfl
@[simp] theorem writeCt_entropy (s : State) (i v : Nat) :
    (s.writeCt i v).entropy = s.entropy := rfl
@[simp] theorem writeCt_script (s : State) (i v : Nat) :
    (s.writeCt i v).script = s.script := rfl
@[simp] theorem writeCt_bus (s : State) (i v : Nat) :
    (s.writeCt i v).bus = s.bus := rfl
@[simp] theorem writeCt_draws (s : State) (i v : Nat) :
    (s.writeCt i v).draws = s.draws := rfl

@[simp] theorem outWrite_params (s : State) (t : List Byte) :
    (s.outWrite t).params = s.params := rfl
@[simp] theorem outWrite_b (s : State) (t : List Byte) :
    (s.outWrite t).b = s.b := rfl
@[simp] theorem outWrite_valid (s : State) (t : List Byte) :
    (s.outWrite t).valid = s.valid := rfl
@[simp] theorem outWrite_mem (s : State) (t : List Byte) :
    (s.outWrite t).mem = s.mem.writeBytes outBase t := rfl
@[simp] theorem outWrite_irqen (s : State) (t : List Byte) :
    (s.outWrite t).irqen = s.irqen := rfl
@[simp] theorem outWrite_done (s : State) (t : List Byte) :
    (s.outWrite t).done = s.done := rfl
@[simp] theorem outWrite_err (s : State) (t : List Byte) :
    (s.outWrite t).err = s.err := rfl
@[simp] theorem outWrite_prime (s : State) (t : List Byte) :
    (s.outWrite t).prime = s.prime := rfl
@[simp] theorem outWrite_cmdovr (s : State) (t : List Byte) :
    (s.outWrite t).cmdovr = s.cmdovr := rfl
@[simp] theorem outWrite_errcode (s : State) (t : List Byte) :
    (s.outWrite t).errcode = s.errcode := rfl
@[simp] theorem outWrite_subcode (s : State) (t : List Byte) :
    (s.outWrite t).subcode = s.subcode := rfl
@[simp] theorem outWrite_index (s : State) (t : List Byte) :
    (s.outWrite t).index = s.index := rfl
@[simp] theorem outWrite_lastcmd (s : State) (t : List Byte) :
    (s.outWrite t).lastcmd = s.lastcmd := rfl
@[simp] theorem outWrite_msglen (s : State) (t : List Byte) :
    (s.outWrite t).msglen = s.msglen := rfl
@[simp] theorem outWrite_blksize (s : State) (t : List Byte) :
    (s.outWrite t).blksize = s.blksize := rfl
@[simp] theorem outWrite_ctcount (s : State) (t : List Byte) :
    (s.outWrite t).ctcount = s.ctcount := rfl
@[simp] theorem outWrite_outlen (s : State) (t : List Byte) :
    (s.outWrite t).outlen = s.outlen := rfl
@[simp] theorem outWrite_run (s : State) (t : List Byte) :
    (s.outWrite t).run = s.run := rfl
@[simp] theorem outWrite_abortPending (s : State) (t : List Byte) :
    (s.outWrite t).abortPending = s.abortPending := rfl
@[simp] theorem outWrite_unit (s : State) (t : List Byte) :
    (s.outWrite t).unit = s.unit := rfl
@[simp] theorem outWrite_entropy (s : State) (t : List Byte) :
    (s.outWrite t).entropy = s.entropy := rfl
@[simp] theorem outWrite_script (s : State) (t : List Byte) :
    (s.outWrite t).script = s.script := rfl
@[simp] theorem outWrite_bus (s : State) (t : List Byte) :
    (s.outWrite t).bus = s.bus := rfl
@[simp] theorem outWrite_draws (s : State) (t : List Byte) :
    (s.outWrite t).draws = s.draws := rfl

/-! ### Fresh draws (R410, R332) -/

@[simp] theorem redrawCt_params (s : State) (n : Nat) :
    (s.redrawCt n).params = s.params := rfl
@[simp] theorem redrawCt_b (s : State) (n : Nat) :
    (s.redrawCt n).b = s.b := rfl
@[simp] theorem redrawCt_valid (s : State) (n : Nat) :
    (s.redrawCt n).valid = s.valid := rfl
@[simp] theorem redrawCt_mem (s : State) (n : Nat) :
    (s.redrawCt n).mem = s.mem.redrawCt n (s.draws + 1) := rfl
@[simp] theorem redrawCt_irqen (s : State) (n : Nat) :
    (s.redrawCt n).irqen = s.irqen := rfl
@[simp] theorem redrawCt_done (s : State) (n : Nat) :
    (s.redrawCt n).done = s.done := rfl
@[simp] theorem redrawCt_err (s : State) (n : Nat) :
    (s.redrawCt n).err = s.err := rfl
@[simp] theorem redrawCt_prime (s : State) (n : Nat) :
    (s.redrawCt n).prime = s.prime := rfl
@[simp] theorem redrawCt_cmdovr (s : State) (n : Nat) :
    (s.redrawCt n).cmdovr = s.cmdovr := rfl
@[simp] theorem redrawCt_errcode (s : State) (n : Nat) :
    (s.redrawCt n).errcode = s.errcode := rfl
@[simp] theorem redrawCt_subcode (s : State) (n : Nat) :
    (s.redrawCt n).subcode = s.subcode := rfl
@[simp] theorem redrawCt_index (s : State) (n : Nat) :
    (s.redrawCt n).index = s.index := rfl
@[simp] theorem redrawCt_lastcmd (s : State) (n : Nat) :
    (s.redrawCt n).lastcmd = s.lastcmd := rfl
@[simp] theorem redrawCt_msglen (s : State) (n : Nat) :
    (s.redrawCt n).msglen = s.msglen := rfl
@[simp] theorem redrawCt_blksize (s : State) (n : Nat) :
    (s.redrawCt n).blksize = s.blksize := rfl
@[simp] theorem redrawCt_ctcount (s : State) (n : Nat) :
    (s.redrawCt n).ctcount = s.ctcount := rfl
@[simp] theorem redrawCt_outlen (s : State) (n : Nat) :
    (s.redrawCt n).outlen = s.outlen := rfl
@[simp] theorem redrawCt_run (s : State) (n : Nat) :
    (s.redrawCt n).run = s.run := rfl
@[simp] theorem redrawCt_abortPending (s : State) (n : Nat) :
    (s.redrawCt n).abortPending = s.abortPending := rfl
@[simp] theorem redrawCt_unit (s : State) (n : Nat) :
    (s.redrawCt n).unit = s.unit := rfl
@[simp] theorem redrawCt_entropy (s : State) (n : Nat) :
    (s.redrawCt n).entropy = s.entropy := rfl
@[simp] theorem redrawCt_script (s : State) (n : Nat) :
    (s.redrawCt n).script = s.script := rfl
@[simp] theorem redrawCt_bus (s : State) (n : Nat) :
    (s.redrawCt n).bus = s.bus := rfl
@[simp] theorem redrawCt_draws (s : State) (n : Nat) :
    (s.redrawCt n).draws = s.draws + 1 := rfl

@[simp] theorem redrawOut_params (s : State) : s.redrawOut.params = s.params := rfl
@[simp] theorem redrawOut_b (s : State) : s.redrawOut.b = s.b := rfl
@[simp] theorem redrawOut_valid (s : State) : s.redrawOut.valid = s.valid := rfl
@[simp] theorem redrawOut_mem (s : State) : s.redrawOut.mem = s.mem.redrawOut (s.draws + 1) := rfl
@[simp] theorem redrawOut_irqen (s : State) : s.redrawOut.irqen = s.irqen := rfl
@[simp] theorem redrawOut_done (s : State) : s.redrawOut.done = s.done := rfl
@[simp] theorem redrawOut_err (s : State) : s.redrawOut.err = s.err := rfl
@[simp] theorem redrawOut_prime (s : State) : s.redrawOut.prime = s.prime := rfl
@[simp] theorem redrawOut_cmdovr (s : State) : s.redrawOut.cmdovr = s.cmdovr := rfl
@[simp] theorem redrawOut_errcode (s : State) : s.redrawOut.errcode = s.errcode := rfl
@[simp] theorem redrawOut_subcode (s : State) : s.redrawOut.subcode = s.subcode := rfl
@[simp] theorem redrawOut_index (s : State) : s.redrawOut.index = s.index := rfl
@[simp] theorem redrawOut_lastcmd (s : State) : s.redrawOut.lastcmd = s.lastcmd := rfl
@[simp] theorem redrawOut_msglen (s : State) : s.redrawOut.msglen = s.msglen := rfl
@[simp] theorem redrawOut_blksize (s : State) : s.redrawOut.blksize = s.blksize := rfl
@[simp] theorem redrawOut_ctcount (s : State) : s.redrawOut.ctcount = s.ctcount := rfl
@[simp] theorem redrawOut_outlen (s : State) : s.redrawOut.outlen = s.outlen := rfl
@[simp] theorem redrawOut_run (s : State) : s.redrawOut.run = s.run := rfl
@[simp] theorem redrawOut_abortPending (s : State) : s.redrawOut.abortPending = s.abortPending := rfl
@[simp] theorem redrawOut_unit (s : State) : s.redrawOut.unit = s.unit := rfl
@[simp] theorem redrawOut_entropy (s : State) : s.redrawOut.entropy = s.entropy := rfl
@[simp] theorem redrawOut_script (s : State) : s.redrawOut.script = s.script := rfl
@[simp] theorem redrawOut_bus (s : State) : s.redrawOut.bus = s.bus := rfl
@[simp] theorem redrawOut_draws (s : State) : s.redrawOut.draws = s.draws + 1 := rfl

/-! ### The acknowledgement (R54, R413) -/

@[simp] theorem acknowledge_params (s : State) (v : Word) :
    (s.acknowledge v).params = s.params := rfl
@[simp] theorem acknowledge_b (s : State) (v : Word) :
    (s.acknowledge v).b = s.b := rfl
@[simp] theorem acknowledge_valid (s : State) (v : Word) :
    (s.acknowledge v).valid = s.valid := rfl
@[simp] theorem acknowledge_mem (s : State) (v : Word) :
    (s.acknowledge v).mem = s.mem := rfl
@[simp] theorem acknowledge_irqen (s : State) (v : Word) :
    (s.acknowledge v).irqen = s.irqen := rfl
@[simp] theorem acknowledge_done (s : State) (v : Word) :
    (s.acknowledge v).done = (s.done && !v.getLsbD 1) := rfl
@[simp] theorem acknowledge_err (s : State) (v : Word) :
    (s.acknowledge v).err = (s.err && !v.getLsbD 2) := rfl
@[simp] theorem acknowledge_prime (s : State) (v : Word) :
    (s.acknowledge v).prime = s.prime := rfl
@[simp] theorem acknowledge_cmdovr (s : State) (v : Word) :
    (s.acknowledge v).cmdovr = (s.cmdovr && !v.getLsbD 4) := rfl
@[simp] theorem acknowledge_errcode (s : State) (v : Word) :
    (s.acknowledge v).errcode = s.errcode := rfl
@[simp] theorem acknowledge_subcode (s : State) (v : Word) :
    (s.acknowledge v).subcode = s.subcode := rfl
@[simp] theorem acknowledge_index (s : State) (v : Word) :
    (s.acknowledge v).index = s.index := rfl
@[simp] theorem acknowledge_lastcmd (s : State) (v : Word) :
    (s.acknowledge v).lastcmd = s.lastcmd := rfl
@[simp] theorem acknowledge_msglen (s : State) (v : Word) :
    (s.acknowledge v).msglen = s.msglen := rfl
@[simp] theorem acknowledge_blksize (s : State) (v : Word) :
    (s.acknowledge v).blksize = s.blksize := rfl
@[simp] theorem acknowledge_ctcount (s : State) (v : Word) :
    (s.acknowledge v).ctcount = s.ctcount := rfl
@[simp] theorem acknowledge_outlen (s : State) (v : Word) :
    (s.acknowledge v).outlen = s.outlen := rfl
@[simp] theorem acknowledge_run (s : State) (v : Word) :
    (s.acknowledge v).run = s.run := rfl
@[simp] theorem acknowledge_abortPending (s : State) (v : Word) :
    (s.acknowledge v).abortPending = s.abortPending := rfl
@[simp] theorem acknowledge_unit (s : State) (v : Word) :
    (s.acknowledge v).unit = s.unit := rfl
@[simp] theorem acknowledge_entropy (s : State) (v : Word) :
    (s.acknowledge v).entropy = s.entropy := rfl
@[simp] theorem acknowledge_script (s : State) (v : Word) :
    (s.acknowledge v).script = s.script := rfl
@[simp] theorem acknowledge_bus (s : State) (v : Word) :
    (s.acknowledge v).bus = s.bus := rfl
@[simp] theorem acknowledge_draws (s : State) (v : Word) :
    (s.acknowledge v).draws = s.draws := rfl

/-! ### Taking an unspecified number of entropy pairs (R409) -/

@[simp] theorem takeSome_params (s : State) (n : Nat) : (s.takeSome n).params = s.params := by
  unfold State.takeSome; split <;> rfl
@[simp] theorem takeSome_b (s : State) (n : Nat) : (s.takeSome n).b = s.b := by
  unfold State.takeSome; split <;> rfl
@[simp] theorem takeSome_valid (s : State) (n : Nat) : (s.takeSome n).valid = s.valid := by
  unfold State.takeSome; split <;> rfl
@[simp] theorem takeSome_mem (s : State) (n : Nat) : (s.takeSome n).mem = s.mem := by
  unfold State.takeSome; split <;> rfl
@[simp] theorem takeSome_irqen (s : State) (n : Nat) : (s.takeSome n).irqen = s.irqen := by
  unfold State.takeSome; split <;> rfl
@[simp] theorem takeSome_done (s : State) (n : Nat) : (s.takeSome n).done = s.done := by
  unfold State.takeSome; split <;> rfl
@[simp] theorem takeSome_err (s : State) (n : Nat) : (s.takeSome n).err = s.err := by
  unfold State.takeSome; split <;> rfl
@[simp] theorem takeSome_prime (s : State) (n : Nat) : (s.takeSome n).prime = s.prime := by
  unfold State.takeSome; split <;> rfl
@[simp] theorem takeSome_cmdovr (s : State) (n : Nat) : (s.takeSome n).cmdovr = s.cmdovr := by
  unfold State.takeSome; split <;> rfl
@[simp] theorem takeSome_errcode (s : State) (n : Nat) : (s.takeSome n).errcode = s.errcode := by
  unfold State.takeSome; split <;> rfl
@[simp] theorem takeSome_subcode (s : State) (n : Nat) : (s.takeSome n).subcode = s.subcode := by
  unfold State.takeSome; split <;> rfl
@[simp] theorem takeSome_index (s : State) (n : Nat) : (s.takeSome n).index = s.index := by
  unfold State.takeSome; split <;> rfl
@[simp] theorem takeSome_lastcmd (s : State) (n : Nat) : (s.takeSome n).lastcmd = s.lastcmd := by
  unfold State.takeSome; split <;> rfl
@[simp] theorem takeSome_msglen (s : State) (n : Nat) : (s.takeSome n).msglen = s.msglen := by
  unfold State.takeSome; split <;> rfl
@[simp] theorem takeSome_blksize (s : State) (n : Nat) : (s.takeSome n).blksize = s.blksize := by
  unfold State.takeSome; split <;> rfl
@[simp] theorem takeSome_ctcount (s : State) (n : Nat) : (s.takeSome n).ctcount = s.ctcount := by
  unfold State.takeSome; split <;> rfl
@[simp] theorem takeSome_outlen (s : State) (n : Nat) : (s.takeSome n).outlen = s.outlen := by
  unfold State.takeSome; split <;> rfl
@[simp] theorem takeSome_run (s : State) (n : Nat) : (s.takeSome n).run = s.run := by
  unfold State.takeSome; split <;> rfl
@[simp] theorem takeSome_abortPending (s : State) (n : Nat) : (s.takeSome n).abortPending = s.abortPending := by
  unfold State.takeSome; split <;> rfl
@[simp] theorem takeSome_unit (s : State) (n : Nat) : (s.takeSome n).unit = s.unit := by
  unfold State.takeSome; split <;> rfl
@[simp] theorem takeSome_script (s : State) (n : Nat) : (s.takeSome n).script = s.script := by
  unfold State.takeSome; split <;> rfl
@[simp] theorem takeSome_bus (s : State) (n : Nat) : (s.takeSome n).bus = s.bus := by
  unfold State.takeSome; split <;> rfl

/-- R409: what is left is the stream without a prefix of at most `n` pairs. -/
theorem takeSome_entropy (s : State) (n : Nat) :
    ∃ k, k ≤ n ∧ (s.takeSome n).entropy = s.entropy.drop k := by
  unfold State.takeSome
  split
  · exact ⟨0, by omega, by simp⟩
  · exact ⟨_, Nat.le_of_lt_succ (Nat.mod_lt _ (Nat.succ_pos n)), rfl⟩

@[simp] theorem takeSome_zero (s : State) : s.takeSome 0 = s := by simp [State.takeSome]

/-! ### Registers (R31, R32) -/

@[simp] theorem reg_writeReg (s : State) (k j : Reg) (v : Nat) :
    (s.writeReg k v).reg j = if j = k then v else s.reg j := by
  simp only [State.reg, writeReg_b, Fin.getElem_fin, Vector.getElem_set, Fin.ext_iff, eq_comm]

@[simp] theorem isValid_writeReg (s : State) (k j : Reg) (v : Nat) :
    (s.writeReg k v).isValid j = if j = k then true else s.isValid j := by
  simp only [State.isValid, writeReg_valid, Fin.getElem_fin, Vector.getElem_set, Fin.ext_iff, eq_comm]

theorem reg_congr {s t : State} (h : t.b = s.b) (k : Reg) : t.reg k = s.reg k := by simp [State.reg, h]

theorem isValid_congr {s t : State} (h : t.valid = s.valid) (k : Reg) : t.isValid k = s.isValid k := by
  simp [State.isValid, h]

@[simp] theorem reg_complete (s : State) (c : ErrCode) (u x : Nat) (k : Reg) : (s.complete c u x).reg k = s.reg k := rfl
@[simp] theorem isValid_complete (s : State) (c : ErrCode) (u x : Nat) (k : Reg) :
    (s.complete c u x).isValid k = s.isValid k := rfl
@[simp] theorem reg_takeSome (s : State) (n : Nat) (k : Reg) : (s.takeSome n).reg k = s.reg k := reg_congr (by simp) k
@[simp] theorem isValid_takeSome (s : State) (n : Nat) (k : Reg) : (s.takeSome n).isValid k = s.isValid k :=
  isValid_congr (by simp) k
@[simp] theorem busy_complete (s : State) (c : ErrCode) (u x : Nat) : (s.complete c u x).busy = false := rfl

/-- BZERO (R62) on each register. -/
theorem reg_bzero (s : State) (v : Word) (k : Reg) : (s.bzero v).reg k = if v.getLsbD k.val then 0 else s.reg k := by
  simp [State.bzero, State.reg]

theorem isValid_bzero (s : State) (v : Word) (k : Reg) : (s.bzero v).isValid k = (v.getLsbD k.val || s.isValid k) := by
  simp [State.bzero, State.isValid]

/-! ### The raise and complete() primitives (R17) are the completion step -/

theorem raise_eq (s : State) (f : Failure) : s.raise f = s.complete f.code f.sub f.index := rfl
theorem succeed_eq (s : State) : s.succeed = s.complete .noError 0 0 := rfl

end Sys2Proof.Machine
end

