-- ==== Sys2Proof/Laws/Reset.lean ====
section
/-! SUPPORT. What an abandoned command can do, said once (spec/60_exceptions.md R409, spec/70_reset_and_hazards.md R453): it
takes some number of pairs up to its bound and changes memory and the draw counter, and nothing else. -/

namespace Sys2Proof.Machine

/-- R409: some number k of pairs, at most the bound, leaves the stream. -/
theorem takeSome_entropy_cases (s : State) (bound : Nat) :
    ∃ k, k ≤ bound ∧ (s.takeSome bound).entropy = s.entropy.drop k := by
  unfold State.takeSome
  split
  · exact ⟨0, Nat.zero_le _, rfl⟩
  · exact ⟨_, Nat.lt_succ_iff.1 (Nat.mod_lt _ (Nat.succ_pos _)), rfl⟩

theorem takeSome_entropy_suffix (s : State) (bound : Nat) : (s.takeSome bound).entropy <:+ s.entropy := by
  obtain ⟨k, -, h⟩ := takeSome_entropy_cases s bound
  rw [h]; exact List.drop_suffix k _

/-- What a computation left is left by every take of at most as many pairs as it took. -/
theorem suffix_takeSome {s : State} {rest : List EntropyPair} {bound : Nat} (h : rest <:+ s.entropy)
    (hb : bound ≤ s.entropy.length - rest.length) : rest <:+ (s.takeSome bound).entropy := by
  obtain ⟨k, hk, he⟩ := takeSome_entropy_cases s bound
  rw [he]
  have hl := h.length_le
  exact List.suffix_of_suffix_length_le h (List.drop_suffix k _) (by rw [List.length_drop]; omega)

/-- R453: an abandoned command changes memory, the entropy stream and the draw counter only. -/
theorem abandonInstr_eq (i : Instr) (s : State) :
    abandonInstr i s = { s with
      mem := (abandonInstr i s).mem, entropy := (abandonInstr i s).entropy, draws := (abandonInstr i s).draws } := by
  have h : ∀ n, s.takeSome n = { s with
      mem := (s.takeSome n).mem, entropy := (s.takeSome n).entropy, draws := (s.takeSome n).draws } := by
    intro n; unfold State.takeSome; split <;> rfl
  cases i <;> first | rfl | exact h _

/-- R453 for the running word, if there is one. -/
theorem abandon_cases (s : State) :
    s.abandon = s ∨ ∃ w i, s.run = .running w ∧ decode w = .ok i ∧ s.abandon = abandonInstr i s := by
  unfold State.abandon
  split
  · exact Or.inl rfl
  · rename_i w hw
    split
    · exact Or.inl rfl
    · exact Or.inr ⟨w, _, hw, by assumption, rfl⟩

/-- R203: a pair with ok = 0 among the words that EntropyInt takes ends the draw there. -/
theorem entropyInt_bad_pair (ws : List Word) (x : Word) (rest : List EntropyPair) {k : Nat} (h : ws.length < k) :
    entropyInt k (okPairs ws ++ ⟨false, x⟩ :: rest) = .failed 2 rest := by
  induction ws generalizing k with
  | nil =>
    obtain ⟨k, rfl⟩ := Nat.exists_eq_succ_of_ne_zero (by omega : k ≠ 0)
    rfl
  | cons w ws ih =>
    obtain ⟨k, rfl⟩ := Nat.exists_eq_succ_of_ne_zero (by omega : k ≠ 0)
    have h' := ih (k := k) (by simpa using h)
    unfold okPairs at h'
    simp [entropyInt, takeWord, Draw.bind, okPairs, h']

end Sys2Proof.Machine
end

