-- ==== Sys2Proof/Laws/Generator.lean ====
section
/-! SUPPORT. The generator's loop over attempts (spec/40_prime.md R221), said once: what rejected attempts and a failing pair make
of it. -/

namespace Sys2Proof

open Sys2Proof.Machine

/-- A rejected attempt takes at least one pair, and the loop goes on with the pairs left. -/
theorem rejects_step {p : Params} {bits : Nat} {ps rest : List EntropyPair} (hb : 2 ≤ bits) (h : Rejects p bits ps rest) :
    rest.length < ps.length ∧ ∀ fuel att, WithinLimit p att →
      genPrimeFrom p bits (fuel + 1) att ps = genPrimeFrom p bits fuel (att + 1) rest := by
  obtain ⟨ws, qs, hl, rfl, hm⟩ := h
  have hs := (mrTest_suffix _ _ qs).1 _ _ hm
  have hc : 1 ≤ ceilDiv bits 32 := by unfold ceilDiv; omega
  have := hs.length_le
  refine ⟨by simp [okPairs]; omega, fun fuel att hw => ?_⟩
  have he := entropyInt_ok ws qs
  rw [hl] at he
  rw [genPrimeFrom, if_neg (by unfold WithinLimit at hw; omega), he]
  simp [Draw.bind, hm]

/-- The loop after k rejected attempts within the limit. -/
theorem rejects_times {p : Params} {bits : Nat} (hb : 2 ≤ bits) (k : Nat) : ∀ {ps rest : List EntropyPair} (fuel att : Nat),
    RejectsTimes p bits k ps rest → p.maxAttempts = 0 ∨ att + k ≤ p.maxAttempts →
    rest.length + k ≤ ps.length ∧ genPrimeFrom p bits (fuel + k) att ps = genPrimeFrom p bits fuel (att + k) rest := by
  induction k with
  | zero => intro ps rest fuel att h _; cases h; simp
  | succ k ih =>
    rintro ps rest fuel att ⟨mid, h1, h2⟩ hw
    obtain ⟨hl, hs⟩ := rejects_step hb h1
    obtain ⟨hl2, hs2⟩ := ih fuel (att + 1) h2 (by omega)
    refine ⟨by omega, ?_⟩
    rw [← Nat.add_assoc, hs _ _ (by unfold WithinLimit; omega), hs2]
    congr 1; omega

/-- R221, R203: the two ways GenPrime fails. -/
theorem genPrime_fails {p : Params} {bits sub : Nat} {ps rest : List EntropyPair} (hb : 2 ≤ bits)
    (h : GenerationFails p bits ps sub rest) : genPrime p bits ps = .failed sub rest := by
  rcases h with ⟨rfl, hp, h⟩ | ⟨rfl, k, mid, hw, h, hbad⟩
  · have hl := (rejects_times hb _ 0 0 h (by omega)).1
    have h2 := (rejects_times hb _ (ps.length - p.maxAttempts + 1) 0 h (by omega)).2
    rw [genPrime, show ps.length + 1 = ps.length - p.maxAttempts + 1 + p.maxAttempts by omega, h2, genPrimeFrom,
      if_pos (by omega)]
  · have hk : p.maxAttempts = 0 ∨ 0 + k ≤ p.maxAttempts := by unfold WithinLimit at hw; omega
    have hl := (rejects_times hb k 0 0 h hk).1
    have h2 := (rejects_times hb k (ps.length - k + 1) 0 h hk).2
    rw [genPrime, show ps.length + 1 = ps.length - k + 1 + k by omega, h2, genPrimeFrom,
      if_neg (by unfold WithinLimit at hw; omega)]
    rcases hbad with ⟨ws, x, hws, rfl⟩ | ⟨ws, qs, hws, rfl, hm⟩
    · rw [entropyInt_bad_pair ws x rest hws]; rfl
    · have he := entropyInt_ok ws qs
      rw [hws] at he
      rw [he]; simp [Draw.bind, hm]

end Sys2Proof
end

