-- ==== Sys2Proof/Laws/Memory.lean ====
section
/-! SUPPORT. The laws of memory (Machine/Ops.lean): what a byte reads as after each operation, and that every operation keeps
the canonical form. Provers cite these and do not unfold the operations. -/

namespace Sys2Proof.Machine

/-! ### Cells -/

theorem lookup_filter_key (p : Nat → Bool) (cells : List Host.Cell) (a : Nat) :
    (cells.filter fun c => p c.1).lookup a = if p a then cells.lookup a else none := by
  induction cells with
  | nil => simp
  | cons c cs ih =>
    obtain ⟨k, v⟩ := c
    by_cases hp : p k
    · rw [List.filter_cons_of_pos (by simpa using hp), List.lookup_cons, List.lookup_cons, ih]
      by_cases hk : a = k
      · subst hk; simp [hp]
      · have : (a == k) = false := by simpa using hk
        simp [this]
    · rw [List.filter_cons_of_neg (by simpa using hp), ih, List.lookup_cons]
      by_cases hk : a = k
      · subst hk; simp [hp]
      · have : (a == k) = false := by simpa using hk
        simp [this]

theorem lookup_cellsFrom (bs : List Byte) (a x : Nat) :
    (cellsFrom a bs).lookup x = if x < a then none else bs[x - a]? := by
  induction bs generalizing a with
  | nil => simp [cellsFrom]
  | cons b bs ih =>
    rw [cellsFrom, List.lookup_cons, ih]
    by_cases hx : x = a
    · subst hx; simp
    · have hne : (x == a) = false := by simpa using hx
      simp only [hne]
      by_cases hlt : x < a
      · rw [if_pos (by omega), if_pos hlt]
      · rw [if_neg (by omega), if_neg hlt]
        have : x - a = (x - (a + 1)) + 1 := by omega
        rw [this, List.getElem?_cons_succ]

theorem mem_cellsFrom {bs : List Byte} {a : Nat} {c : Host.Cell} (h : c ∈ cellsFrom a bs) :
    a ≤ c.1 ∧ c.1 < a + bs.length := by
  induction bs generalizing a with
  | nil => simp [cellsFrom] at h
  | cons b bs ih =>
    rw [cellsFrom, List.mem_cons] at h
    rcases h with rfl | h
    · simp
    · have := ih h; rw [List.length_cons]; omega

theorem cellsFrom_pairwise (bs : List Byte) (a : Nat) : (cellsFrom a bs).Pairwise fun x y => x.1 < y.1 := by
  induction bs generalizing a with
  | nil => simp [cellsFrom]
  | cons b bs ih =>
    rw [cellsFrom, List.pairwise_cons]
    exact ⟨fun c hc => by have := mem_cellsFrom hc; simp only; omega, ih _⟩

/-- A splice reads as `new` inside its range and as before outside it. -/
theorem lookup_splice (cells new : List Host.Cell) (lo hi a : Nat) (hn : ∀ c ∈ new, lo ≤ c.1 ∧ c.1 < hi) :
    (spliceCells cells lo hi new).lookup a = if lo ≤ a ∧ a < hi then new.lookup a else cells.lookup a := by
  have hnone : ¬ (lo ≤ a ∧ a < hi) → new.lookup a = none := by
    intro h
    rw [List.lookup_eq_none_iff]
    intro c hc
    have := hn c hc
    simp only [bne_iff_ne, ne_eq]
    rintro rfl
    exact h this
  unfold spliceCells
  rw [List.lookup_append, List.lookup_append, lookup_filter_key (fun k => decide (k < lo)),
    lookup_filter_key (fun k => decide (hi ≤ k))]
  by_cases h : lo ≤ a ∧ a < hi
  · rw [if_pos h]
    have h1 : ¬ a < lo := by omega
    have h2 : ¬ hi ≤ a := by omega
    simp [h1, h2]
  · rw [if_neg h, hnone h]
    by_cases h1 : a < lo
    · have h2 : ¬ hi ≤ a ∨ hi ≤ a := by tauto
      rcases h2 with h2 | h2
      · simp [h1, h2]
      · simp [h1, h2]
    · have h2 : hi ≤ a := by omega
      simp [h1, h2]

theorem splice_pairwise {cells new : List Host.Cell} {lo hi : Nat} (hw : cells.Pairwise fun x y => x.1 < y.1)
    (hnw : new.Pairwise fun x y => x.1 < y.1) (hn : ∀ c ∈ new, lo ≤ c.1 ∧ c.1 < hi) (hle : lo ≤ hi) :
    (spliceCells cells lo hi new).Pairwise fun x y => x.1 < y.1 := by
  unfold spliceCells
  rw [List.pairwise_append, List.pairwise_append]
  refine ⟨hw.filter _, ⟨hnw, hw.filter _, ?_⟩, ?_⟩
  · intro x hx y hy
    have := hn x hx
    have h2 := (List.mem_filter.1 hy).2
    simp only [decide_eq_true_eq] at h2
    omega
  · intro x hx y hy
    have h1 := (List.mem_filter.1 hx).2
    simp only [decide_eq_true_eq] at h1
    rcases List.mem_append.1 hy with hy | hy
    · have := hn y hy; omega
    · have h2 := (List.mem_filter.1 hy).2
      simp only [decide_eq_true_eq] at h2
      omega

theorem mem_splice {cells new : List Host.Cell} {lo hi : Nat} {c : Host.Cell} (h : c ∈ spliceCells cells lo hi new) :
    c ∈ new ∨ (c ∈ cells ∧ (c.1 < lo ∨ hi ≤ c.1)) := by
  unfold spliceCells at h
  simp only [List.mem_append, List.mem_filter, decide_eq_true_eq] at h
  tauto

/-! ### Reading -/

theorem Memory.read_def (m : Memory) (a : Nat) :
    m.read a = (m.cells.lookup a).getD (Config.freeByte (m.drawOf a) a) := by
  unfold Memory.read
  cases m.cells.lookup a <;> rfl

/-- A read of several bytes is the reads of each. -/
theorem Memory.readBytes_eq (m : Memory) (a n : Nat) : m.readBytes a n = (List.range n).map fun k => m.read (a + k) := by
  unfold Memory.readBytes
  apply List.map_congr_left
  intro k hk
  have hk' : k < n := List.mem_range.1 hk
  rw [Memory.read_def, Memory.read_def]
  have hd : ({ m with cells := m.cells.filter fun c => decide (a ≤ c.1) && decide (c.1 < a + n) } : Memory).drawOf
      (a + k) = m.drawOf (a + k) := rfl
  rw [hd, lookup_filter_key (fun x => decide (a ≤ x) && decide (x < a + n)), if_pos (by simp; omega)]

@[simp] theorem Memory.readBytes_length (m : Memory) (a n : Nat) : (m.readBytes a n).length = n := by
  simp [Memory.readBytes_eq]

theorem Memory.readBytes_congr {m m' : Memory} {a n : Nat} (h : ∀ x, a ≤ x → x < a + n → m'.read x = m.read x) :
    m'.readBytes a n = m.readBytes a n := by
  rw [Memory.readBytes_eq, Memory.readBytes_eq]
  apply List.map_congr_left
  intro k hk
  have := List.mem_range.1 hk
  exact h _ (by omega) (by omega)

theorem Memory.readWord_congr {m m' : Memory} {a : Nat} (h : ∀ x, a ≤ x → x < a + 4 → m'.read x = m.read x) :
    m'.readWord a = m.readWord a := by
  unfold Memory.readWord; rw [Memory.readBytes_congr h]

/-! ### Writing -/

@[simp] theorem Memory.writeBytes_ctDraw (m : Memory) (a : Nat) (bs : List Byte) :
    (m.writeBytes a bs).ctDraw = m.ctDraw := rfl
@[simp] theorem Memory.writeBytes_msgDraw (m : Memory) (a : Nat) (bs : List Byte) :
    (m.writeBytes a bs).msgDraw = m.msgDraw := rfl
@[simp] theorem Memory.writeBytes_outDraw (m : Memory) (a : Nat) (bs : List Byte) :
    (m.writeBytes a bs).outDraw = m.outDraw := rfl
@[simp] theorem Memory.writeBytes_drawOf (m : Memory) (a : Nat) (bs : List Byte) (x : Nat) :
    (m.writeBytes a bs).drawOf x = m.drawOf x := rfl

/-- A byte that a write stores reads as stored. -/
theorem Memory.read_writeBytes_of_mem (m : Memory) {a x : Nat} {bs : List Byte} (h1 : a ≤ x) (h2 : x < a + bs.length) :
    (m.writeBytes a bs).read x = bs[x - a]'(by omega) := by
  rw [Memory.read_def]
  unfold Memory.writeBytes
  simp only
  rw [lookup_splice _ _ _ _ _ fun c hc => mem_cellsFrom hc, if_pos ⟨h1, h2⟩, lookup_cellsFrom, if_neg (by omega),
    List.getElem?_eq_getElem (by omega)]
  rfl

/-- A byte outside the stored ones reads as before. -/
theorem Memory.read_writeBytes_of_not_mem (m : Memory) {a x : Nat} {bs : List Byte}
    (h : ¬ (a ≤ x ∧ x < a + bs.length)) : (m.writeBytes a bs).read x = m.read x := by
  rw [Memory.read_def, Memory.read_def, Memory.writeBytes_drawOf]
  unfold Memory.writeBytes
  simp only
  rw [lookup_splice _ _ _ _ _ fun c hc => mem_cellsFrom hc, if_neg h]

/-- Read after write, the same bytes. -/
theorem Memory.readBytes_writeBytes_same (m : Memory) (a : Nat) (bs : List Byte) :
    (m.writeBytes a bs).readBytes a bs.length = bs := by
  rw [Memory.readBytes_eq]
  apply List.ext_getElem
  · simp
  · intro k hk1 hk2
    rw [List.getElem_map, List.getElem_range, Memory.read_writeBytes_of_mem m (by omega) (by omega)]
    congr 1; omega

/-- Read after write, bytes apart from the stored ones. -/
theorem Memory.readBytes_writeBytes_apart (m : Memory) {a b n : Nat} {bs : List Byte}
    (h : b + n ≤ a ∨ a + bs.length ≤ b) : (m.writeBytes a bs).readBytes b n = m.readBytes b n :=
  Memory.readBytes_congr fun x h1 h2 => Memory.read_writeBytes_of_not_mem m (by omega)

/-- R102: a word reads as it was written. -/
theorem Memory.readWord_writeWord_same (m : Memory) (a : Nat) (v : Word) : (m.writeWord a v).readWord a = v := by
  unfold Memory.readWord Memory.writeWord
  have h := Memory.readBytes_writeBytes_same m a (leBytes 4 v.toNat)
  rw [leBytes_length] at h
  rw [h, leValue_leBytes]
  apply BitVec.eq_of_toNat_eq
  have := v.isLt
  rw [BitVec.toNat_ofNat]
  norm_num
  omega

/-- A word apart from the written one reads as before. -/
theorem Memory.readWord_writeWord_apart (m : Memory) {a b : Nat} (v : Word) (h : b + 4 ≤ a ∨ a + 4 ≤ b) :
    (m.writeWord a v).readWord b = m.readWord b := by
  unfold Memory.readWord Memory.writeWord
  rw [Memory.readBytes_writeBytes_apart m (by simpa using h)]

/-- R102: byte k of a written word is bits [8k+7:8k] of the data. -/
theorem Memory.read_writeWord (m : Memory) (a : Nat) (v : Word) {k : Nat} (hk : k < 4) :
    (m.writeWord a v).read (a + k) = BitVec.ofNat 8 (v.toNat >>> (8 * k)) := by
  unfold Memory.writeWord
  rw [Memory.read_writeBytes_of_mem m (by omega) (by simpa using hk)]
  simp [leBytes]

/-! ### Draws -/

theorem Memory.redrawCt_drawOf (m : Memory) {cnt d a : Nat} (h : ¬ (ctBase ≤ a ∧ a < ctAddr (min cnt m.ctDraw.length))) :
    (m.redrawCt cnt d).drawOf a = m.drawOf a := by
  unfold Memory.drawOf
  by_cases h0 : a < ctBase
  · simp [h0]
  · by_cases h1 : a < msgBase
    · simp only [h0, h1, if_false, if_true]
      unfold Memory.redrawCt
      simp only [List.getD_eq_getElem?_getD]
      unfold ctAddr at h
      have hi : min cnt m.ctDraw.length ≤ (a - ctBase) / 0x200 := by
        rw [Nat.le_div_iff_mul_le (by norm_num)]; omega
      rw [List.getElem?_append_right (by simpa using hi), List.getElem?_drop]
      by_cases hc : cnt ≤ m.ctDraw.length
      · congr 2; simp [Nat.min_eq_left hc]; omega
      · have hl : m.ctDraw.length ≤ (a - ctBase) / 0x200 := by omega
        rw [List.getElem?_eq_none hl, List.getElem?_eq_none]
        simp; omega
    · simp only [h0, h1]; rfl

/-- R410: a redraw of ciphertext slots leaves every other byte as it was. -/
theorem Memory.read_redrawCt_of_not_mem (m : Memory) {cnt d a : Nat}
    (h : ¬ (ctBase ≤ a ∧ a < ctAddr (min cnt m.ctDraw.length))) : (m.redrawCt cnt d).read a = m.read a := by
  rw [Memory.read_def, Memory.read_def, Memory.redrawCt_drawOf m h]
  unfold Memory.redrawCt
  simp only
  rw [lookup_splice _ _ _ _ _ (by simp), if_neg h]

theorem Memory.redrawOut_drawOf (m : Memory) {d a : Nat} (h : ¬ (outBase ≤ a ∧ a < outEnd)) :
    (m.redrawOut d).drawOf a = m.drawOf a := by
  unfold Memory.drawOf Memory.redrawOut outEnd outBase ctBase msgBase at *
  simp only
  split_ifs <;> first | rfl | omega

/-- R332: a redraw of OUT leaves every other byte as it was. -/
theorem Memory.read_redrawOut_of_not_mem (m : Memory) {d a : Nat} (h : ¬ (outBase ≤ a ∧ a < outEnd)) :
    (m.redrawOut d).read a = m.read a := by
  rw [Memory.read_def, Memory.read_def, Memory.redrawOut_drawOf m h]
  unfold Memory.redrawOut
  simp only
  rw [lookup_splice _ _ _ _ _ (by simp), if_neg h]

@[simp] theorem Memory.redrawCt_ctDraw_length (m : Memory) (cnt d : Nat) :
    (m.redrawCt cnt d).ctDraw.length = m.ctDraw.length := by
  unfold Memory.redrawCt; simp; omega

@[simp] theorem Memory.redrawOut_ctDraw (m : Memory) (d : Nat) : (m.redrawOut d).ctDraw = m.ctDraw := rfl

/-! ### The canonical form -/

theorem Memory.wf_blank (p : Params) (d : Nat) : (Memory.blank p d).wf := List.Pairwise.nil

theorem Memory.wf_writeBytes {m : Memory} (h : m.wf) (a : Nat) (bs : List Byte) : (m.writeBytes a bs).wf :=
  splice_pairwise h (cellsFrom_pairwise bs a) (fun _ hc => mem_cellsFrom hc) (by omega)

theorem Memory.wf_writeWord {m : Memory} (h : m.wf) (a : Nat) (v : Word) : (m.writeWord a v).wf :=
  Memory.wf_writeBytes h a _

theorem Memory.wf_redrawCt {m : Memory} (h : m.wf) (cnt d : Nat) : (m.redrawCt cnt d).wf :=
  splice_pairwise h List.Pairwise.nil (by simp) (by unfold ctAddr; omega)

theorem Memory.wf_redrawOut {m : Memory} (h : m.wf) (d : Nat) : (m.redrawOut d).wf :=
  splice_pairwise h List.Pairwise.nil (by simp) (by unfold outBase outEnd; omega)

theorem Memory.mem_writeBytes {m : Memory} {a : Nat} {bs : List Byte} {c : Host.Cell}
    (h : c ∈ (m.writeBytes a bs).cells) : c ∈ m.cells ∨ (a ≤ c.1 ∧ c.1 < a + bs.length) := by
  rcases mem_splice h with h | ⟨h, -⟩
  · exact Or.inr (mem_cellsFrom h)
  · exact Or.inl h

theorem Memory.mem_redrawCt {m : Memory} {cnt d : Nat} {c : Host.Cell} (h : c ∈ (m.redrawCt cnt d).cells) :
    c ∈ m.cells := by
  rcases mem_splice h with h | ⟨h, -⟩
  · simp at h
  · exact h

theorem Memory.mem_redrawOut {m : Memory} {d : Nat} {c : Host.Cell} (h : c ∈ (m.redrawOut d).cells) : c ∈ m.cells := by
  rcases mem_splice h with h | ⟨h, -⟩
  · simp at h
  · exact h

theorem lookup_head (c : Host.Cell) (cs : List Host.Cell) : (c :: cs).lookup c.1 = some c.2 := by
  obtain ⟨k, v⟩ := c
  rw [List.lookup_cons]
  simp

theorem lookup_tail {c : Host.Cell} {a : Nat} (cs : List Host.Cell) (h : a ≠ c.1) :
    (c :: cs).lookup a = cs.lookup a := by
  obtain ⟨k, v⟩ := c
  rw [List.lookup_cons]
  have : (a == k) = false := by simpa using h
  rw [this]

theorem lookup_below {cs : List Host.Cell} {k : Nat} (h : ∀ c ∈ cs, k < c.1) : cs.lookup k = none := by
  rw [List.lookup_eq_none_iff]
  intro c hc
  have := h c hc
  simp only [bne_iff_ne, ne_eq]
  omega

/-- Canonical memories are determined by their stored values: equal lookups mean equal cells. -/
theorem cells_ext {xs ys : List Host.Cell} (hx : xs.Pairwise fun a b => a.1 < b.1)
    (hy : ys.Pairwise fun a b => a.1 < b.1) (h : ∀ a, xs.lookup a = ys.lookup a) : xs = ys := by
  induction xs generalizing ys with
  | nil =>
    cases ys with
    | nil => rfl
    | cons y ys => have := h y.1; rw [lookup_head] at this; simp at this
  | cons x xs ih =>
    cases ys with
    | nil => have := h x.1; rw [lookup_head] at this; simp at this
    | cons y ys =>
      rw [List.pairwise_cons] at hx hy
      have hk : x.1 = y.1 := by
        rcases Nat.lt_trichotomy x.1 y.1 with hlt | heq | hgt
        · have h1 := h x.1
          rw [lookup_head, lookup_tail _ (by omega), lookup_below fun c hc => by have := hy.1 c hc; omega] at h1
          simp at h1
        · exact heq
        · have h1 := h y.1
          rw [lookup_head, lookup_tail _ (by omega), lookup_below fun c hc => by have := hx.1 c hc; omega] at h1
          simp at h1
      have hv : x = y := by
        have h1 := h x.1
        rw [lookup_head, hk, lookup_head] at h1
        exact Prod.ext hk (by simpa using h1)
      subst hv
      congr 1
      refine ih hx.2 hy.2 fun a => ?_
      by_cases ha : a = x.1
      · rw [ha, lookup_below hx.1, lookup_below hy.1]
      · have h1 := h a
        rwa [lookup_tail _ ha, lookup_tail _ ha] at h1

end Sys2Proof.Machine
end

