-- ==== Sys2Proof/Laws/Ops.lean ====
section
/-! SUPPORT. What the shared operations and each meaning can do, said once: inversion lemmas for `State.command`
(spec/60_exceptions.md R408) and `State.settle` (spec/10_state.md R71), one for every instruction, and the source check. Later
proofs cite these and do not unfold a meaning. -/

namespace Sys2Proof.Machine

/-! ### Sources (R405) -/

theorem checkSources_eq_none_iff (s : State) (ks : List Reg) :
    s.checkSources ks = none ↔ ∀ k ∈ ks, s.isValid k = true := by
  simp [State.checkSources]

@[simp] theorem failIf_eq_none_iff (b : Bool) (f : Failure) : failIf b f = none ↔ b = false := by
  cases b <;> simp [failIf]

@[simp] theorem failIf_true (f : Failure) : failIf true f = some f := rfl
@[simp] theorem failIf_false (f : Failure) : failIf false f = none := rfl

theorem or_eq_none_iff {α : Type} (x y : Option α) : x.or y = none ↔ x = none ∧ y = none := by
  cases x <;> simp

theorem checkModinv_eq_none_iff (rb rc : Reg) (s : State) :
    checkModinv rb rc s = none ↔ s.isValid rb = true ∧ s.isValid rc = true ∧ 2 ≤ s.reg rc := by
  rw [checkModinv, or_eq_none_iff, checkSources_eq_none_iff]
  simp
  tauto

theorem checkModexp_eq_none_iff (rb rc rd : Reg) (s : State) :
    checkModexp rb rc rd s = none ↔
      s.isValid rb = true ∧ s.isValid rc = true ∧ s.isValid rd = true ∧ 0 < s.reg rd := by
  rw [checkModexp, or_eq_none_iff, checkSources_eq_none_iff]
  simp [Nat.pos_iff_ne_zero]
  tauto

theorem checkPtest_eq_none_iff (rb : Reg) (s : State) : checkPtest rb s = none ↔ s.isValid rb = true := by
  rw [checkPtest, checkSources_eq_none_iff]
  simp

theorem checkGenprime_eq_none_iff (bits : BitVec 16) (s : State) :
    checkGenprime bits s = none ↔ 2 ≤ bits.toNat ∧ bits.toNat ≤ s.params.maxBits := by
  rw [checkGenprime, or_eq_none_iff]
  simp
  omega

theorem checkGenkeys_eq_none_iff (bits : BitVec 12) (s : State) :
    checkGenkeys bits s = none ↔ bits.toNat ≤ s.params.maxBits ∧ 4 ≤ bits.toNat := by
  rw [checkGenkeys, or_eq_none_iff]
  simp
  omega

theorem checkEncrypt_eq_none_iff (rb rc : Reg) (s : State) :
    checkEncrypt rb rc s = none ↔
      s.isValid rb = true ∧ s.isValid rc = true ∧ 0 < blockSize (s.reg rc) ∧
        s.msglen.toNat ≤ s.params.msgBytes ∧ s.encryptCount rc ≤ s.params.ctSlots := by
  rw [checkEncrypt, or_eq_none_iff, or_eq_none_iff, or_eq_none_iff, checkSources_eq_none_iff]
  simp
  tauto

theorem firstBadBlock_eq_none_iff (s : State) (n : Nat) :
    s.firstBadBlock n = none ↔ ∀ i, i < s.ctcount.toNat → s.ct i < n := by
  simp [State.firstBadBlock]

theorem checkDecrypt_eq_none_iff (rb rc : Reg) (s : State) :
    checkDecrypt rb rc s = none ↔
      s.isValid rb = true ∧ s.isValid rc = true ∧ 0 < s.reg rc ∧ s.ctcount.toNat ≤ s.params.ctSlots ∧
        ∀ i, i < s.ctcount.toNat → s.ct i < s.reg rc := by
  rw [checkDecrypt, or_eq_none_iff, or_eq_none_iff, or_eq_none_iff, checkSources_eq_none_iff, Option.map_eq_none_iff,
    firstBadBlock_eq_none_iff]
  simp [Nat.pos_iff_ne_zero]
  tauto

/-! ### The outcome of a command (R408) -/

/-- A command answers its first check-phase error, or CANCELLED, or what its execution phase answers. -/
theorem command_cases {s t : State} {check : Option Failure} {cancelled : State} {go : Result}
    (h : s.command check cancelled go = .next t) :
    (∃ f, check = some f ∧ t = s.raise f) ∨
      (check = none ∧ s.abortPending = true ∧ t = cancelled.raise cancelledFailure) ∨
      (check = none ∧ s.abortPending = false ∧ go = .next t) := by
  unfold State.command at h
  cases check with
  | some f => exact Or.inl ⟨f, rfl, by simpa using h.symm⟩
  | none =>
    cases ha : s.abortPending with
    | true => exact Or.inr (Or.inl ⟨rfl, rfl, by simpa [ha] using h.symm⟩)
    | false => exact Or.inr (Or.inr ⟨rfl, rfl, by simpa [ha] using h⟩)

@[simp] theorem command_some (s : State) (f : Failure) (cancelled : State) (go : Result) :
    s.command (some f) cancelled go = .next (s.raise f) := rfl

theorem command_abort {s : State} (h : s.abortPending = true) (cancelled : State) (go : Result) :
    s.command none cancelled go = .next (cancelled.raise cancelledFailure) := by simp [State.command, h]

theorem command_go {s : State} (h : s.abortPending = false) (cancelled : State) (go : Result) :
    s.command none cancelled go = go := by simp [State.command, h]

/-- A drawn value goes on, a failed draw completes with GENERATION_FAILED, and a draw that waits changes nothing. -/
theorem settle_cases {α : Type} {s t : State} {d : Draw α} {use : State → α → Result} (h : s.settle d use = .next t) :
    (∃ v rest, d = .got v rest ∧ use { s with entropy := rest } v = .next t) ∨
      (∃ sub rest, d = .failed sub rest ∧
        t = ({ s with entropy := rest } : State).raise ⟨.generationFailed, sub, 0⟩) ∨
      (d = .starved ∧ t = s) := by
  cases d with
  | got v rest => exact Or.inl ⟨v, rest, rfl, h⟩
  | failed sub rest => exact Or.inr (Or.inl ⟨sub, rest, rfl, by simpa [State.settle] using h.symm⟩)
  | starved => exact Or.inr (Or.inr ⟨rfl, by simpa [State.settle] using h.symm⟩)

/-! ### What each meaning can answer -/

theorem execNop_cases {s t : State} (h : execNop s = .next t) :
    (s.abortPending = true ∧ t = s.raise cancelledFailure) ∨ (s.abortPending = false ∧ t = s.succeed) := by
  rcases command_cases h with ⟨f, hf, -⟩ | ⟨-, ha, ht⟩ | ⟨-, ha, hg⟩
  · cases hf
  · exact Or.inl ⟨ha, ht⟩
  · exact Or.inr ⟨ha, by simpa using hg.symm⟩

theorem execModinv_cases {ra rb rc : Reg} {s t : State} (h : execModinv ra rb rc s = .next t) :
    (∃ f, checkModinv rb rc s = some f ∧ t = s.raise f) ∨
      (checkModinv rb rc s = none ∧ s.abortPending = true ∧ t = s.raise cancelledFailure) ∨
      (checkModinv rb rc s = none ∧ s.abortPending = false ∧ Nat.gcd (s.reg rb) (s.reg rc) ≠ 1 ∧
        t = s.raise ⟨.invalidModulus, 0, 0⟩) ∨
      (checkModinv rb rc s = none ∧ s.abortPending = false ∧ Nat.gcd (s.reg rb) (s.reg rc) = 1 ∧
        t = (s.writeReg ra (modInv (s.reg rb) (s.reg rc))).succeed) := by
  rcases command_cases h with h | h | ⟨hc, ha, hg⟩
  · exact Or.inl h
  · exact Or.inr (Or.inl h)
  · split at hg
    · next hne => exact Or.inr (Or.inr (Or.inl ⟨hc, ha, hne, by simpa using hg.symm⟩))
    · next he => exact Or.inr (Or.inr (Or.inr ⟨hc, ha, by simpa using he, by simpa using hg.symm⟩))

theorem execModexp_cases {ra rb rc rd : Reg} {s t : State} (h : execModexp ra rb rc rd s = .next t) :
    (∃ f, checkModexp rb rc rd s = some f ∧ t = s.raise f) ∨
      (checkModexp rb rc rd s = none ∧ s.abortPending = true ∧ t = s.raise cancelledFailure) ∨
      (checkModexp rb rc rd s = none ∧ s.abortPending = false ∧
        t = (s.writeReg ra (modExp (s.reg rb) (s.reg rc) (s.reg rd))).succeed) := by
  rcases command_cases h with h | h | ⟨hc, ha, hg⟩
  · exact Or.inl h
  · exact Or.inr (Or.inl h)
  · exact Or.inr (Or.inr ⟨hc, ha, by simpa using hg.symm⟩)

theorem execPtest_cases {rb : Reg} {rounds : BitVec 16} {s t : State} (h : execPtest rb rounds s = .next t) :
    (∃ f, checkPtest rb s = some f ∧ t = s.raise f) ∨
      (checkPtest rb s = none ∧ s.abortPending = true ∧
        t = (s.takeSome (takenPtest rb rounds s)).raise cancelledFailure) ∨
      (checkPtest rb s = none ∧ s.abortPending = false ∧
        ((∃ r rest, drawPtest rb rounds s = .got r rest ∧ t = ({ s with entropy := rest, prime := r } : State).succeed) ∨
          (∃ sub rest, drawPtest rb rounds s = .failed sub rest ∧
            t = ({ s with entropy := rest } : State).raise ⟨.generationFailed, sub, 0⟩) ∨
          (drawPtest rb rounds s = .starved ∧ t = s))) := by
  rcases command_cases h with h | h | ⟨hc, ha, hg⟩
  · exact Or.inl h
  · exact Or.inr (Or.inl h)
  · refine Or.inr (Or.inr ⟨hc, ha, ?_⟩)
    rcases settle_cases hg with ⟨v, rest, hd, hu⟩ | h | h
    · exact Or.inl ⟨v, rest, hd, by simpa using hu.symm⟩
    · exact Or.inr (Or.inl h)
    · exact Or.inr (Or.inr h)

theorem execGenprime_cases {ra : Reg} {bits : BitVec 16} {s t : State} (h : execGenprime ra bits s = .next t) :
    (∃ f, checkGenprime bits s = some f ∧ t = s.raise f) ∨
      (checkGenprime bits s = none ∧ s.abortPending = true ∧
        t = (s.takeSome (takenGenprime bits s)).raise cancelledFailure) ∨
      (checkGenprime bits s = none ∧ s.abortPending = false ∧
        ((∃ c rest, drawGenprime bits s = .got c rest ∧
            t = (({ s with entropy := rest } : State).writeReg ra c).succeed) ∨
          (∃ sub rest, drawGenprime bits s = .failed sub rest ∧
            t = ({ s with entropy := rest } : State).raise ⟨.generationFailed, sub, 0⟩) ∨
          (drawGenprime bits s = .starved ∧ t = s))) := by
  rcases command_cases h with h | h | ⟨hc, ha, hg⟩
  · exact Or.inl h
  · exact Or.inr (Or.inl h)
  · refine Or.inr (Or.inr ⟨hc, ha, ?_⟩)
    rcases settle_cases hg with ⟨v, rest, hd, hu⟩ | h | h
    · exact Or.inl ⟨v, rest, hd, by simpa using hu.symm⟩
    · exact Or.inr (Or.inl h)
    · exact Or.inr (Or.inr h)

theorem finishGenkeys_cases {ra rb rc : Reg} {s t : State} {pq : Nat × Nat}
    (h : finishGenkeys ra rb rc s pq = .next t) :
    (Nat.gcd Config.eFixed (phiOf pq.1 pq.2) ≠ 1 ∧ t = s.raise ⟨.invalidModulus, 0, 0⟩) ∨
      (Nat.gcd Config.eFixed (phiOf pq.1 pq.2) = 1 ∧ t = (s.writeKeys ra rb rc pq.1 pq.2).succeed) := by
  unfold finishGenkeys at h
  split at h
  · next hne => exact Or.inl ⟨hne, by simpa using h.symm⟩
  · next he => exact Or.inr ⟨by simpa using he, by simpa using h.symm⟩

theorem execGenkeys_cases {ra rb rc : Reg} {bits : BitVec 12} {s t : State}
    (h : execGenkeys ra rb rc bits s = .next t) :
    (∃ f, checkGenkeys bits s = some f ∧ t = s.raise f) ∨
      (checkGenkeys bits s = none ∧ s.abortPending = true ∧
        t = (s.takeSome (takenGenkeys bits s)).raise cancelledFailure) ∨
      (checkGenkeys bits s = none ∧ s.abortPending = false ∧
        ((∃ p q rest, drawGenkeys bits s = .got (p, q) rest ∧
            finishGenkeys ra rb rc { s with entropy := rest } (p, q) = .next t) ∨
          (∃ sub rest, drawGenkeys bits s = .failed sub rest ∧
            t = ({ s with entropy := rest } : State).raise ⟨.generationFailed, sub, 0⟩) ∨
          (drawGenkeys bits s = .starved ∧ t = s))) := by
  rcases command_cases h with h | h | ⟨hc, ha, hg⟩
  · exact Or.inl h
  · exact Or.inr (Or.inl h)
  · refine Or.inr (Or.inr ⟨hc, ha, ?_⟩)
    rcases settle_cases hg with ⟨⟨p, q⟩, rest, hd, hu⟩ | h | h
    · exact Or.inl ⟨p, q, rest, hd, hu⟩
    · exact Or.inr (Or.inl h)
    · exact Or.inr (Or.inr h)

theorem execEncrypt_cases {rb rc : Reg} {s t : State} (h : execEncrypt rb rc s = .next t) :
    (∃ f, checkEncrypt rb rc s = some f ∧ t = s.raise f) ∨
      (checkEncrypt rb rc s = none ∧ s.abortPending = true ∧ t = (cancelEncrypt rc s).raise cancelledFailure) ∨
      (checkEncrypt rb rc s = none ∧ s.abortPending = false ∧
        t = ({ s.writeCts 0 (s.ciphertexts rb rc) with
          blksize := BitVec.ofNat 32 (s.encryptSize rc)
          ctcount := BitVec.ofNat 32 (s.encryptCount rc) } : State).succeed) := by
  rcases command_cases h with h | h | ⟨hc, ha, hg⟩
  · exact Or.inl h
  · exact Or.inr (Or.inl h)
  · exact Or.inr (Or.inr ⟨hc, ha, by simpa using hg.symm⟩)

theorem execDecrypt_cases {rb rc : Reg} {s t : State} (h : execDecrypt rb rc s = .next t) :
    (∃ f, checkDecrypt rb rc s = some f ∧ t = s.raise f) ∨
      (checkDecrypt rb rc s = none ∧ s.abortPending = true ∧ t = (cancelDecrypt s).raise cancelledFailure) ∨
      (checkDecrypt rb rc s = none ∧ s.abortPending = false ∧ t = s.finishDecrypt (s.plaintext rb rc)) := by
  rcases command_cases h with h | h | ⟨hc, ha, hg⟩
  · exact Or.inl h
  · exact Or.inr (Or.inl h)
  · exact Or.inr (Or.inr ⟨hc, ha, by simpa using hg.symm⟩)

/-! ### CT slots (R304) -/

/-- Writing slots changes nothing but memory. -/
theorem writeCts_eq (s : State) (i : Nat) (vs : List Nat) : s.writeCts i vs = { s with mem := (s.writeCts i vs).mem } := by
  induction vs generalizing s i with
  | nil => rfl
  | cons v vs ih => unfold State.writeCts; rw [ih]; rfl

/-! ### No meaning faults or refuses -/

theorem command_total (s : State) (check : Option Failure) (cancelled : State) {go : Result} (h : ∃ t, go = .next t) :
    ∃ t, s.command check cancelled go = .next t := by
  unfold State.command
  split
  · exact ⟨_, rfl⟩
  · split
    · exact ⟨_, rfl⟩
    · exact h

theorem settle_total {α : Type} (s : State) (d : Draw α) {use : State → α → Result}
    (h : ∀ s v, ∃ t, use s v = .next t) : ∃ t, s.settle d use = .next t := by
  cases d with
  | got v rest => exact h _ _
  | failed sub rest => exact ⟨_, rfl⟩
  | starved => exact ⟨_, rfl⟩

theorem finishGenkeys_total (ra rb rc : Reg) (s : State) (pq : Nat × Nat) :
    ∃ t, finishGenkeys ra rb rc s pq = .next t := by
  unfold finishGenkeys
  split <;> exact ⟨_, rfl⟩

/-- R154: "Every word has a meaning". No command faults or is refused. -/
theorem exec_total (i : Instr) (s : State) : ∃ t, exec i s = .next t := by
  cases i with
  | nop => unfold exec execNop; exact command_total _ _ _ ⟨_, rfl⟩
  | modinv ra rb rc => unfold exec execModinv; exact command_total _ _ _ (by split <;> exact ⟨_, rfl⟩)
  | modexp ra rb rc rd => unfold exec execModexp; exact command_total _ _ _ ⟨_, rfl⟩
  | ptest rb rounds => unfold exec execPtest; exact command_total _ _ _ (settle_total _ _ fun _ _ => ⟨_, rfl⟩)
  | genprime ra bits => unfold exec execGenprime; exact command_total _ _ _ (settle_total _ _ fun _ _ => ⟨_, rfl⟩)
  | genkeys ra rb rc bits =>
    unfold exec execGenkeys
    exact command_total _ _ _ (settle_total _ _ fun s v => finishGenkeys_total _ _ _ s v)
  | encrypt rb rc => unfold exec execEncrypt; exact command_total _ _ _ ⟨_, rfl⟩
  | decrypt rb rc => unfold exec execDecrypt; exact command_total _ _ _ ⟨_, rfl⟩

end Sys2Proof.Machine
end

