-- ==== Sys2Proof/Laws/PerInstr.lean ====
section
/-! SUPPORT. Per-instruction facts about encodings: the family EncodesRow says that the word of a command is a word of its
own row of the opcode map (spec/30_encoding.md R147). -/

namespace Sys2Proof.Laws.EncodesRow

/-- The encoded word has its row's opcode in bits 31:24 and passes its row's mask and match test. -/
def Statement (i : Instr) : Prop :=
  field (encode i) 31 24 = i.opcode.number ∧ encode i &&& i.opcode.mask = i.opcode.value

theorem of_fields {i : Instr} (h : field (encode i) 31 24 = i.opcode.number ∧ i.opcode.zeroFields (encode i)) :
    Statement i := ⟨h.1, (mask_test_iff _ _).2 h⟩

theorem nop : Statement .nop := of_fields ⟨by decide, show field _ 23 0 = 0 by decide⟩

theorem modinv (ra rb rc : Reg) : Statement (.modinv ra rb rc) := by
  apply of_fields
  simp only [encode, Instr.opcode, Opcode.number, Opcode.zeroFields, field]
  rw [formatR_toNat (by norm_num)]
  omega

theorem modexp (ra rb rc rd : Reg) : Statement (.modexp ra rb rc rd) := by
  apply of_fields
  simp only [encode, Instr.opcode, Opcode.number, Opcode.zeroFields, field]
  rw [formatR_toNat (by norm_num)]
  omega

theorem ptest (rb : Reg) (rounds : BitVec 16) : Statement (.ptest rb rounds) := by
  apply of_fields
  have := rounds.isLt
  simp only [encode, Instr.opcode, Opcode.number, Opcode.zeroFields, field]
  rw [formatI_toNat (by norm_num)]
  omega

theorem genprime (ra : Reg) (bits : BitVec 16) : Statement (.genprime ra bits) := by
  apply of_fields
  have := bits.isLt
  simp only [encode, Instr.opcode, Opcode.number, Opcode.zeroFields, field]
  rw [formatI_toNat (by norm_num)]
  omega

theorem genkeys (ra rb rc : Reg) (bits : BitVec 12) : Statement (.genkeys ra rb rc bits) := by
  apply of_fields
  have := bits.isLt
  simp only [encode, Instr.opcode, Opcode.number, Opcode.zeroFields, field]
  rw [formatK_toNat (by norm_num)]
  exact ⟨by omega, trivial⟩

theorem encrypt (rb rc : Reg) : Statement (.encrypt rb rc) := by
  apply of_fields
  simp only [encode, Instr.opcode, Opcode.number, Opcode.zeroFields, field]
  rw [formatR_toNat (by norm_num)]
  omega

theorem decrypt (rb rc : Reg) : Statement (.decrypt rb rc) := by
  apply of_fields
  simp only [encode, Instr.opcode, Opcode.number, Opcode.zeroFields, field]
  rw [formatR_toNat (by norm_num)]
  omega

end Sys2Proof.Laws.EncodesRow
end

