-- ==== Sys2Proof/Tests/Slice0.lean ====
section
/-! SUPPORT. The model's own tests: the well-formedness smoke, the decoding of words written out from spec/30_encoding.md, one or
two vectors of spec/95_test_vectors.md for each command and for the bus, and for every statement with hypotheses a witness that
meets them, at the ends of its ranges. -/

namespace Sys2Proof.Tests

open Sys2Proof Sys2Proof.Machine

set_option Elab.async false

/-! ### Well-formedness -/

theorem smoke_genkeys_n_is_e : (Instr.genkeys 1 1 3 16).wellFormed = false := by decide
theorem smoke_genkeys_n_is_d : (Instr.genkeys 1 2 1 16).wellFormed = false := by decide
theorem smoke_genkeys_e_is_d : (Instr.genkeys 1 2 2 16).wellFormed = false := by decide
theorem smoke_wellFormed : (Instr.genkeys 13 14 15 16).wellFormed = true := by decide

/-- R151: the words of the three ill-formed terms above are refused (spec/95_test_vectors.md 2.1). -/
theorem smoke_ill_formed_words_are_refused :
    decode 0x05113010#32 = .error .equalDestinations ∧ decode 0x05121010#32 = .error .equalDestinations ∧
      decode 0x05122010#32 = .error .equalDestinations := by decide

/-! ### Decoding: words written field by field from R141-R143, R147 -/

theorem test_decode_nop : decode 0b00000000_0000_0000_0000_0000_00000000#32 = .ok .nop := by decide
theorem test_decode_modinv : decode 0b00000001_0011_0001_0010_0000_00000000#32 = .ok (.modinv 3 1 2) := by decide
theorem test_decode_modexp : decode 0b00000010_0100_0001_0010_0011_00000000#32 = .ok (.modexp 4 1 2 3) := by decide
theorem test_decode_ptest : decode 0b00000011_0000_1110_1000000000000001#32 = .ok (.ptest 14 32769) := by decide
theorem test_decode_genprime : decode 0b00000100_1101_0000_0000100000000001#32 = .ok (.genprime 13 2049) := by decide
theorem test_decode_genkeys : decode 0b00000101_1101_1110_1111_100000010000#32 = .ok (.genkeys 13 14 15 2064) := by decide
theorem test_decode_encrypt : decode 0b00000110_0000_0010_0001_0000_00000000#32 = .ok (.encrypt 2 1) := by decide
theorem test_decode_decrypt : decode 0b00000111_0000_0011_0001_0000_00000000#32 = .ok (.decrypt 3 1) := by decide

/-- spec/95_test_vectors.md 2.1: subcode 1 for an opcode above 7, subcode 2 for a nonzero must-be-zero field. -/
theorem test_decode_undefined_opcode :
    decode 0x08000000#32 = .error .undefinedOpcode ∧ decode 0xFF000000#32 = .error .undefinedOpcode := by decide +kernel

theorem test_decode_nonzero_field :
    decode 0x00000001#32 = .error .nonzeroField ∧ decode 0x00100000#32 = .error .nonzeroField ∧
      decode 0x01312001#32 = .error .nonzeroField ∧ decode 0x01312100#32 = .error .nonzeroField ∧
      decode 0x02412301#32 = .error .nonzeroField ∧ decode 0x03100014#32 = .error .nonzeroField ∧
      decode 0x04210008#32 = .error .nonzeroField ∧ decode 0x06121000#32 = .error .nonzeroField ∧
      decode 0x07031001#32 = .error .nonzeroField := by decide +kernel

/-- The row of GENKEYS with zero operands names one register three times, so the decoder refuses it (R151). -/
theorem test_decodeTableWord :
    decodeTableWord 32 0x05000000 = none ∧ decodeTableWord 32 0x05012000 = some (.genkeys 0 1 2 0) ∧
      decodeTableWord 32 0x07000000 = some (.decrypt 0 0) := by decide

/-! ### Small states -/

/-- What holds of the next state of a result. -/
def after {α : Type} (r : Result) (f : State → α) : Option α :=
  match r with
  | .next t => some (f t)
  | .fault _ => none
  | .refused _ => none

/-- A step that is known to hold of the next state gives that state. -/
theorem next_of {α : Type} {r : Result} {f : State → α} {a : α} (h : after r f = some a) : ∃ t, r = .next t ∧ f t = a := by
  cases r with
  | next t => exact ⟨t, rfl, Option.some.inj h⟩
  | fault _ => exact absurd h (by simp [after])
  | refused _ => exact absurd h (by simp [after])

/-- The registers of a list loaded into a state. -/
def load (rs : List (Reg × Nat)) (s : State) : State := rs.foldl (fun s x => s.writeReg x.1 x.2) s

/-- The default engine after reset with registers and delivered words, and the command i accepted. -/
def vector (i : Instr) (rs : List (Reg × Nat)) (ws : List Word) : State :=
  ({ load rs State.reset with entropy := okPairs ws }).accept (encode i)

/-- n words of value 0. -/
def zeros (n : Nat) : List Word := List.replicate n 0

/-- n of the key K150 (spec/95_test_vectors.md). -/
def n150 : Nat := 0x3ffffffffffffffdffffffe000000000000001

/-- The default engine with registers and slots just wide enough for K150, so that these tests check fast. -/
def narrow : State := State.resetWith { Params.default with maxBits := 160 }

/-- d of the key K150. -/
def d150 : Nat := 0x87ff780087ff77f80807f770088ff770089

/-! ### One step of each command (spec/95_test_vectors.md 2.2-2.10) -/

theorem test_nop : after (step (vector .nop [] [])) (fun t => (t.statusWord, t.errinfoWord)) = some (0x2#32, 0#32) := by
  decide +kernel

theorem test_modinv_adds_the_modulus_once :
    after (step (vector (.modinv 3 1 2) [(1, 17), (2, 3120)] [])) (fun t => (t.statusWord, t.reg 3, t.reg 1)) =
      some (0x2#32, 2753, 17) := by decide +kernel

theorem test_modinv_source_is_destination :
    after (step (vector (.modinv 1 1 2) [(1, 65537), (2, 144)] [])) (fun t => (t.reg 1, t.reg 2)) = some (17, 144) := by
  decide +kernel

theorem test_modexp :
    after (step (vector (.modexp 4 1 2 3) [(1, 600), (2, 3), (3, 497)] [])) (fun t => (t.statusWord, t.reg 4)) =
      some (0x2#32, 321) := by decide +kernel

theorem test_modexp_zero_to_the_zero :
    after (step (vector (.modexp 4 1 2 3) [(1, 0), (2, 0), (3, 1)] [])) (fun t => (t.reg 4, t.isValid 4)) =
      some (0, true) := by decide +kernel

theorem test_ptest_strong_liar :
    after (step (vector (.ptest 1 1) [(1, 561)] [48])) (fun t => (t.statusWord, t.entropy)) = some (0xA#32, []) := by
  decide +kernel

theorem test_ptest_second_round_rejects :
    after (step (vector (.ptest 1 2) [(1, 2047)] [0, 1, 7])) (fun t => (t.statusWord, t.entropy)) =
      some (0x2#32, okPairs [7]) := by decide +kernel

theorem test_genprime_second_candidate :
    after (step (vector (.genprime 2 8) [] (0x3E :: 5 :: zeros 30))) (fun t => (t.statusWord, t.reg 2, t.entropy.length)) =
      some (0x2#32, 193, 9) := by decide +kernel

theorem test_genprime_two_bits :
    after (step (vector (.genprime 2 2) [] (zeros 5))) (fun t => (t.reg 2, t.entropy.length)) = some (3, 4) := by
  decide +kernel

theorem test_genkeys :
    after (step (vector (.genkeys 13 14 15 16) [] (zeros 21 ++ 6 :: zeros 20)))
      (fun t => (t.statusWord, t.reg 13, t.reg 14, t.reg 15)) = some (0x2#32, 38407, 65537, 2177) := by decide +kernel

theorem test_genkeys_without_inverse :
    after (step (vector (.genkeys 13 14 15 40) [] (0x2000F :: zeros 50)))
      (fun t => (t.statusWord, t.bvalidWord, t.entropy.length)) = some (0x406#32, 0#32, 9) := by decide +kernel

/-- "Hello, world!" under K150. -/
theorem test_encrypt :
    after (step (({ load [(1, n150), (2, 65537)] narrow with
        mem := narrow.mem.writeBytes msgBase [72, 101, 108, 108, 111, 44, 32, 119, 111, 114, 108, 100, 33]
        msglen := 13 } : State).accept 0x06021000#32)) (fun t => (t.statusWord, t.blksize, t.ctcount, t.ct 0, t.ct 1)) =
      some (0x2#32, 7#32, 2#32, 0xc2d3e0b94238c7649b83cebb22cf21de69b69, 0x3f9f6d7f1ac1b795b09155f44b00c8ff8e91f6) := by
  decide +kernel

theorem test_encrypt_key_too_small :
    after (step (vector (.encrypt 2 1) [(1, 2 ^ 95 - 1), (2, 65537)] [])) (fun t => (t.statusWord, t.blksize)) =
      some (0x506#32, 0#32) := by decide +kernel

/-- The ciphertexts 0, 1 and n - 1 under K150, the DECRYPT accepted. -/
def threeBlocks : State :=
  ({ (load [(1, n150), (3, d150)] narrow).writeCts 0 [0, 1, n150 - 1] with ctcount := 3 } : State).accept 0x07031000#32

theorem test_decrypt :
    after (step threeBlocks) (fun t => (t.statusWord, t.outlen, beValue (t.mem.readBytes outBase 20))) =
      some (0x2#32, 20#32, 0x013ffffffffffffffdffffffe000000000000000) := by decide +kernel

theorem test_decrypt_lowest_bad_index :
    after (step (({ (load [(1, n150), (3, d150)] narrow).writeCts 0 [5, n150, n150 + 1] with ctcount := 3 } :
      State).accept 0x07031000#32)) (fun t => (t.statusWord, t.errinfoWord, t.outlen)) =
      some (0x706#32, 0x00010001#32, 0#32) := by decide +kernel

/-- 2.10's schedule B, the arbiter tried too early as well. -/
theorem test_lane_schedule_out_of_order :
    (let t := (runLanes threeBlocks [.dispatch, .dispatch, .lane 1, .dispatch, .lane 1, .lane 0]).arbiterStep
     (t.statusWord, t.outlen, beValue (t.mem.readBytes outBase 20))) =
      (0x2#32, 20#32, 0x013ffffffffffffffdffffffe000000000000000) ∧
    (runLanes threeBlocks [.dispatch, .dispatch, .lane 1]).arbiterStep =
      runLanes threeBlocks [.dispatch, .dispatch, .lane 1] := by decide +kernel

/-! ### The bus and resets (spec/95_test_vectors.md 2.11, 2.12) -/

/-- One host read of an idle engine after reset. -/
def readAt (off : Nat) : Option BusResponse :=
  after (step { State.reset with script := [rd32 State.reset.params off] }) State.bus

theorem test_parameter_words :
    readAt 0x000 = some (.data 0x52534131#32) ∧ readAt 0x004 = some (.data 0x00010000#32) ∧
      readAt 0x008 = some (.data 0x10040800#32) ∧ readAt 0x00C = some (.data 0x00140040#32) ∧
      readAt 0x010 = some (.data 0x1000#32) ∧ readAt 0x048 = some .error ∧ readAt 0x002 = some .error ∧
      readAt 0x3000 = some .error ∧ readAt 0x18000 = some .error ∧ readAt 0x21000 = some .error := by decide +kernel

theorem test_limb_write :
    after (step { State.reset with script := [wr32 State.reset.params 0x1204 1] }) (fun t => (t.reg 1, t.bvalidWord)) =
      some (2 ^ 32, 2#32) ∧
    after (step { State.reset with script := [wr32 State.reset.params 0x1300 0xDEADBEEF] })
      (fun t => (t.reg 1, t.bvalidWord, t.bus)) = some (0, 0#32, .done) := by decide +kernel

theorem test_message_byte_order :
    after (step { State.reset with script := [wr32 State.reset.params 0x20000 0x00004241] })
      (fun t => (t.mem.read 0x20000, t.mem.read 0x20001, beValue (t.msgBlock 0 2))) =
      some (0x41#8, 0x42#8, 0x4142) := by decide +kernel

theorem test_command_while_busy :
    after (step { vector (.genprime 2 8) [] (zeros 40) with script := [wr32 State.reset.params 0x028 0] })
      (fun t => (t.statusWord, t.lastcmd)) = some (0x11#32, 0x04200008#32) := by decide +kernel

/-- An abort loses to a check-phase error and beats an execution-phase error. -/
theorem test_abort_priority :
    after (step { vector (.genprime 2 1) [] [] with abortPending := true }) State.statusWord = some 0x606#32 ∧
    after (step { vector (.modinv 3 1 2) [(1, 4), (2, 6)] [] with abortPending := true }) State.statusWord =
      some 0x806#32 := by decide +kernel

theorem test_soft_reset_keeps_message :
    after (step { vector (.genprime 2 8) [(5, 7)] [] with
        irqen := true
        mem := State.reset.mem.writeBytes msgBase [120, 121, 122]
        script := [wr32 State.reset.params 0x020 4] })
      (fun t => (t.statusWord, t.ctrlWord, t.bvalidWord, t.irq, t.mem.readBytes msgBase 3)) =
      some (0#32, 0#32, 0#32, false, [120#8, 121#8, 122#8]) := by decide +kernel

theorem test_withFetchWord_runs_the_word :
    after (step (State.reset.withFetchWord 32 0x07031000)) (fun t => (t.statusWord, t.errinfoWord, t.lastcmd)) =
      some (0x206#32, 3#32, 0x07031000#32) := by decide +kernel

/-! ### Witnesses

Each `witness_<Name>` shows states and operands that meet all the hypotheses of `Obligations.<Name>` together, one for each
clause, at the ends of the ranges where there are ranges. -/

/-- A small engine. -/
def tiny : Params := ⟨128, 2, 3, 16, 16, 1, 0, 0x40000⟩

/-- The small engine, Idle, with registers loaded. -/
def idle (rs : List (Reg × Nat)) : State := load rs (State.resetWith tiny)

/-- The small engine with the word w running. -/
def held (w : Word) (rs : List (Reg × Nat)) : State := { idle rs with run := .running w, lastcmd := w }

/-- The state with one event to come. -/
def moving (e : Event) (s : State) : State := { s with script := [e] }

/-- The state with ciphertexts loaded. -/
def withCts (cts : List Nat) (s : State) : State := { s.writeCts 0 cts with ctcount := BitVec.ofNat 32 cts.length }

/-- The state with a message loaded. -/
def withMsg (bs : List Byte) (s : State) : State :=
  { s with mem := s.mem.writeBytes msgBase bs, msglen := BitVec.ofNat 32 bs.length }

theorem witness_tiny_is_legal : tiny.Legal := by decide

theorem witness_DecodeEncodeRoundTrip :
    (Instr.genkeys 15 0 14 4095).wellFormed = true ∧ (Instr.ptest 15 65535).wellFormed = true ∧
      Instr.nop.wellFormed = true := by decide

theorem witness_EncodeDecodeRoundTrip : decode 0x05F0EFFF#32 = .ok (.genkeys 15 0 14 4095) := by decide

/-- A word whose row requires a field to be zero that is not. -/
abbrev NonzeroField (w : Word) : Prop :=
  (field w 31 24 = 0 ∧ field w 23 0 ≠ 0) ∨ (field w 31 24 = 1 ∧ field w 11 0 ≠ 0) ∨
    (field w 31 24 = 2 ∧ field w 7 0 ≠ 0) ∨ (field w 31 24 = 3 ∧ field w 23 20 ≠ 0) ∨
    (field w 31 24 = 4 ∧ field w 19 16 ≠ 0) ∨
    ((field w 31 24 = 6 ∨ field w 31 24 = 7) ∧ (field w 23 20 ≠ 0 ∨ field w 11 0 ≠ 0))

theorem witness_IllegalWordsComplete :
    (∀ w, (held w []).params.Legal ∧ (held w []).script = [] ∧ (held w []).run = .running w ∧
        (moving .engine (held w [])).script = .engine :: [] ∧ (moving .engine (held w [])).run = .running w) ∧
      (7 < field 0x08000000 31 24 ∧ 7 < field 0xFF000000 31 24) ∧
      (NonzeroField 0x00000001 ∧ NonzeroField 0x00800000 ∧ NonzeroField 0x01000001 ∧ NonzeroField 0x01000800 ∧
        NonzeroField 0x02000001 ∧ NonzeroField 0x02000080 ∧ NonzeroField 0x03100000 ∧ NonzeroField 0x03800000 ∧
        NonzeroField 0x04010000 ∧ NonzeroField 0x04080000 ∧ NonzeroField 0x06100000 ∧ NonzeroField 0x06000001 ∧
        NonzeroField 0x07800000 ∧ NonzeroField 0x07000800) ∧
      (field 0x05112000 31 24 = 5 ∧ field 0x05112000 23 20 = field 0x05112000 19 16) ∧
      (field 0x05F1F000 31 24 = 5 ∧ field 0x05F1F000 23 20 = field 0x05F1F000 15 12) ∧
      (field 0x05122FFF 31 24 = 5 ∧ field 0x05122FFF 19 16 = field 0x05122FFF 15 12) :=
  ⟨fun w => ⟨by show tiny.Legal; decide, rfl, rfl, rfl, rfl⟩, by decide,
    by refine ⟨?_, ?_, ?_, ?_, ?_, ?_, ?_, ?_, ?_, ?_, ?_, ?_, ?_, ?_⟩ <;> decide, by decide, by decide, by decide⟩

theorem witness_StepRunsDecodedCommand :
    ((held 0 []).params.Legal ∧ (held 0 []).script = [] ∧ (held 0 []).run = .running 0 ∧ decode 0 = .ok .nop) ∧
      (moving .engine (held 0 [])).script = .engine :: [] ∧ decodeTableWord 32 0x01312000 = some (.modinv 3 1 2) := by
  decide +kernel

/-- A write to CMD while Idle (a DECRYPT that passes its checks, one that does not, a NOP), one while busy, and a read. -/
theorem witness_CmdWriteAcceptsOrOverruns :
    (idle []).params.Legal ∧
      (moving (.write (tiny.base + 0x028) 4 0x07031000) (idle [(1, 5), (3, 2)])).script =
        .write ((idle []).params.base + 0x028) 4 0x07031000 :: [] ∧ (idle [(1, 5), (3, 2)]).busy = false ∧
      decode 0x07031000 = .ok (.decrypt 3 1) ∧ checkDecrypt 3 1 (idle [(1, 5), (3, 2)]) = none ∧
      checkDecrypt 3 1 (idle []) ≠ none ∧ decode 0 = .ok .nop ∧ (held 0 []).busy = true ∧
      (moving (.read (tiny.base + 0x028) 4) (held 0 [])).script = .read ((held 0 []).params.base + 0x028) 4 :: [] := by
  decide +kernel

theorem witness_CompletionStepRecord :
    255 < 256 ∧ 65535 < 65536 ∧ ((held 0 []).complete .capacity 255 65535).index.toNat = 65535 ∧
      ((held 0 []).complete .noError 0 0).err = false := by decide +kernel

theorem witness_NopCompletes :
    (held 0 []).abortPending = false ∧ ({ held 0 [] with abortPending := true } : State).abortPending = true := by
  decide +kernel

/-- The least modulus 2, and a destination that is the modulus register. -/
theorem witness_ModinvGivesTheInverse :
    (idle [(1, 3), (2, 2)]).isValid 1 = true ∧ (idle [(1, 3), (2, 2)]).isValid 2 = true ∧
      2 ≤ (idle [(1, 3), (2, 2)]).reg 2 ∧ Nat.gcd ((idle [(1, 3), (2, 2)]).reg 1) ((idle [(1, 3), (2, 2)]).reg 2) = 1 ∧
      (idle [(1, 3), (2, 2)]).abortPending = false ∧
      after (exec (.modinv 2 1 2) (idle [(1, 3), (2, 2)])) (fun t => t.reg 2) = some 1 := by decide +kernel

/-- The least modulus 1, one register in every place. -/
theorem witness_ModexpGivesThePower :
    (idle [(1, 1)]).isValid 1 = true ∧ 0 < (idle [(1, 1)]).reg 1 ∧ (idle [(1, 1)]).abortPending = false ∧
      after (exec (.modexp 1 1 1 1) (idle [(1, 1)])) (fun t => t.reg 1) = some 0 := by decide +kernel

theorem witness_InverseAndPowerErrors :
    (idle [(2, 5)]).isValid 1 = false ∧ ((idle [(1, 5)]).isValid 1 = true ∧ (idle [(1, 5)]).isValid 2 = false) ∧
      ((idle [(1, 5), (2, 1)]).isValid 1 = true ∧ (idle [(1, 5), (2, 1)]).isValid 2 = true ∧
        (idle [(1, 5), (2, 1)]).reg 2 ≤ 1) ∧
      ((idle [(1, 4), (2, 2)]).isValid 1 = true ∧ (idle [(1, 4), (2, 2)]).isValid 2 = true ∧
        2 ≤ (idle [(1, 4), (2, 2)]).reg 2 ∧
        Nat.gcd ((idle [(1, 4), (2, 2)]).reg 1) ((idle [(1, 4), (2, 2)]).reg 2) ≠ 1) ∧
      ((idle [(1, 4), (2, 2)]).isValid 3 = false) ∧
      ((idle [(1, 4), (2, 2), (3, 0)]).isValid 1 = true ∧ (idle [(1, 4), (2, 2), (3, 0)]).isValid 2 = true ∧
        (idle [(1, 4), (2, 2), (3, 0)]).isValid 3 = true ∧ (idle [(1, 4), (2, 2), (3, 0)]).reg 3 = 0) := by
  decide +kernel

/-- n - 1 = 2^k * t with t odd has one solution. -/
theorem not_passes {n a k t : Nat} (hn : n - 1 = 2 ^ k * t) (ht : t % 2 = 1) (h1 : a ^ t % n ≠ 1)
    (h2 : ∀ i, i < k → a ^ (2 ^ i * t) % n ≠ n - 1) : ¬ PassesBase n a := by
  rintro ⟨k', t', hn', ht', h⟩
  have hk : k' = k := by
    rcases Nat.lt_trichotomy k' k with hl | hl | hl
    · obtain ⟨j, rfl⟩ := Nat.exists_eq_add_of_lt hl
      have : t' = 2 * (2 ^ j * t) := by
        have : 2 ^ k' * t' = 2 ^ k' * (2 * (2 ^ j * t)) := by rw [← hn', hn]; ring
        exact Nat.eq_of_mul_eq_mul_left (by positivity) this
      omega
    · exact hl
    · obtain ⟨j, rfl⟩ := Nat.exists_eq_add_of_lt hl
      have : t = 2 * (2 ^ j * t') := by
        have : 2 ^ k * t = 2 ^ k * (2 * (2 ^ j * t')) := by rw [← hn, hn']; ring
        exact Nat.eq_of_mul_eq_mul_left (by positivity) this
      omega
  subst hk
  have hT : t' = t := Nat.eq_of_mul_eq_mul_left (show 0 < 2 ^ k' by positivity) (by rw [← hn', hn])
  subst hT
  rcases h with h | ⟨i, hi, h⟩
  · exact h1 h
  · exact h2 i hi h

/-- 2047 with round field 2: base 2 passes, base 3 does not (both clauses); with round field 0, one default round. -/
theorem witness_PtestFollowsTheBases :
    (idle [(1, 2047)]).isValid 1 = true ∧ (idle [(1, 2047)]).abortPending = false ∧ 5 ≤ (idle [(1, 2047)]).reg 1 ∧
      (idle [(1, 2047)]).reg 1 % 2 = 1 ∧ (if (2 : BitVec 16) = 0 then tiny.mrRounds else (2 : BitVec 16).toNat) = 2 ∧
      (if (0 : BitVec 16) = 0 then tiny.mrRounds else (0 : BitVec 16).toNat) = 1 ∧
      [0, 1].length = 2 * wordsFor 2047 ∧
      PassesBase 2047 (baseOf 2047 [0, 1] 0) ∧ ¬ PassesBase 2047 (baseOf 2047 [0, 1] 1) :=
  ⟨by decide +kernel, by decide +kernel, by decide +kernel, by decide +kernel, by decide, by decide, by decide +kernel,
    ⟨1, 1023, by norm_num, by norm_num, Or.inl (by decide +kernel)⟩,
    not_passes (k := 1) (t := 1023) (by norm_num) (by norm_num) (by decide +kernel) (by decide +kernel)⟩

theorem witness_PtestPassesEveryPrime :
    (idle [(1, 5)]).isValid 1 = true ∧ (idle [(1, 5)]).abortPending = false ∧ Nat.Prime ((idle [(1, 5)]).reg 1) ∧
      (idle [(1, 2)]).isValid 1 = true ∧ Nat.Prime ((idle [(1, 2)]).reg 1) ∧ [(7 : Word)].length = 1 * wordsFor 5 ∧
      ({ idle [(1, 5)] with entropy := okPairs [7] } : State).entropy = okPairs [7] ++ [] := by
  have h5 : (idle [(1, 5)]).reg 1 = 5 := by decide +kernel
  have h2 : (idle [(1, 2)]).reg 1 = 2 := by decide +kernel
  rw [h5, h2]
  exact ⟨by decide +kernel, by decide +kernel, by norm_num, by decide +kernel, by norm_num, by decide +kernel, rfl⟩

theorem witness_PtestSmallAndEven :
    (idle []).isValid 1 = false ∧ (idle []).abortPending = false ∧
      (∀ n ∈ [0, 1, 2, 3, 4], (idle [(1, n)]).isValid 1 = true ∧ (idle [(1, n)]).reg 1 = n) := by decide +kernel

theorem witness_PtestEntropyFailure :
    (idle [(1, 5)]).isValid 1 = true ∧ (idle [(1, 5)]).abortPending = false ∧ Nat.Prime ((idle [(1, 5)]).reg 1) ∧
      5 ≤ (idle [(1, 5)]).reg 1 ∧ [(7 : Word), 7].length < 3 * wordsFor 5 ∧
      (if (3 : BitVec 16) = 0 then tiny.mrRounds else (3 : BitVec 16).toNat) = 3 ∧
      ({ idle [(1, 5)] with entropy := okPairs [7, 7] ++ [⟨false, 0⟩, ⟨true, 1⟩] } : State).entropy =
        okPairs [7, 7] ++ ⟨false, 0⟩ :: [⟨true, 1⟩] := by
  have h5 : (idle [(1, 5)]).reg 1 = 5 := by decide +kernel
  rw [h5]
  exact ⟨by decide +kernel, by decide +kernel, by norm_num, le_rfl, by decide +kernel, by decide, rfl⟩

/-- The words 0x3E and 5 make the candidate 255 and the base 7, which rejects it (spec/95_test_vectors.md 2.6). -/
theorem rejects_255 (p : Params) (h : p.mrRounds = 1) (rest : List EntropyPair) :
    Rejects p 8 (okPairs [0x3E, 5] ++ rest) rest := by
  refine ⟨[0x3E], okPairs [5] ++ rest, by decide, rfl, ?_⟩
  rw [h]
  rfl

/-- No limit on attempts, a limit of one and a limit of three. -/
def limited (n : Nat) : Params := { tiny with maxAttempts := n }

/-- 2 bits: the candidate 3, no test word; 3 bits: the candidate 7, one round of one word; 8 bits: 193 after two rejected
candidates, the limit being three. -/
theorem witness_GenprimeCompletesOnPrimeCandidate :
    2 ≤ (2 : BitVec 16).toNat ∧ (128 : BitVec 16).toNat ≤ (idle []).params.maxBits ∧ (idle []).abortPending = false ∧
      WithinLimit tiny 0 ∧ RejectsTimes tiny 2 0 (okPairs [0]) (okPairs [0]) ∧ [(0 : Word)].length = ceilDiv 2 32 ∧
      3 = (wordsValue [0] % 2 ^ 2 ||| 2 ^ (2 - 1) ||| 2 ^ (2 - 2) ||| 1) ∧
      7 = (wordsValue [0] % 2 ^ 3 ||| 2 ^ (3 - 1) ||| 2 ^ (3 - 2) ||| 1) ∧ Nat.Prime 3 ∧ Nat.Prime 7 ∧
      [(9 : Word)].length = (if 7 < 4 then 0 else (idle []).params.mrRounds * wordsFor 7) ∧
      WithinLimit (limited 3) 2 ∧
      RejectsTimes (limited 3) 8 2 (okPairs [0x3E, 5, 0x3E, 5, 0, 9]) (okPairs [0] ++ (okPairs [9] ++ [])) ∧
      193 = (wordsValue [0] % 2 ^ 8 ||| 2 ^ (8 - 1) ||| 2 ^ (8 - 2) ||| 1) ∧ Nat.Prime 193 :=
  ⟨by decide, by decide, rfl, Or.inl rfl, rfl, by decide, by decide, by decide, by norm_num, by norm_num,
    by decide +kernel, Or.inr (by decide),
    ⟨_, rejects_255 _ rfl (okPairs [0x3E, 5, 0, 9]), _, rejects_255 _ rfl (okPairs [0, 9]), rfl⟩, by decide,
    by norm_num⟩

/-- A running GENPRIME of 8 bits whose one candidate is 193. -/
def makingPrime : State := { held 0x04200008 [] with entropy := okPairs [0, 0] }

theorem witness_GenprimeResultShape :
    makingPrime.busy = true ∧ ∃ t, exec (.genprime 2 8) makingPrime = .next t ∧
      (t.busy, t.errcode) = (false, ErrCode.noError) := ⟨by decide +kernel, next_of (by decide +kernel)⟩

theorem witness_GenprimeRetriesAfterRejection :
    tiny.maxAttempts = 0 ∧ 2 ≤ 8 ∧ entropyInt (ceilDiv 8 32) (okPairs [0x3E, 5, 0]) = .got 0x3E (okPairs [5, 0]) ∧
      mrTest (candidate 8 0x3E) tiny.mrRounds (okPairs [5, 0]) = .got false (okPairs [0]) := by decide +kernel

/-- Every way to fail: the limits one and two reached; a failing pair first of all, in the second candidate's word, and in the
round of its test. -/
theorem witness_GenprimeErrors :
    (1 : BitVec 16).toNat < 2 ∧ (2 ≤ (129 : BitVec 16).toNat ∧ (idle []).params.maxBits < (129 : BitVec 16).toNat) ∧
      (2 ≤ (2 : BitVec 16).toNat ∧ (128 : BitVec 16).toNat ≤ (idle []).params.maxBits) ∧ (idle []).abortPending = false ∧
      GenerationFails (limited 1) 8 (okPairs [0x3E, 5]) 3 [] ∧
      GenerationFails (limited 2) 8 (okPairs [0x3E, 5, 0x3E, 5, 4]) 3 (okPairs [4]) ∧
      GenerationFails tiny 8 [⟨false, 3⟩] 2 [] ∧
      GenerationFails (limited 2) 8 (okPairs [0x3E, 5] ++ [⟨false, 3⟩, ⟨true, 4⟩]) 2 [⟨true, 4⟩] ∧
      GenerationFails (limited 2) 8 (okPairs [0x3E, 5] ++ (okPairs [0] ++ [⟨false, 3⟩, ⟨true, 4⟩])) 2 [⟨true, 4⟩] :=
  ⟨by decide, by decide, by decide, rfl,
    Or.inl ⟨rfl, by decide, _, rejects_255 _ rfl [], rfl⟩,
    Or.inl ⟨rfl, by decide, _, rejects_255 _ rfl (okPairs [0x3E, 5, 4]), _, rejects_255 _ rfl (okPairs [4]), rfl⟩,
    Or.inr ⟨rfl, 0, _, Or.inl rfl, rfl, Or.inl ⟨[], 3, by decide, rfl⟩⟩,
    Or.inr ⟨rfl, 1, _, Or.inr (by decide), ⟨_, rejects_255 _ rfl _, rfl⟩, Or.inl ⟨[], 3, by decide, rfl⟩⟩,
    Or.inr ⟨rfl, 1, _, Or.inr (by decide), ⟨_, rejects_255 _ rfl _, rfl⟩,
      Or.inr ⟨[0], [⟨false, 3⟩, ⟨true, 4⟩], by decide, rfl, by decide +kernel⟩⟩⟩

/-- The least key: 4 bits, p = q = 3. -/
theorem witness_GenkeysWritesAKeypair :
    (Instr.genkeys 13 14 15 4).wellFormed = true ∧ 4 ≤ (4 : BitVec 12).toNat ∧
      (4 : BitVec 12).toNat ≤ (idle []).params.maxBits ∧ (idle []).abortPending = false ∧
      genPrime tiny 2 (okPairs [0, 0]) = .got 3 (okPairs [0]) ∧ genPrime tiny 2 (okPairs [0]) = .got 3 [] ∧
      Nat.gcd 65537 ((3 - 1) * (3 - 1)) = 1 := by decide +kernel

/-- The primes of the key K1024 (spec/95_test_vectors.md). -/
def p1024 : Nat := 0xfb18b8913c2def7ad64148c7973779086c20f30d401d90e6a3a5a0e30438e6948e625fc9c656dd925e98c13f0cf06d60b4733ac58116017e5e8885db3c88596d
def q1024 : Nat := 0xe018ace11720710aed687c979831d8184b799a5d5ed9d1765eb4cfb384ff6ca4133d0a1993276d222a70bb0f1e032a7096dc3815d8f4700e10b51aab41fe5d7d

/-- The words of a candidate of 32 * k bits, and one test base of zeros. -/
def drawn (k x : Nat) : List EntropyPair := okPairs ((List.range k).map (limb x) ++ zeros k)

theorem witness_GenkeysModulusLength :
    2 ≤ 2 ∧ genPrime tiny 2 (okPairs [0, 0]) = .got 3 (okPairs [0]) ∧ genPrime tiny 2 (okPairs [0]) = .got 3 [] ∧
      genPrime tiny 32 (drawn 1 3697481917 ++ drawn 1 4187559683) = .got 3697481917 (drawn 1 4187559683) ∧
      genPrime tiny 32 (drawn 1 4187559683) = .got 4187559683 [] ∧
      genPrime tiny 512 (drawn 16 p1024 ++ drawn 16 q1024) = .got p1024 (drawn 16 q1024) ∧
      genPrime tiny 512 (drawn 16 q1024) = .got q1024 [] ∧
      (idle [(1, 3697481917 * 4187559683), (2, 1)]).isValid 2 = true ∧
      (idle [(1, 3697481917 * 4187559683), (2, 1)]).reg 1 = 3697481917 * 4187559683 := by decide +kernel

/-- 16 bits, so primes of 8: p fails at the limit one and at a failing pair in its test; p = 193 is found and q fails so. -/
theorem witness_GenkeysErrors :
    (idle []).params.maxBits < (129 : BitVec 12).toNat ∧
      ((3 : BitVec 12).toNat ≤ (idle []).params.maxBits ∧ (3 : BitVec 12).toNat < 4) ∧
      ((40 : BitVec 12).toNat ≤ (idle []).params.maxBits ∧ 4 ≤ (4 : BitVec 12).toNat ∧ (idle []).abortPending = false) ∧
      GenerationFails (limited 1) (16 / 2) (okPairs [0x3E, 5]) 3 [] ∧
      GenerationFails tiny (16 / 2) (okPairs [0] ++ [⟨false, 3⟩]) 2 [] ∧
      genPrime (limited 1) (16 / 2) (okPairs [0, 0, 0x3E, 5]) = .got 193 (okPairs [0x3E, 5]) ∧
      genPrime tiny (16 / 2) (okPairs [0, 0] ++ (okPairs [0] ++ [⟨false, 3⟩])) = .got 193 (okPairs [0] ++ [⟨false, 3⟩]) ∧
      genPrime tiny (40 / 2) (okPairs [0x2000F, 0, 0, 0]) = .got 917519 (okPairs [0, 0]) ∧
      genPrime tiny (40 / 2) (okPairs [0, 0]) = .got 786433 [] ∧
      Nat.gcd 65537 ((917519 - 1) * (786433 - 1)) ≠ 1 :=
  ⟨by decide, by decide, by decide +kernel, Or.inl ⟨rfl, by decide, _, rejects_255 _ rfl [], rfl⟩,
    Or.inr ⟨rfl, 0, _, Or.inl rfl, rfl, Or.inr ⟨[0], [⟨false, 3⟩], by decide, rfl, by decide +kernel⟩⟩,
    by decide +kernel, by decide +kernel, by decide +kernel, by decide +kernel, by decide +kernel⟩

theorem witness_EmptyPortHoldsTheCommand :
    (moving (.deliver ⟨false, 3⟩) (idle [(1, 5)])).script = .deliver ⟨false, 3⟩ :: [] ∧ (idle [(1, 5)]).params.Legal ∧ (idle [(1, 5)]).abortPending = false ∧ (idle [(1, 5)]).entropy = [] ∧
      ((idle [(1, 5)]).isValid 1 = true ∧ 5 ≤ (idle [(1, 5)]).reg 1 ∧ (idle [(1, 5)]).reg 1 % 2 = 1) ∧
      (2 ≤ (2 : BitVec 16).toNat ∧ (128 : BitVec 16).toNat ≤ (idle [(1, 5)]).params.maxBits) ∧
      (4 ≤ (4 : BitVec 12).toNat ∧ (128 : BitVec 12).toNat ≤ (idle [(1, 5)]).params.maxBits) := by decide +kernel

theorem witness_OutcomeIgnoresLaterPairs :
    makingPrime.busy = true ∧ makingPrime.abortPending = false ∧
      ∃ t, exec (.genprime 2 8) makingPrime = .next t ∧ t.busy = false :=
  ⟨by decide +kernel, by decide +kernel, next_of (by decide +kernel)⟩

/-- The least modulus of block size 1, and as many blocks as there are slots. -/
def sending : State := withMsg [65, 0, 66] (idle [(1, 2 ^ 95), (2, 3)])

theorem witness_EncryptWritesTheCiphertexts :
    sending.params.Legal ∧ sending.reg 1 < 2 ^ sending.params.maxBits ∧ sending.isValid 2 = true ∧
      sending.isValid 1 = true ∧ blockSize (sending.reg 1) = ((1 : Nat) : Int) ∧ 0 < 1 ∧
      sending.msglen.toNat ≤ sending.params.msgBytes ∧ ceilDiv sending.msglen.toNat 1 ≤ sending.params.ctSlots ∧
      sending.abortPending = false := by decide +kernel

/-- A memory that differs in the byte after the message and in a ciphertext byte. -/
theorem witness_EncryptReadsOnlyTheMessage :
    sending.params.Legal ∧
      (∀ k, k < sending.msglen.toNat →
        ((sending.mem.writeBytes (msgBase + 3) [9]).writeBytes ctBase [7]).read (msgBase + k) =
          sending.mem.read (msgBase + k)) ∧
      (∃ t, exec (.encrypt 2 1) sending = .next t ∧ (t.errcode, t.ctcount) = (ErrCode.noError, 3)) ∧
      ∃ t, exec (.encrypt 2 1) { sending with mem := (sending.mem.writeBytes (msgBase + 3) [9]).writeBytes ctBase [7] } =
        .next t ∧ t.ctcount = 3 :=
  ⟨by decide +kernel, by decide +kernel, next_of (by decide +kernel), next_of (by decide +kernel)⟩

theorem witness_EncryptErrors :
    (idle [(1, 7)]).isValid 2 = false ∧ ((idle [(2, 7)]).isValid 2 = true ∧ (idle [(2, 7)]).isValid 1 = false) ∧
      (sending.isValid 2 = true ∧ sending.isValid 1 = true) ∧ blockSize (2 ^ 95 - 1) ≤ 0 ∧
      (blockSize (sending.reg 1) = ((1 : Nat) : Int) ∧ 0 < 1) ∧
      ({ sending with msglen := 17 } : State).params.msgBytes < ({ sending with msglen := 17 } : State).msglen.toNat ∧
      ({ sending with msglen := 4 } : State).msglen.toNat ≤ sending.params.msgBytes ∧
      sending.params.ctSlots < ceilDiv ({ sending with msglen := 4 } : State).msglen.toNat 1 := by decide +kernel

theorem witness_BlocksAreBelowTheModulus :
    (([255] : List Byte).length : Int) ≤ blockSize (2 ^ 95) ∧ blockSize (sending.reg 1) = ((1 : Nat) : Int) ∧
      blockSize ((idle [(1, 2 ^ 87)]).reg 1) = ((0 : Nat) : Int) := by decide +kernel

theorem witness_KeyTooSmallBelow96Bits :
    (idle [(1, 2 ^ 95 - 1), (2, 3)]).isValid 2 = true ∧ (idle [(1, 2 ^ 95 - 1), (2, 3)]).isValid 1 = true ∧
      (idle [(1, 2 ^ 95 - 1), (2, 3)]).reg 1 < 2 ^ 95 := by decide +kernel

/-- Three ciphertexts below n = 5, d = 3, the DECRYPT of B3 and B1 accepted. -/
def receiving : State := (withCts [4, 0, 2] (idle [(1, 5), (3, 3)])).accept 0x07031000#32

theorem witness_DecryptWritesThePlaintext :
    receiving.params.Legal ∧ receiving.isValid 3 = true ∧ receiving.isValid 1 = true ∧ 0 < receiving.reg 1 ∧
      receiving.ctcount.toNat ≤ receiving.params.ctSlots ∧
      (∀ i, i < receiving.ctcount.toNat → receiving.ct i < receiving.reg 1) ∧ receiving.abortPending = false ∧
      ([4, 3] : List Byte) =
        (List.range receiving.ctcount.toNat).flatMap
          (fun i => beMin (receiving.ct i ^ receiving.reg 3 % receiving.reg 1)) ∧
      ([4, 3] : List Byte).length ≤ receiving.params.outBytes := by decide +kernel

/-- Two blocks of 13 bytes for an OUT of 16. -/
def overflowing : State := withCts [2 ^ 100, 2 ^ 100 + 1] (idle [(1, 2 ^ 100 + 2), (3, 1)])

theorem witness_DecryptErrors :
    (idle [(1, 7)]).isValid 3 = false ∧ ((idle [(3, 7)]).isValid 3 = true ∧ (idle [(3, 7)]).isValid 1 = false) ∧
      ((idle [(1, 0), (3, 7)]).isValid 3 = true ∧ (idle [(1, 0), (3, 7)]).isValid 1 = true ∧
        (idle [(1, 0), (3, 7)]).reg 1 = 0) ∧
      (0 < receiving.reg 1 ∧ receiving.params.ctSlots < ({ receiving with ctcount := 4 } : State).ctcount.toNat) ∧
      (1 < (withCts [1, 5, 9] (idle [(1, 5), (3, 3)])).ctcount.toNat ∧
        (withCts [1, 5, 9] (idle [(1, 5), (3, 3)])).reg 1 ≤ (withCts [1, 5, 9] (idle [(1, 5), (3, 3)])).ct 1 ∧
        ∀ j, j < 1 →
          (withCts [1, 5, 9] (idle [(1, 5), (3, 3)])).ct j < (withCts [1, 5, 9] (idle [(1, 5), (3, 3)])).reg 1) ∧
      (overflowing.ctcount.toNat ≤ overflowing.params.ctSlots ∧
        (∀ i, i < overflowing.ctcount.toNat → overflowing.ct i < overflowing.reg 1) ∧ overflowing.abortPending = false ∧
        overflowing.params.outBytes <
          ((List.range overflowing.ctcount.toNat).flatMap fun i =>
            beMin (overflowing.ct i ^ overflowing.reg 3 % overflowing.reg 1)).length) := by decide +kernel

theorem witness_EmptyMessageAndSequence :
    (idle [(1, 2 ^ 95), (2, 3)]).isValid 2 = true ∧ (idle [(1, 2 ^ 95), (2, 3)]).isValid 1 = true ∧
      96 ≤ bitLen ((idle [(1, 2 ^ 95), (2, 3)]).reg 1) ∧ (idle [(1, 2 ^ 95), (2, 3)]).msglen = 0 ∧
      (idle [(1, 2 ^ 95), (2, 3)]).abortPending = false ∧ 1 ≤ (idle [(1, 1), (3, 7)]).reg 1 ∧
      (idle [(1, 1), (3, 7)]).ctcount = 0 := by decide +kernel

/-- A schedule that reports block 1 before block 0, and one that stops halfway. The single steps: a dispatch to lane 0, to
lane 1 (the lowest free one) and with no free lane; the step of a busy and of a free lane; the arbiter's before every block is
reported, under a pending abort and at the end. -/
theorem witness_LaneOrderDoesNotMatter :
    receiving.params.Legal ∧ receiving.unit = some (DecryptUnit.start receiving.params) ∧
      receiving.runningDecrypt = some (3, 1) ∧ checkDecrypt 3 1 receiving = none ∧ receiving.abortPending = false ∧
      ((runLanes receiving [.dispatch, .dispatch, .lane 1]).unit.map fun u => u.allReported receiving.ctcount.toNat) =
        some false ∧
      ((runLanes receiving [.dispatch, .dispatch, .lane 1, .dispatch, .lane 1, .lane 0]).unit.map fun u =>
        u.allReported receiving.ctcount.toNat) = some true ∧
      (runLanes receiving [.dispatch]).unit = some ⟨1, [.busy 0, .free], [none, none, none]⟩ ∧
      (runLanes receiving [.dispatch, .dispatch]).unit = some ⟨2, [.busy 0, .busy 1], [none, none, none]⟩ ∧
      (runLanes receiving [.dispatch, .dispatch, .lane 1, .dispatch, .lane 1, .lane 0]).unit =
        some ⟨3, [.free, .free], [some 4, some 0, some 3]⟩ ∧
      receiving.ctcount.toNat = 3 ∧ (moving .dispatch receiving).script = .dispatch :: [] ∧
      (moving (.lane 1) receiving).script = .lane 1 :: [] ∧ (moving .arbiter receiving).script = .arbiter :: [] ∧
      ({ receiving with abortPending := true } : State).abortPending = true := by decide +kernel

/-- The second prime of the round trip's key: 7 * 2^92 + 1, by Lucas's test with base 3. -/
def bigPrime : Nat := 7 * 2 ^ 92 + 1

theorem pow_ne_one_of_modExp {k v : Nat} (h : modExp 3 k bigPrime = v) (h1 : v ≠ 1) :
    ((3 : Nat) : ZMod bigPrime) ^ k ≠ 1 := by
  intro he
  have h2 : ((3 ^ k : Nat) : ZMod bigPrime) = ((1 : Nat) : ZMod bigPrime) := by rw [Nat.cast_pow, he, Nat.cast_one]
  have h3 : 3 ^ k % bigPrime = 1 % bigPrime := (ZMod.natCast_eq_natCast_iff _ _ _).1 h2
  rw [← modExp_eq, h] at h3
  exact h1 (h3.trans (by decide))

theorem prime_bigPrime : Nat.Prime bigPrime := by
  refine lucas_primality bigPrime ((3 : Nat) : ZMod bigPrime) ?_ ?_
  · have h : modExp 3 (bigPrime - 1) bigPrime = 1 := by decide +kernel
    rw [modExp_eq] at h
    have h2 : 3 ^ (bigPrime - 1) ≡ 1 [MOD bigPrime] := by
      show 3 ^ (bigPrime - 1) % bigPrime = 1 % bigPrime
      rw [h]; decide
    have h3 := (ZMod.natCast_eq_natCast_iff _ _ _).2 h2
    rw [Nat.cast_pow] at h3
    rw [h3, Nat.cast_one]
  · intro r hr hd
    have hd' : r ∣ 7 * 2 ^ 92 := hd
    have hr2 : r = 7 ∨ r = 2 := by
      rcases (Nat.Prime.dvd_mul hr).1 hd' with h | h
      · exact Or.inl ((Nat.prime_dvd_prime_iff_eq hr (by norm_num)).1 h)
      · exact Or.inr ((Nat.prime_dvd_prime_iff_eq hr (by norm_num)).1 (hr.dvd_of_dvd_pow h))
    rcases hr2 with rfl | rfl
    · exact pow_ne_one_of_modExp rfl (by decide +kernel)
    · exact pow_ne_one_of_modExp rfl (by decide +kernel)

/-- n = 3 * bigPrime has 97 bits, so blocks of one byte; e = 65537 and its inverse; a message with a zero byte. -/
def roundTrip : State :=
  withMsg [65, 0] (idle [(1, 3 * bigPrime), (2, 65537), (3, 49516392664042058969818005505)])

theorem witness_RoundTripRecoversTheMessage :
    roundTrip.params.Legal ∧ roundTrip.reg 1 < 2 ^ roundTrip.params.maxBits ∧ Nat.Prime 3 ∧ Nat.Prime bigPrime ∧
      3 ≠ bigPrime ∧ roundTrip.reg 1 = 3 * bigPrime ∧
      roundTrip.reg 2 * roundTrip.reg 3 % ((3 - 1) * (bigPrime - 1)) = 1 ∧ roundTrip.isValid 2 = true ∧
      roundTrip.isValid 3 = true ∧ roundTrip.isValid 1 = true ∧ blockSize (roundTrip.reg 1) = ((1 : Nat) : Int) ∧ 0 < 1 ∧
      roundTrip.msglen.toNat ≤ roundTrip.params.msgBytes ∧ roundTrip.msglen.toNat ≤ roundTrip.params.outBytes ∧
      ceilDiv roundTrip.msglen.toNat 1 ≤ roundTrip.params.ctSlots ∧ roundTrip.abortPending = false :=
  ⟨by decide +kernel, by decide +kernel, by norm_num, prime_bigPrime, by decide +kernel, by decide +kernel,
    by decide +kernel, by decide +kernel, by decide +kernel, by decide +kernel, by decide +kernel, by decide,
    by decide +kernel, by decide +kernel, by decide +kernel, by decide +kernel⟩

theorem witness_CheckErrorsComeFirst :
    checkOf (.modinv 3 1 2) (idle []) = some ⟨.uninit, 0, 1⟩ ∧
      checkOf (.genprime 3 1) { idle [] with abortPending := true } = some ⟨.generationFailed, 1, 0⟩ := by decide +kernel

theorem witness_CancelledEffects :
    checkOf (.encrypt 2 1) { sending with abortPending := true } = none ∧
      checkOf (.decrypt 3 1) { receiving with abortPending := true } = none ∧
      checkOf .nop { idle [] with abortPending := true } = none ∧
      checkOf (.genprime 2 8) { makingPrime with abortPending := true } = none ∧
      drawsEntropy .nop = false ∧ ({ makingPrime with abortPending := true } : State).busy = true ∧
      ∃ u, exec (.genprime 2 8) makingPrime = .next u ∧ u.busy = false :=
  ⟨by decide +kernel, by decide +kernel, by decide +kernel, by decide +kernel, rfl, by decide +kernel,
    next_of (by decide +kernel)⟩

/-- An execution-phase error, a cancelled command and CAPACITY subcode 5. -/
theorem witness_ErrorsArePrecise :
    (held 0x01312000 [(1, 4), (2, 6)]).busy = true ∧
      (∃ t, exec (.modinv 3 1 2) (held 0x01312000 [(1, 4), (2, 6)]) = .next t ∧
        (t.busy, t.errcode) = (false, ErrCode.invalidModulus)) ∧
      (∃ t, exec (.decrypt 3 1) { receiving with abortPending := true } = .next t ∧
        (t.busy, t.errcode) = (false, ErrCode.cancelled)) ∧
      ∃ t, exec (.decrypt 3 1) { overflowing with run := .running 0x07031000 } = .next t ∧
        (t.busy, t.errcode, t.subcode) = (false, ErrCode.capacity, 5) :=
  ⟨by decide +kernel, next_of (by decide +kernel), next_of (by decide +kernel), next_of (by decide +kernel)⟩

/-- A completion, and a command that waits for entropy. -/
theorem witness_CompletionsRecordAndKeep :
    makingPrime.busy = true ∧ (∃ t, exec (.genprime 2 8) makingPrime = .next t ∧ t.done = true) ∧
      ∃ t, exec (.genprime 2 8) (held 0x04200008 []) = .next t ∧ t = held 0x04200008 [] :=
  ⟨by decide +kernel, next_of (by decide +kernel), next_of (f := id) (by decide +kernel)⟩

theorem witness_RecordsAreTabled :
    makingPrime.params.Legal ∧ makingPrime.busy = true ∧
      (∃ t, exec (.genprime 2 8) makingPrime = .next t ∧ (t.busy, t.errcode) = (false, ErrCode.noError)) ∧
      (∃ t, exec (.modinv 3 1 15) (held 0x0131F000 [(1, 4)]) = .next t ∧
        (t.busy, t.errcode, t.index) = (false, ErrCode.uninit, 15)) ∧
      ∃ t, exec (.decrypt 3 1) { withCts [1, 5, 9] (idle [(1, 5), (3, 3)]) with run := .running 0x07031000 } = .next t ∧
        (t.busy, t.errcode, t.index) = (false, ErrCode.decryptionFailed, 1) :=
  ⟨by decide +kernel, by decide +kernel, next_of (by decide +kernel), next_of (by decide +kernel),
    next_of (by decide +kernel)⟩

theorem witness_FrameOfRegisterCommands :
    ∃ t, exec (.genprime 2 8) makingPrime = .next t ∧ t.reg 2 = 193 := next_of (by decide +kernel)

theorem witness_FrameOfEncrypt :
    sending.params.Legal ∧ ∃ t, exec (.encrypt 2 1) sending = .next t ∧ t.ctcount = 3 :=
  ⟨by decide +kernel, next_of (by decide +kernel)⟩

theorem witness_FrameOfDecrypt :
    receiving.params.Legal ∧ ∃ t, exec (.decrypt 3 1) receiving = .next t ∧ t.outlen = 2 :=
  ⟨by decide +kernel, next_of (by decide +kernel)⟩

/-- The invariant of a state whose memory lists nothing and which runs no lane machine. -/
theorem inv_of_plain (s : State) (hl : s.params.Legal) (hm : s.mem.cells = []) (hc : s.mem.ctDraw.length = s.params.ctSlots)
    (hr : ∀ k : Reg, s.reg k < 2 ^ s.params.maxBits ∧ (s.isValid k = false → s.reg k = 0)) (hs : StatusInv s)
    (hu : s.unit = none) : Inv s where
  legal := hl
  memory := ⟨by simp [Memory.wf, hm], by simp [hm], hc⟩
  regs := ⟨fun k => (hr k).1, fun k => (hr k).2⟩
  status := hs
  lanes := fun u h => by rw [hu] at h; cases h

/-- An idle engine with a completion recorded and its interrupt off. -/
def finished : State := { idle [(1, 5)] with done := true }

theorem inv_finished (irqen : Bool) (script : List Event) : Inv { finished with irqen := irqen, script := script } :=
  inv_of_plain _ (by show tiny.Legal; decide) (by show (idle [(1, 5)]).mem.cells = []; decide +kernel)
    (by show (idle [(1, 5)]).mem.ctDraw.length = 3; decide +kernel)
    (by
      show ∀ k : Reg, (idle [(1, 5)]).reg k < 2 ^ 128 ∧ ((idle [(1, 5)]).isValid k = false → (idle [(1, 5)]).reg k = 0)
      decide +kernel)
    ⟨fun h => by simp [finished, idle, load, State.resetWith, State.writeReg] at h,
      fun w h => by simp [finished, idle, load, State.resetWith, State.writeReg] at h,
      fun h => by simp [State.busy, finished, idle, load, State.resetWith, State.writeReg] at h,
      fun h => by simp [finished, idle, load, State.resetWith, State.writeReg] at h,
      fun _ => by simp [finished, idle, load, State.resetWith, State.writeReg]⟩
    rfl

/-- A running NOP, the interrupt on. -/
def waiting : State := { held 0 [(1, 5)] with irqen := true }

theorem inv_waiting : Inv waiting :=
  inv_of_plain _ (by show tiny.Legal; decide) (by show (idle [(1, 5)]).mem.cells = []; decide +kernel)
    (by show (idle [(1, 5)]).mem.ctDraw.length = 3; decide +kernel)
    (by
      show ∀ k : Reg, (idle [(1, 5)]).reg k < 2 ^ 128 ∧ ((idle [(1, 5)]).isValid k = false → (idle [(1, 5)]).reg k = 0)
      decide +kernel)
    ⟨fun h => by simp [waiting, held, idle, load, State.resetWith, State.writeReg] at h,
      fun w h => by cases h; rfl,
      fun _ => by simp [waiting, held, idle, load, State.resetWith, State.writeReg],
      fun h => by simp [waiting, held, idle, load, State.resetWith, State.writeReg] at h,
      fun _ => by simp [waiting, held, idle, load, State.resetWith, State.writeReg]⟩
    rfl

/-- The DECRYPT above with block 0 on lane 0 and block 1 reported from lane 1. -/
def halfway : State := runLanes receiving [.dispatch, .dispatch, .lane 1]

theorem inv_halfway : Inv halfway where
  legal := by decide +kernel
  memory := ⟨by decide +kernel, by decide +kernel, by decide +kernel⟩
  regs := ⟨by decide +kernel, by decide +kernel⟩
  status :=
    ⟨fun _ => by decide +kernel,
      fun w h => by
        have : halfway.run = .running 0x07031000 := by decide +kernel
        rw [this] at h; cases h; decide +kernel,
      fun _ => by decide +kernel, by decide +kernel, by decide +kernel⟩
  lanes := by
    intro u hu
    have hunit : halfway.unit = some ⟨2, [.busy 0, .free], [none, some 0, none]⟩ := by decide +kernel
    rw [hunit] at hu
    cases hu
    refine ⟨3, 1, by decide +kernel, by decide +kernel, ?_⟩
    refine ⟨by decide +kernel, by decide +kernel, by decide +kernel, ?_, ?_, ?_, ?_⟩
    · intro i h
      have : i = 0 := by simpa using h
      subst this; decide
    · intro l l' i h h'
      rcases l with _ | _ | l <;> rcases l' with _ | _ | l' <;> simp at h h' ⊢
    · intro i h hn
      have h' : i < 2 := h
      have : i = 0 ∨ i = 1 := by omega
      rcases this with rfl | rfl
      · decide
      · simp at hn
    · intro i v h
      rcases i with _ | _ | _ | i
      · simp at h
      · have : v = 0 := by simpa using h.symm
        subst this; exact ⟨by decide, by decide +kernel⟩
      · simp at h
      · simp at h

theorem witness_StepKeepsTheInvariant : Inv halfway ∧ Inv waiting ∧ Inv finished :=
  ⟨inv_halfway, inv_waiting, inv_finished false []⟩

theorem witness_OperandsAreFrozenWhileRunning :
    halfway.run = .running 0x07031000 ∧
      ∃ t, step { halfway with script := [.dispatch] } = .next t ∧ t.run = .running 0x07031000 :=
  ⟨by decide +kernel, next_of (by decide +kernel)⟩

/-- A PTEST that sets PRIME, and a write to BZERO. -/
theorem witness_OnlyPtestWritesPrimeOnlyResetClearsValid :
    (∃ t, step (held 0x03010001 [(1, 3)]) = .next t ∧ t.prime = true) ∧
      (∀ rest, (held 0x03010001 [(1, 3)]).script ≠ .hardReset :: rest) ∧
      (∀ addr width v rest, (held 0x03010001 [(1, 3)]).script ≠ .write addr width v :: rest) ∧
      windowOffset tiny (tiny.base + 0x044) ≠ some 0x020 := by
  have h : (held 0x03010001 [(1, 3)]).script = [] := by decide +kernel
  refine ⟨next_of (by decide +kernel), fun rest => ?_, fun _ _ _ rest => ?_, by decide⟩ <;> rw [h] <;> simp

theorem witness_InterruptRisesOnlyOnCompletion :
    (Inv waiting ∧ waiting.irq = false ∧ ∃ t, step waiting = .next t ∧ t.irq = true) ∧
      (Inv { finished with irqen := false, script := [.write (tiny.base + 0x020) 4 2] } ∧
        ∃ t, step { finished with irqen := false, script := [.write (tiny.base + 0x020) 4 2] } = .next t ∧ t.irq = true) ∧
      waiting.busy = true ∧ ∃ t, exec .nop waiting = .next t ∧ t.busy = false :=
  ⟨⟨inv_waiting, by decide +kernel, next_of (by decide +kernel)⟩,
    ⟨inv_finished false _, next_of (by decide +kernel)⟩, by decide +kernel, next_of (by decide +kernel)⟩

theorem witness_ResetMeetsTheInvariant : Params.default.Legal ∧ tiny.Legal := by decide

/-- A reset of an idle engine, of a running illegal word, of a running NOP, of a command whose check fails and of a running
GENPRIME that has an outcome: the clauses on the pairs taken. -/
theorem witness_HardResetValues :
    (moving .hardReset halfway).params.Legal ∧ (moving .hardReset halfway).script = .hardReset :: [] ∧
      (moving .hardReset (idle [])).run = .idle ∧
      ((moving .hardReset (held 1 [])).run = .running 1 ∧ decode 1 = .error .nonzeroField) ∧
      ((moving .hardReset (held 0 [])).run = .running 0 ∧ decode 0 = .ok .nop ∧ drawsEntropy .nop = false) ∧
      (decode 0x03010001 = .ok (.ptest 1 1) ∧ checkOf (.ptest 1 1) (held 0x03010001 []) ≠ none) ∧
      (moving .hardReset makingPrime).run = .running 0x04200008 ∧ decode 0x04200008 = .ok (.genprime 2 8) ∧
      (moving .hardReset makingPrime).busy = true ∧
      ∃ u, exec (.genprime 2 8) { moving .hardReset makingPrime with abortPending := false } = .next u ∧ u.busy = false :=
  ⟨by decide +kernel, by decide +kernel, by decide +kernel, by decide +kernel, by decide +kernel, by decide +kernel,
    by decide +kernel, by decide +kernel, by decide +kernel, next_of (by decide +kernel)⟩

/-- A soft reset of an idle engine and of a running illegal word, ENCRYPT (one of more blocks than there are slots), DECRYPT
and GENPRIME. -/
theorem witness_SoftResetKeepsTheRam :
    (idle []).params.Legal ∧ (4 : Word).getLsbD 2 = true ∧
      (moving (.write (tiny.base + 0x020) 4 4) (idle [])).script = .write ((idle []).params.base + 0x020) 4 4 :: [] ∧
      (moving (.write (tiny.base + 0x020) 4 4) (idle [])).busy = false ∧
      ((held 1 []).run = .running 1 ∧ decode 1 = .error .nonzeroField) ∧
      decode 0x06021000 = .ok (.encrypt 2 1) ∧ decode 0x07031000 = .ok (.decrypt 3 1) ∧
      decode 0x04200008 = .ok (.genprime 2 8) ∧ (held 0x06021000 []).run = .running 0x06021000 ∧
      128 < ({ held 0x06021000 [(1, 2 ^ 95), (2, 3)] with msglen := 1000 } : State).encryptCount 1 := by decide +kernel

theorem witness_ReadsHaveNoSideEffect :
    (idle []).params.Legal ∧ (moving (.read 7 2) (idle [])).script = .read 7 2 :: [] := by decide +kernel

/-- Each cause of a bus error, at the ends of its range. -/
theorem witness_BusErrorsChangeNothing :
    (idle []).params.Legal ∧ 0x3FFFF < 0x40000 ∧ 2 ≠ 4 ∧ 0x3FFFF % 4 ≠ 0 ∧
      (∀ off ∈ [0x01C, 0x048, 0xFFC], off < 0x1000 ∧
        off ∉ [0x000, 0x004, 0x008, 0x00C, 0x010, 0x014, 0x018, 0x020, 0x024, 0x028, 0x02C, 0x030, 0x034, 0x038, 0x03C, 0x040,
          0x044]) ∧
      (∀ off ∈ [0x3000, 0xFFFC], 0x3000 ≤ off ∧ off < 0x10000) ∧
      (∀ off ∈ [0x10600, 0x1FFFC],
        0x10000 ≤ off ∧ off < 0x20000 ∧ (idle []).params.ctSlots ≤ (off - 0x10000) / 0x200) ∧
      (∀ off ∈ [0x20010, 0x2FFFC], 0x20000 + (idle []).params.msgBytes ≤ off ∧ off < 0x30000) ∧
      (∀ off ∈ [0x30010, 0x3FFFC], 0x30000 + (idle []).params.outBytes ≤ off) ∧
      (moving (.read (tiny.base + 0x048) 4) (idle [])).script = .read ((idle []).params.base + 0x048) 4 :: [] ∧
      (moving (.write (tiny.base + 0x048) 4 1) (idle [])).script = .write ((idle []).params.base + 0x048) 4 1 :: [] := by
  decide +kernel

theorem witness_WindowsAreLockedWhileBusy :
    (held 0 []).params.Legal ∧ (held 0 []).busy = true ∧ 0x1000 ≤ 0x1000 ∧ 0x3FFFF < 0x40000 ∧
      csrAt 0x044 = some .bzero ∧
      (moving (.read (tiny.base + 0x1000) 4) (held 0 [])).script = .read ((held 0 []).params.base + 0x1000) 4 :: [] ∧
      (moving (.write (tiny.base + 0x038) 4 1) (held 0 [])).script = .write ((held 0 []).params.base + 0x038) 4 1 :: [] ∧
      (moving (.write (tiny.base + 0x020) 4 1) (held 0 [])).script = .write ((held 0 []).params.base + 0x020) 4 1 :: [] := by
  decide +kernel

/-- Limbs 0, 3 (the last with storage), 4 and 127 of B15, Idle and busy. -/
theorem witness_RegisterWindowAccess :
    (idle []).params.Legal ∧ (∀ j ∈ [0, 3], j < 128 ∧ j < (idle []).params.maxBits / 32) ∧
      (∀ j ∈ [4, 127], j < 128 ∧ (idle []).params.maxBits / 32 ≤ j) ∧ (idle []).busy = false ∧ (held 0 []).busy = true ∧
      (moving (.write (tiny.base + (0x1000 + 0x200 * 15 + 4 * 3)) 4 1) (idle [])).script =
        .write ((idle []).params.base + (0x1000 + 0x200 * (15 : Reg).val + 4 * 3)) 4 1 :: [] ∧
      (moving (.read (tiny.base + (0x1000 + 0x200 * 15 + 4 * 127)) 4) (held 0 [])).script =
        .read ((held 0 []).params.base + (0x1000 + 0x200 * (15 : Reg).val + 4 * 127)) 4 :: [] := by decide +kernel

theorem witness_BzeroClearsRegisters :
    (idle []).params.Legal ∧ (idle []).busy = false ∧ (held 0 []).busy = true ∧
      (moving (.write (tiny.base + 0x044) 4 0x8001) (idle [])).script =
        .write ((idle []).params.base + 0x044) 4 0x8001 :: [] ∧
      (moving (.read (tiny.base + 0x044) 4) (idle [])).script = .read ((idle []).params.base + 0x044) 4 :: [] ∧
      (0x8001 : Word).getLsbD 15 = true ∧ (0x8001 : Word).getLsbD 1 = false := by decide +kernel

/-- Limbs 0, 3, 4 and 127 of the last slot. -/
theorem witness_CiphertextWindowAccess :
    (idle []).params.Legal ∧ (idle []).busy = false ∧ 2 < (idle []).params.ctSlots ∧
      (∀ j ∈ [0, 3], j < 128 ∧ j < (idle []).params.maxBits / 32) ∧
      (∀ j ∈ [4, 127], j < 128 ∧ (idle []).params.maxBits / 32 ≤ j) ∧
      (moving (.write (tiny.base + (0x10000 + 0x200 * 2 + 4 * 3)) 4 1) (idle [])).script =
        .write ((idle []).params.base + (0x10000 + 0x200 * 2 + 4 * 3)) 4 1 :: [] ∧
      (moving (.read (tiny.base + (0x10000 + 0x200 * 2 + 4 * 4)) 4) (idle [])).script =
        .read ((idle []).params.base + (0x10000 + 0x200 * 2 + 4 * 4)) 4 :: [] := by decide +kernel

/-- The last words of MSG and of OUT. -/
theorem witness_MessageAndOutputByteLanes :
    (idle []).params.Legal ∧ (idle []).busy = false ∧ (0x2000C = 0x20000 + 4 * 3 ∧ 4 * 3 < (idle []).params.msgBytes) ∧
      (0x3000C = 0x30000 + 4 * 3 ∧ 4 * 3 < (idle []).params.outBytes) ∧
      (moving (.read (tiny.base + 0x2000C) 4) (idle [])).script = .read ((idle []).params.base + 0x2000C) 4 :: [] ∧
      (moving (.write (tiny.base + 0x3000C) 4 1) (idle [])).script = .write ((idle []).params.base + 0x3000C) 4 1 :: [] := by
  decide +kernel

theorem witness_CtrlAccess :
    (held 0 []).params.Legal ∧ (3 : Word).getLsbD 2 = false ∧ (7 : Word).getLsbD 2 = true ∧
      (moving (.write (tiny.base + 0x020) 4 3) (held 0 [])).script = .write ((held 0 []).params.base + 0x020) 4 3 :: [] ∧
      (moving (.read (tiny.base + 0x020) 4) (held 0 [])).script = .read ((held 0 []).params.base + 0x020) 4 :: [] := by
  decide +kernel

theorem witness_StatusWriteOneToClear :
    (held 0 []).params.Legal ∧
      (moving (.write (tiny.base + 0x024) 4 0x16) (held 0 [])).script =
        .write ((held 0 []).params.base + 0x024) 4 0x16 :: [] ∧ Inv waiting ∧ waiting.busy = true :=
  ⟨by decide +kernel, by decide +kernel, inv_waiting, by decide +kernel⟩

theorem witness_ConstantCountAndLengthRegisters :
    (idle []).params.Legal ∧ (idle []).busy = false ∧ (0x018 = 0x018 ∧ (0 : Nat) = (idle []).params.maxAttempts) ∧
      (0x030 = 0x030 ∧ sending.msglen = 3) ∧
      (moving (.read (tiny.base + 0x018) 4) (idle [])).script = .read ((idle []).params.base + 0x018) 4 :: [] ∧
      (moving (.read (tiny.base + 0x030) 4) sending).script = .read (sending.params.base + 0x030) 4 :: [] ∧
      (moving (.write (tiny.base + 0x030) 4 0xFFFFFFFF) (idle [])).script =
        .write ((idle []).params.base + 0x030) 4 0xFFFFFFFF :: [] ∧
      (moving (.write (tiny.base + 0x038) 4 0xFFFFFFFF) (idle [])).script =
        .write ((idle []).params.base + 0x038) 4 0xFFFFFFFF :: [] ∧
      (moving (.write (tiny.base + 0x034) 4 7) (idle [])).script = .write ((idle []).params.base + 0x034) 4 7 :: [] := by
  decide +kernel

theorem witness_StatusErrinfoBvalidBits :
    (held 0 []).params.Legal ∧
      (moving (.read (tiny.base + 0x024) 4) (held 0 [])).script = .read ((held 0 []).params.base + 0x024) 4 :: [] ∧
      (moving (.read (tiny.base + 0x02C) 4) (held 0 [])).script = .read ((held 0 []).params.base + 0x02C) 4 :: [] ∧
      (moving (.read (tiny.base + 0x040) 4) (held 0 [])).script = .read ((held 0 []).params.base + 0x040) 4 :: [] := by
  decide +kernel

end Sys2Proof.Tests
end

namespace Sys2Proof.Machine

/-! ### A step that takes the script's first event -/

/-- R115: the step of a legal engine takes the event that stands first in the script. -/
theorem step_event {s : State} {e : Event} {rest : List Event} (hl : s.params.Legal) (hs : s.script = e :: rest) :
    step s = eventStep e { s with script := rest } := by
  rw [step, if_pos hl, nextMove, hs]

/-! ### Where an offset of the window leads (R101) -/

theorem csrAt_bounds {off : Nat} {c : Csr} (h : csrAt off = some c) : off < 0x1000 ∧ off % 4 = 0 := by
  unfold csrAt at h
  split at h
  case h_18 => exact absurd h (by simp)
  all_goals decide

theorem locate_csr (p : Params) {off : Nat} {c : Csr} (h : csrAt off = some c) : locate p off = some (.csr c) := by
  rw [locate, if_pos (csrAt_bounds h).1, h]; rfl

/-- R34: limb j of B[k] stands at 0x1000 + 0x200*k + 4*j. -/
theorem locate_breg (p : Params) (k : Reg) {j : Nat} (hj : j < 128) :
    locate p (0x1000 + 0x200 * k.val + 4 * j) = some (.breg k j) := by
  have hk := k.isLt
  have hreg : (0x1000 + 0x200 * k.val + 4 * j - 0x1000) / 0x200 = k.val := by omega
  have hlimb : (0x1000 + 0x200 * k.val + 4 * j - 0x1000) % 0x200 / 4 = j := by omega
  rw [locate, if_neg (by omega), if_pos (by omega), hreg, hlimb, Fin.ofNat_val_eq_self]

/-- R63: limb j of CT[i] stands at 0x10000 + 0x200*i + 4*j. -/
theorem locate_ct (p : Params) {i j : Nat} (hi : i < p.ctSlots) (hs : p.ctSlots ≤ 128) (hj : j < 128) :
    locate p (0x10000 + 0x200 * i + 4 * j) = some (.ct i j (0x10000 + 0x200 * i + 4 * j)) := by
  have hslot : (0x10000 + 0x200 * i + 4 * j - ctBase) / 0x200 = i := by unfold ctBase; omega
  have hlimb : (0x10000 + 0x200 * i + 4 * j - ctBase) % 0x200 / 4 = j := by unfold ctBase; omega
  rw [locate, if_neg (by omega), if_neg (by omega), if_neg (by unfold ctBase; omega), if_pos (by unfold msgBase; omega),
    hslot, hlimb, if_pos hi]

/-- R100, R12: the window begins at BASE. -/
theorem windowOffset_base (p : Params) {off : Nat} (h : off < 0x40000) : windowOffset p (p.base + off) = some off := by
  rw [windowOffset, if_pos (by omega), Nat.add_sub_cancel_left]

theorem target_of_locate {s : State} {off : Nat} {loc : Loc} (h4 : off % 4 = 0) (hloc : locate s.params off = some loc) :
    s.target off 4 = some loc := by
  rw [State.target, if_neg (by omega), hloc]

/-- What a location reads as does not depend on the moves to come. -/
theorem readLoc_script (s : State) (rest : List Event) (loc : Loc) :
    ({ s with script := rest } : State).readLoc loc = s.readLoc loc := by
  cases loc with
  | csr c => cases c <;> rfl
  | _ => rfl

/-- R107, R109, R110: a 32-bit host read of a mapped location. -/
theorem busRead_mapped {s : State} {off : Nat} {loc : Loc} (hoff : off < 0x40000) (h4 : off % 4 = 0)
    (hloc : locate s.params off = some loc) :
    s.busRead (s.params.base + off) 4 =
      { s with bus := if s.busy && loc.readLocked then .error else .data (s.readLoc loc) } := by
  simp only [State.busRead, windowOffset_base _ hoff, target_of_locate h4 hloc]
  split <;> rfl

/-- R107, R110: a 32-bit host write to a mapped location. -/
theorem busWrite_mapped {s : State} {off : Nat} {loc : Loc} (v : Word) (hoff : off < 0x40000) (h4 : off % 4 = 0)
    (hloc : locate s.params off = some loc) :
    s.busWrite (s.params.base + off) 4 v =
      if s.busy && loc.writeLocked then { s with bus := .error } else { s.writeLoc loc v with bus := .done } := by
  simp only [State.busWrite, windowOffset_base _ hoff, target_of_locate h4 hloc]

section Access

variable {s : State} {off : Nat} {rest : List Event}

/-- A step in which the host reads a mapped location. -/
theorem step_read {loc : Loc} (hl : s.params.Legal) (hs : s.script = .read (s.params.base + off) 4 :: rest)
    (hoff : off < 0x40000) (h4 : off % 4 = 0) (hloc : locate s.params off = some loc) :
    step s = .next { s with
      script := rest, bus := if s.busy && loc.readLocked then .error else .data (s.readLoc loc) } := by
  rw [step_event hl hs, ← readLoc_script s rest loc]
  exact congrArg Host.Outcome.next (busRead_mapped (s := { s with script := rest }) hoff h4 hloc)

/-- A step in which the host writes a mapped location. -/
theorem step_write {loc : Loc} {v : Word} (hl : s.params.Legal)
    (hs : s.script = .write (s.params.base + off) 4 v :: rest)
    (hoff : off < 0x40000) (h4 : off % 4 = 0) (hloc : locate s.params off = some loc) :
    step s = .next (if s.busy && loc.writeLocked then { s with script := rest, bus := .error }
      else { ({ s with script := rest } : State).writeLoc loc v with bus := .done }) := by
  rw [step_event hl hs]
  exact congrArg Host.Outcome.next (busWrite_mapped (s := { s with script := rest }) v hoff h4 hloc)

/-- R42, R110: every CSR can be read at any time. -/
theorem step_readCsr {c : Csr} (hl : s.params.Legal) (hs : s.script = .read (s.params.base + off) 4 :: rest)
    (hc : csrAt off = some c) : step s = .next { s with script := rest, bus := .data (s.readCsr c) } := by
  obtain ⟨hoff, h4⟩ := csrAt_bounds hc
  simpa [Loc.readLocked, State.readLoc] using step_read hl hs (by omega) h4 (locate_csr s.params hc)

/-- A write to a CSR that is not locked takes effect (R42, R110). -/
theorem step_writeCsr {c : Csr} {v : Word} (hl : s.params.Legal)
    (hs : s.script = .write (s.params.base + off) 4 v :: rest) (hc : csrAt off = some c)
    (hu : s.busy = false ∨ (Loc.csr c).writeLocked = false) :
    step s = .next { ({ s with script := rest } : State).writeCsr c v with bus := .done } := by
  obtain ⟨hoff, h4⟩ := csrAt_bounds hc
  rw [step_write hl hs (by omega) h4 (locate_csr s.params hc), if_neg (by rcases hu with h | h <;> simp [h])]
  rfl

/-- R110: a write to MSGLEN, CTCOUNT or BZERO while BUSY = 1 gets a bus error. -/
theorem step_writeCsr_locked {c : Csr} {v : Word} (hl : s.params.Legal)
    (hs : s.script = .write (s.params.base + off) 4 v :: rest) (hc : csrAt off = some c) (hb : s.busy = true)
    (hw : (Loc.csr c).writeLocked = true) : step s = .next { s with script := rest, bus := .error } := by
  obtain ⟨hoff, h4⟩ := csrAt_bounds hc
  rw [step_write hl hs (by omega) h4 (locate_csr s.params hc), if_pos (by simp [hb, hw])]

end Access

/-! ### Acceptance and the lane machine it starts (R152, R325) -/

theorem runningDecrypt_eq_some_iff {s : State} {rb rc : Reg} :
    s.runningDecrypt = some (rb, rc) ↔ ∃ w, s.run = .running w ∧ decode w = .ok (.decrypt rb rc) := by
  unfold State.runningDecrypt
  cases hr : s.run with
  | idle => simp
  | running w =>
    cases hd : decode w with
    | error e => simp [hd]
    | ok i => cases i <;> simp [hd, decryptFields]

theorem startUnit_eq (s : State) : s.startUnit = { s with unit := s.startUnit.unit } := by
  unfold State.startUnit
  split
  · rfl
  · split <;> rfl

/-- R325: the lane machine starts exactly for a DECRYPT that passes its checks. -/
theorem startUnit_unit_cases (s : State) :
    (s.startUnit.unit = none ∧ ∀ rb rc, s.runningDecrypt = some (rb, rc) → checkDecrypt rb rc s ≠ none) ∨
      ∃ rb rc, s.runningDecrypt = some (rb, rc) ∧ checkDecrypt rb rc s = none ∧
        s.startUnit.unit = some (DecryptUnit.start s.params) := by
  unfold State.startUnit
  rcases hd : s.runningDecrypt with _ | ⟨rb, rc⟩
  · exact Or.inl ⟨rfl, fun rb rc h => by cases h⟩
  · rcases hc : checkDecrypt rb rc s with _ | f
    · exact Or.inr ⟨rb, rc, rfl, hc, by simp [hc]⟩
    · refine Or.inl ⟨by simp [hc], fun rb' rc' h => ?_⟩
      cases h
      simp [hc]

/-- The state of an acceptance before its lane machine starts: the fields that R152 lists. -/
def State.accepted (s : State) (w : Word) : State :=
  { s with
    lastcmd := w, run := .running w, done := false, err := false, errcode := .noError, subcode := 0, index := 0,
    abortPending := false }

theorem accept_eq (s : State) (w : Word) :
    s.accept w = { s.accepted w with unit := (s.accept w).unit } := startUnit_eq (s.accepted w)

/-- R152, R325: the lane machine after the acceptance of w. -/
theorem accept_unit_cases (s : State) (w : Word) :
    ((s.accept w).unit = none ∧ ∀ rb rc, decode w = .ok (.decrypt rb rc) → checkDecrypt rb rc s ≠ none) ∨
      ∃ rb rc, decode w = .ok (.decrypt rb rc) ∧ checkDecrypt rb rc s = none ∧
        (s.accept w).unit = some (DecryptUnit.start s.params) := by
  have hiff : ∀ rb rc, (s.accepted w).runningDecrypt = some (rb, rc) ↔ decode w = .ok (.decrypt rb rc) := by
    intro rb rc
    rw [runningDecrypt_eq_some_iff]
    exact ⟨fun ⟨w', hw, hd⟩ => by cases hw; exact hd, fun hd => ⟨w, rfl, hd⟩⟩
  rcases startUnit_unit_cases (s.accepted w) with ⟨hu, hc⟩ | ⟨rb, rc, hd, hc, hu⟩
  · exact Or.inl ⟨hu, fun rb rc hd => hc rb rc ((hiff rb rc).2 hd)⟩
  · exact Or.inr ⟨rb, rc, (hiff rb rc).1 hd, hc, hu⟩

end Sys2Proof.Machine

namespace Sys2Proof.Machine

/-! ### CMD, CTRL, STATUS, and the constant, count and length registers -/

/-- Settles O6: a CMD write is `accept` while Idle (`accept_unit_cases` tells the lane machine), CMDOVR while busy. -/
theorem cmdWriteAcceptsOrOverruns : Obligations.CmdWriteAcceptsOrOverruns := by
  refine ⟨fun s w rest hl hs => ?_, fun s rest hl hs => step_readCsr hl hs (c := .cmd) rfl, rfl⟩
  have hstep := step_writeCsr hl hs (c := .cmd) rfl (Or.inr rfl)
  have hbusy : ({ s with script := rest } : State).busy = s.busy := rfl
  constructor
  · intro hi
    have hacc : ({ s with script := rest } : State).writeCsr .cmd w = ({ s with script := rest } : State).accept w := by
      rw [State.writeCsr, State.writeCmd, hbusy, hi]; rfl
    refine ⟨(({ s with script := rest } : State).accept w).unit, ?_, ?_⟩
    · rw [hstep, hacc, accept_eq]; rfl
    · rcases accept_unit_cases { s with script := rest } w with ⟨hu, hno⟩ | ⟨rb, rc, hd, hc, hu⟩
      · exact ⟨fun rb rc hd hc => absurd hc (hno rb rc hd), fun _ => hu⟩
      · exact ⟨fun _ _ _ _ => hu, fun hno => absurd hc (hno rb rc hd)⟩
  · intro hb
    rw [hstep, State.writeCsr, State.writeCmd, hbusy, hb]; rfl

/-- Settles O57: `writeCtrl` in its two cases, and the word CTRL reads as for each IRQEN. -/
theorem ctrlAccess : Obligations.CtrlAccess := by
  refine fun s v rest hl => ⟨fun hs => ?_, fun hs => ?_⟩
  · have hstep := step_writeCsr hl hs (c := .ctrl) rfl (Or.inr rfl)
    rw [State.writeCsr, State.writeCtrl] at hstep
    constructor
    · intro hv
      have habort : (s.abortPending || (v.getLsbD 0 && s.busy)) =
          if v.getLsbD 0 = true ∧ s.busy = true then true else s.abortPending := by
        cases v.getLsbD 0 <;> cases s.busy <;> simp
      rw [hstep, hv, ← habort]; rfl
    · intro hv
      rw [hstep, hv]; rfl
  · rw [step_readCsr hl hs (c := .ctrl) rfl, State.readCsr, State.ctrlWord]
    cases s.irqen <;> rfl

/-- Settles O58: the write is the acknowledgement; while BUSY = 1 the invariant has DONE = ERR = 0. -/
theorem statusWriteOneToClear : Obligations.StatusWriteOneToClear := by
  refine ⟨fun s v rest hl hs => ?_, fun s hinv hb => ?_⟩
  · have hclear : ∀ x y : Bool, (if y then false else x) = (x && !y) := by decide
    rw [step_writeCsr hl hs (c := .status) rfl (Or.inr rfl), hclear, hclear, hclear]; rfl
  · obtain ⟨hdone, herr, -⟩ := hinv.status.busyClear hb
    exact ⟨hdone, herr⟩

/-- Settles O59: the words of `readCsr`, the two stores, and the CSRs whose write `writeCsr` ignores. -/
theorem constantCountAndLengthRegisters : Obligations.ConstantCountAndLengthRegisters := by
  refine fun s rest hl => ⟨fun off v hv hs => ?_, fun off w hw hs => ?_, fun v hi => ⟨fun hs => ?_, fun hs => ?_⟩,
    fun off v hoff hs => ?_⟩
  · have hread : ∀ c, csrAt off = some c → _ := fun c hc => step_readCsr hl hs hc
    obtain ⟨hmax, hlanes, hslots, hmsg, hout, hrounds, hatt, -⟩ := hl
    rcases hv with ⟨rfl, rfl⟩ | ⟨rfl, rfl⟩ | ⟨rfl, rfl⟩ | ⟨rfl, rfl⟩ | ⟨rfl, rfl⟩ | ⟨rfl, rfl⟩ | ⟨rfl, rfl⟩
    · exact ⟨by omega, hread .id rfl⟩
    · exact ⟨by omega, hread .version rfl⟩
    · rw [hread .param0 rfl, State.readCsr, param0Word, Nat.mul_comm (2 ^ 16)]
      exact ⟨by omega, rfl⟩
    · rw [hread .param1 rfl, State.readCsr, param1Word, Nat.mul_comm (2 ^ 16)]
      exact ⟨by omega, rfl⟩
    · exact ⟨by omega, hread .param2 rfl⟩
    · exact ⟨by omega, hread .param3 rfl⟩
    · exact ⟨by omega, hread .param4 rfl⟩
  · rcases hw with ⟨rfl, rfl⟩ | ⟨rfl, rfl⟩ | ⟨rfl, rfl⟩ | ⟨rfl, rfl⟩
    · exact step_readCsr hl hs (c := .msglen) rfl
    · exact step_readCsr hl hs (c := .blksize) rfl
    · exact step_readCsr hl hs (c := .ctcount) rfl
    · exact step_readCsr hl hs (c := .outlen) rfl
  · exact step_writeCsr hl hs (c := .msglen) rfl (Or.inl hi)
  · exact step_writeCsr hl hs (c := .ctcount) rfl (Or.inl hi)
  · have hro : ∃ c, csrAt off = some c ∧ (Loc.csr c).writeLocked = false ∧ ∀ t : State, t.writeCsr c v = t := by
      simp only [List.mem_cons, List.not_mem_nil, or_false] at hoff
      rcases hoff with rfl | rfl | rfl | rfl | rfl | rfl | rfl | rfl | rfl | rfl | rfl
      all_goals exact ⟨_, rfl, rfl, fun _ => rfl⟩
    obtain ⟨c, hc, hlock, hsame⟩ := hro
    rw [step_writeCsr hl hs hc (Or.inr hlock), hsame]

/-! ### The bits of STATUS, ERRINFO and BVALID (R36-R41, R56, R61) -/

theorem bit_le (f : Bool) : bit f ≤ 1 := by cases f <;> decide

theorem code_lt (c : ErrCode) : c.code < 256 := by cases c <;> decide

/-- A bit of a word is the flag f where the digit at its place is. -/
theorem getLsbD_of_digit {w : Word} {i : Nat} {f : Bool} (h : w.toNat / 2 ^ i % 2 = bit f) : w.getLsbD i = f := by
  rw [BitVec.getLsbD, Nat.testBit_eq_decide_div_mod_eq, h]
  cases f <;> rfl

theorem statusWord_toNat (s : State) :
    s.statusWord.toNat = bit s.busy + 2 * bit s.done + 4 * bit s.err + 8 * bit s.prime + 16 * bit s.cmdovr +
      2 ^ 8 * s.errcode.code := by
  have h := code_lt s.errcode
  have h0 := bit_le s.busy
  have h1 := bit_le s.done
  have h2 := bit_le s.err
  have h3 := bit_le s.prime
  have h4 := bit_le s.cmdovr
  rw [State.statusWord, BitVec.toNat_ofNat, Nat.mod_eq_of_lt (by omega)]

theorem errinfoWord_toNat (s : State) : s.errinfoWord.toNat = s.index.toNat + 2 ^ 16 * s.subcode.toNat := by
  have h := s.index.isLt
  have h' := s.subcode.isLt
  rw [State.errinfoWord, BitVec.toNat_ofNat, Nat.mod_eq_of_lt (by omega)]

theorem leSum_lt (fs : List Bool) : State.bvalidWord.leSum (fs.map bit) < 2 ^ fs.length := by
  induction fs with
  | nil => decide
  | cons f fs ih =>
    have hf := bit_le f
    rw [List.map_cons, State.bvalidWord.leSum, List.length_cons, pow_succ]
    omega

theorem leSum_digit (fs : List Bool) {k : Nat} (hk : k < fs.length) :
    State.bvalidWord.leSum (fs.map bit) / 2 ^ k % 2 = bit fs[k] := by
  induction fs generalizing k with
  | nil => exact absurd hk (by simp)
  | cons f fs ih =>
    have hf := bit_le f
    rw [List.map_cons, State.bvalidWord.leSum]
    cases k with
    | zero => rw [List.getElem_cons_zero, pow_zero]; omega
    | succ k =>
      rw [List.getElem_cons_succ, ← ih (Nat.lt_of_succ_lt_succ hk), Nat.pow_succ', ← Nat.div_div_eq_div_mul]
      congr 2
      omega

theorem bvalidWord_toNat (s : State) :
    s.bvalidWord.toNat = State.bvalidWord.leSum (s.valid.toList.map bit) ∧ s.bvalidWord.toNat < 2 ^ 16 := by
  have h := leSum_lt s.valid.toList
  rw [Vector.length_toList] at h
  have he : s.bvalidWord.toNat = State.bvalidWord.leSum (s.valid.toList.map bit) := by
    rw [State.bvalidWord, BitVec.toNat_ofNat, Nat.mod_eq_of_lt (by omega)]
  exact ⟨he, he ▸ h⟩

theorem bvalidWord_getLsbD (s : State) (k : Reg) : s.bvalidWord.getLsbD k.val = s.isValid k := by
  refine getLsbD_of_digit ?_
  rw [(bvalidWord_toNat s).1, leSum_digit _ (by simp), Vector.getElem_toList]
  rfl

theorem busy_eq_true_iff {s : State} : s.busy = true ↔ ∃ w, s.run = .running w := by
  rw [State.busy, decide_eq_true_iff]
  cases s.run <;> simp

/-- Settles O60: each word is a sum of its fields at their weights, so its bits are their digits. -/
theorem statusErrinfoBvalidBits : Obligations.StatusErrinfoBvalidBits := by
  refine ⟨fun s rest hl => ⟨fun hs => step_readCsr hl hs (c := .status) rfl, fun hs =>
    step_readCsr hl hs (c := .errinfo) rfl, fun hs => step_readCsr hl hs (c := .bvalid) rfl⟩, fun s => ?_, by decide⟩
  have hstatus := statusWord_toNat s
  have hcode := code_lt s.errcode
  have hbusy := bit_le s.busy
  have hdone := bit_le s.done
  have herr := bit_le s.err
  have hprime := bit_le s.prime
  have hover := bit_le s.cmdovr
  have herrinfo := errinfoWord_toNat s
  have hindex := s.index.isLt
  have hsub := s.subcode.isLt
  have hvalid := (bvalidWord_toNat s).2
  unfold field
  refine ⟨getLsbD_of_digit ?_, getLsbD_of_digit ?_, getLsbD_of_digit ?_, getLsbD_of_digit ?_, getLsbD_of_digit ?_,
    ?_, ?_, ?_, busy_eq_true_iff, ?_, ?_, ?_, bvalidWord_getLsbD s, ?_⟩
  all_goals omega

end Sys2Proof.Machine

namespace Sys2Proof.Machine

/-! ### Limbs of the windows (R31, R34, R63) -/

theorem limb_eq (x j : Nat) : limb x j = BitVec.ofNat 32 (x / 2 ^ (32 * j)) := by
  rw [limb, Nat.shiftRight_eq_div_pow]

theorem sameRegsBut_writeReg (s : State) (k : Reg) (v : Nat) : SameRegsBut [k] s (s.writeReg k v) := by
  intro i hi
  have hik : i ≠ k := by simpa using hi
  simp [hik]

/-- Settles O53: `step_read` and `step_write` at the register window; `setLimb` changes one limb. -/
theorem registerWindowAccess : Obligations.RegisterWindowAccess := by
  intro s k j v rest hl hj
  have hk := k.isLt
  have hloc := locate_breg s.params k hj
  refine ⟨fun hs => ?_, fun hs => ?_⟩
  · rw [step_read hl hs (by omega) (by omega) hloc]
    simp only [State.readLoc, Loc.readLocked, Bool.and_true, limb_eq]
  · have hstep := step_write hl hs (by omega) (by omega) hloc
    simp only [State.writeLoc, Loc.writeLocked, Bool.and_true] at hstep
    refine ⟨fun hb => ?_, fun hi hge => ?_, fun hi hlt => ?_⟩
    · rw [hstep, if_pos hb]
    · rw [hstep, if_neg (by simp [hi]), if_neg (by omega)]
    · rw [if_neg (by simp [hi]), if_pos hlt] at hstep
      have hreg : (s.writeReg k (setLimb (s.reg k) j v)).reg k = setLimb (s.reg k) j v := by simp
      have hvalid : (s.writeReg k (setLimb (s.reg k) j v)).isValid k = true := by simp
      refine ⟨{ s.writeReg k (setLimb (s.reg k) j v) with script := rest, bus := .done }, hstep, rfl, 
        sameRegsBut_writeReg s k _, hvalid, ?_, fun i hne => ?_⟩
      · exact (congrArg (limb · j) hreg).trans (limb_setLimb_same _ j v)
      · exact (congrArg (limb · i) hreg).trans (limb_setLimb_other _ v hne)

/-- Settles O54: `reg_bzero` and `isValid_bzero` at the step of the write. -/
theorem bzeroClearsRegisters : Obligations.BzeroClearsRegisters := by
  refine fun s v rest hl => ⟨fun hi hs => ⟨_, step_writeCsr hl hs (c := .bzero) rfl (Or.inl hi), rfl, fun k => ?_⟩,
    fun hb hs => step_writeCsr_locked hl hs (c := .bzero) rfl hb rfl, fun hs => step_readCsr hl hs (c := .bzero) rfl⟩
  have hreg := reg_bzero { s with script := rest } v k
  have hvalid := isValid_bzero { s with script := rest } v k
  constructor
  · intro hv
    rw [hv] at hreg hvalid
    exact ⟨hreg, hvalid⟩
  · intro hv
    rw [hv] at hreg hvalid
    exact ⟨hreg, hvalid⟩

/-! ### The limbs of a ciphertext slot (R63, R103) -/

theorem leValue_append (xs ys : List Byte) : leValue (xs ++ ys) = leValue xs + 256 ^ xs.length * leValue ys := by
  induction xs with
  | nil => simp [leValue]
  | cons x xs ih => rw [List.cons_append, leValue_cons, leValue_cons, ih, List.length_cons]; ring

theorem Memory.readBytes_add (m : Memory) (a p q : Nat) :
    m.readBytes a (p + q) = m.readBytes a p ++ m.readBytes (a + p) q := by
  simp only [Memory.readBytes_eq, List.range_add, List.map_append, List.map_map, Nat.add_assoc]
  rfl

/-- Limb j of a number held little-endian in n bytes is the word at its byte offset, and 0 past the bytes. -/
theorem limb_readBytes (m : Memory) (a j n : Nat) (hn : n % 4 = 0) :
    limb (leValue (m.readBytes a n)) j = if j < n / 4 then m.readWord (a + 4 * j) else 0 := by
  have hlt : ∀ b p, leValue (m.readBytes b p) < 256 ^ p := fun b p => by
    simpa using leValue_lt (m.readBytes b p)
  have hpow : 2 ^ (32 * j) = 256 ^ (4 * j) := by
    rw [show 256 = 2 ^ 8 by norm_num, ← pow_mul]; congr 1; omega
  rw [limb_eq, hpow]
  split
  · next hj =>
    obtain ⟨r, rfl⟩ := Nat.exists_eq_add_of_le (show 4 * j + 4 ≤ n by omega)
    rw [Memory.readBytes_add, Memory.readBytes_add, leValue_append, leValue_append, List.length_append,
      Memory.readBytes_length, Memory.readBytes_length, pow_add, Nat.add_assoc, Nat.mul_assoc, ← Nat.mul_add,
      Nat.add_mul_div_left _ _ (by positivity), Nat.div_eq_of_lt (hlt _ _), Nat.zero_add, Memory.readWord]
    apply BitVec.eq_of_toNat_eq
    rw [BitVec.toNat_ofNat, BitVec.toNat_ofNat]
    exact Nat.add_mul_mod_self_left _ (2 ^ 32) _
  · next hj =>
    rw [Nat.div_eq_of_lt ((hlt a n).trans_le (Nat.pow_le_pow_right (by norm_num) (by omega)))]
    rfl

theorem limb_ct {s : State} (hl : s.params.Legal) (i j : Nat) :
    limb (s.ct i) j = if j < s.params.maxBits / 32 then s.mem.readWord (ctAddr i + 4 * j) else 0 := by
  obtain ⟨⟨hmod, -⟩, -⟩ := hl
  rw [State.ct, limb_readBytes _ _ _ _ (by omega), Nat.div_div_eq_div_mul]

/-- Settles O55: `limb_ct` ties a slot's limbs to the words that the host reads and writes. -/
theorem ciphertextWindowAccess : Obligations.CiphertextWindowAccess := by
  intro s i j v rest hl hi hslot hj
  have hslots : s.params.ctSlots ≤ 128 := by
    obtain ⟨-, -, ⟨-, h⟩, -⟩ := hl
    exact h
  have hloc := locate_ct s.params hslot hslots hj
  refine ⟨fun hs => ?_, fun hs => ?_⟩
  · rw [step_read hl hs (by omega) (by omega) hloc, ← limb_eq, limb_ct hl, hi]
    rw [Bool.false_and, if_neg Bool.false_ne_true, State.readLoc]
    split <;> rfl
  · have hstep := step_write (v := v) hl hs (by omega) (by omega) hloc
    rw [hi, Bool.false_and, if_neg Bool.false_ne_true, State.writeLoc] at hstep
    refine ⟨fun hge => ?_, fun hlt => ?_⟩
    · rw [hstep, if_neg (by simpa using hge)]
    · rw [if_pos hlt] at hstep
      set t : State := { s with
        script := rest, bus := .done, mem := s.mem.writeWord (0x10000 + 0x200 * i + 4 * j) v } with ht
      have hlimb : ∀ l, limb (t.ct i) l = if l < s.params.maxBits / 32 then t.mem.readWord (ctAddr i + 4 * l) else 0 :=
        limb_ct (s := t) hl i
      refine ⟨t, hstep, rfl, ?_, fun l hne => ?_, fun a ha => ?_⟩
      · rw [hlimb, if_pos hlt]
        exact Memory.readWord_writeWord_same s.mem _ v
      · rw [hlimb, limb_ct hl, ht, Memory.readWord_writeWord_apart s.mem v (by unfold ctAddr ctBase; omega)]
      · exact Memory.read_writeBytes_of_not_mem s.mem (by rwa [leBytes_length])

/-! ### A command whose port has delivered nothing (R71, R223) -/

theorem entropyInt_nil {k : Nat} (h : 0 < k) : entropyInt k [] = .starved := by
  obtain ⟨k, rfl⟩ := Nat.exists_eq_succ_of_ne_zero h.ne'
  rfl

theorem mrTest_nil {n k : Nat} (hn : 5 ≤ n) (hodd : n % 2 = 1) (hk : 0 < k) : mrTest n k [] = .starved := by
  obtain ⟨k, rfl⟩ := Nat.exists_eq_succ_of_ne_zero hk.ne'
  have hwords : 0 < ceilDiv (bitLen n) 32 := by
    rw [lt_ceilDiv_iff (by norm_num), Nat.zero_mul, Nat.pos_iff_ne_zero]
    intro h
    have := lt_two_pow_bitLen n
    rw [h] at this
    omega
  rw [mrTest, if_neg (by omega), if_neg (by omega), if_neg (by omega), mrRounds, mrBase, entropyInt_nil hwords]
  rfl

theorem genPrime_nil (p : Params) {bits : Nat} (hb : 2 ≤ bits) : genPrime p bits [] = .starved := by
  have hwords : 0 < ceilDiv bits 32 := by rw [lt_ceilDiv_iff (by norm_num)]; omega
  rw [genPrime, List.length_nil, genPrimeFrom, if_neg (by omega), entropyInt_nil hwords]
  rfl

theorem roundsOf_pos {s : State} (hl : s.params.Legal) (rounds : BitVec 16) : 0 < s.roundsOf rounds := by
  obtain ⟨-, -, -, -, -, ⟨hrounds, -⟩, -⟩ := hl
  unfold State.roundsOf
  split
  · exact hrounds
  · next h => exact Nat.pos_of_ne_zero fun h0 => h (BitVec.eq_of_toNat_eq h0)

/-- A command that passes its checks, with no abort pending, and whose draw waits, changes nothing. -/
theorem command_settle_starved {α : Type} {s : State} {check : Option Failure} {cancelled : State} {d : Draw α}
    {use : State → α → Result} (hc : check = none) (ha : s.abortPending = false) (hd : d = .starved) :
    s.command check cancelled (s.settle d use) = .next s := by
  rw [hc, hd, command_go ha]; rfl

/-- Settles O23: the delivery is its event; each drawing command waits on its first word. -/
theorem emptyPortHoldsTheCommand : Obligations.EmptyPortHoldsTheCommand := by
  refine ⟨fun s p rest hl hs => step_event hl hs, fun s hl ha he => ⟨fun rb rounds hv h5 hodd => ?_,
    fun ra bits h2 hmax => ?_, fun ra rb rc bits h4 hmax => ?_⟩⟩
  · refine command_settle_starved ((checkPtest_eq_none_iff rb s).2 hv) ha ?_
    rw [drawPtest, he, mrTest_nil h5 hodd (roundsOf_pos hl rounds)]
  · refine command_settle_starved ((checkGenprime_eq_none_iff bits s).2 ⟨h2, hmax⟩) ha ?_
    rw [drawGenprime, he, genPrime_nil _ h2]
  · refine command_settle_starved ((checkGenkeys_eq_none_iff bits s).2 ⟨hmax, h4⟩) ha ?_
    rw [drawGenkeys, he, genPrime_nil _ (by omega)]
    rfl

end Sys2Proof.Machine

namespace Sys2Proof.Machine

/-! ### The frame of a command that writes registers only -/

/-- What a command with the destinations `dests` leaves of s in t, whatever its outcome (R33, R64). -/
structure RegisterFrame (dests : List Reg) (s t : State) : Prop where
  mem : t.mem = s.mem
  blksize : t.blksize = s.blksize
  ctcount : t.ctcount = s.ctcount
  outlen : t.outlen = s.outlen
  prime : t.prime = s.prime
  kept : SameKept s t
  regs : SameRegsBut dests s t
  valid : ∀ k, s.isValid k = true → t.isValid k = true
  entropy : t.entropy <:+ s.entropy

theorem sameKept_refl (s : State) : SameKept s s := ⟨rfl, rfl, rfl, rfl, rfl, rfl, rfl⟩

namespace RegisterFrame

variable {dests : List Reg} {s u : State}

theorem refl (dests : List Reg) (s : State) : RegisterFrame dests s s :=
  ⟨rfl, rfl, rfl, rfl, rfl, sameKept_refl s, fun _ _ => ⟨rfl, rfl⟩, fun _ h => h, List.suffix_rfl⟩

theorem complete (h : RegisterFrame dests s u) (c : ErrCode) (sub idx : Nat) :
    RegisterFrame dests s (u.complete c sub idx) where
  mem := h.mem
  blksize := h.blksize
  ctcount := h.ctcount
  outlen := h.outlen
  prime := h.prime
  kept := ⟨h.kept.params, h.kept.irqen, h.kept.cmdovr, h.kept.lastcmd, h.kept.msglen, h.kept.script, h.kept.bus⟩
  regs := h.regs
  valid := h.valid
  entropy := h.entropy

theorem raise (h : RegisterFrame dests s u) (f : Failure) : RegisterFrame dests s (u.raise f) := h.complete _ _ _

theorem succeed (h : RegisterFrame dests s u) : RegisterFrame dests s u.succeed := h.complete _ _ _

theorem writeReg (h : RegisterFrame dests s u) {k : Reg} (hk : k ∈ dests) (v : Nat) :
    RegisterFrame dests s (u.writeReg k v) where
  mem := h.mem
  blksize := h.blksize
  ctcount := h.ctcount
  outlen := h.outlen
  prime := h.prime
  kept := ⟨h.kept.params, h.kept.irqen, h.kept.cmdovr, h.kept.lastcmd, h.kept.msglen, h.kept.script, h.kept.bus⟩
  regs j hj := by
    have hjk : j ≠ k := fun he => hj (he ▸ hk)
    simpa [hjk] using h.regs j hj
  valid j hj := by
    rw [isValid_writeReg]
    split
    · rfl
    · exact h.valid j hj
  entropy := h.entropy

theorem takeSome (dests : List Reg) (s : State) (n : Nat) : RegisterFrame dests s (s.takeSome n) where
  mem := by simp
  blksize := by simp
  ctcount := by simp
  outlen := by simp
  prime := by simp
  kept := by constructor <;> simp
  regs := fun _ _ => by simp
  valid := fun _ h => by simpa using h
  entropy := takeSome_entropy_suffix s n

/-- Some pairs are gone from the front of the stream. -/
theorem leave (dests : List Reg) (s : State) {rest : List EntropyPair} (h : rest <:+ s.entropy) :
    RegisterFrame dests s { s with entropy := rest } :=
  ⟨rfl, rfl, rfl, rfl, rfl, ⟨rfl, rfl, rfl, rfl, rfl, rfl, rfl⟩, fun _ _ => ⟨rfl, rfl⟩, fun _ h => h, h⟩

end RegisterFrame

/-! ### The draws leave a suffix of the stream (R409) -/

theorem drawPtest_suffix (rb : Reg) (rounds : BitVec 16) (s : State) :
    LeavesSuffix s.entropy (drawPtest rb rounds s) := mrTest_suffix _ _ _

theorem drawGenprime_suffix (bits : BitVec 16) (s : State) : LeavesSuffix s.entropy (drawGenprime bits s) :=
  genPrime_suffix _ _ _

theorem drawGenkeys_suffix (bits : BitVec 12) (s : State) : LeavesSuffix s.entropy (drawGenkeys bits s) :=
  (genPrime_suffix _ _ _).bind fun _ _ => (genPrime_suffix _ _ _).bind fun _ _ => LeavesSuffix.got _ _

/-! ### The frames of the six commands -/

theorem execNop_frame {s t : State} (h : execNop s = .next t) : RegisterFrame [] s t := by
  rcases execNop_cases h with ⟨-, rfl⟩ | ⟨-, rfl⟩
  · exact (RegisterFrame.refl _ s).raise _
  · exact (RegisterFrame.refl _ s).succeed

theorem execModinv_frame {ra rb rc : Reg} {s t : State} (h : execModinv ra rb rc s = .next t) :
    RegisterFrame [ra] s t := by
  rcases execModinv_cases h with ⟨f, -, rfl⟩ | ⟨-, -, rfl⟩ | ⟨-, -, -, rfl⟩ | ⟨-, -, -, rfl⟩
  · exact (RegisterFrame.refl _ s).raise f
  · exact (RegisterFrame.refl _ s).raise _
  · exact (RegisterFrame.refl _ s).raise _
  · exact ((RegisterFrame.refl _ s).writeReg (by simp) _).succeed

theorem execModexp_frame {ra rb rc rd : Reg} {s t : State} (h : execModexp ra rb rc rd s = .next t) :
    RegisterFrame [ra] s t := by
  rcases execModexp_cases h with ⟨f, -, rfl⟩ | ⟨-, -, rfl⟩ | ⟨-, -, rfl⟩
  · exact (RegisterFrame.refl _ s).raise f
  · exact (RegisterFrame.refl _ s).raise _
  · exact ((RegisterFrame.refl _ s).writeReg (by simp) _).succeed

/-- PTEST writes PRIME beside the frame. -/
theorem execPtest_frame {rb : Reg} {rounds : BitVec 16} {s t : State} (h : execPtest rb rounds s = .next t) :
    RegisterFrame [] { s with prime := t.prime } t := by
  rcases execPtest_cases h with ⟨f, -, rfl⟩ | ⟨-, -, rfl⟩ | ⟨-, -, h⟩
  · exact (RegisterFrame.refl _ s).raise f
  · rw [raise_eq, complete_prime, takeSome_prime]
    exact (RegisterFrame.takeSome _ s _).raise _
  · rcases h with ⟨r, rest, hd, rfl⟩ | ⟨sub, rest, hd, rfl⟩ | ⟨-, rfl⟩
    · exact (RegisterFrame.leave _ { s with prime := r } ((drawPtest_suffix rb rounds s).1 r rest hd)).succeed
    · exact (RegisterFrame.leave _ s ((drawPtest_suffix rb rounds s).2 sub rest hd)).raise _
    · exact RegisterFrame.refl _ _

/-- R39: a PTEST that changes PRIME completes with ERRCODE = NONE. -/
theorem execPtest_prime {rb : Reg} {rounds : BitVec 16} {s t : State} (h : execPtest rb rounds s = .next t) :
    t.prime = s.prime ∨ (t.run = .idle ∧ t.errcode = .noError) := by
  rcases execPtest_cases h with ⟨f, -, rfl⟩ | ⟨-, -, rfl⟩ | ⟨-, -, h⟩
  · exact Or.inl rfl
  · exact Or.inl (takeSome_prime s _)
  · rcases h with ⟨r, rest, -, rfl⟩ | ⟨sub, rest, -, rfl⟩ | ⟨-, rfl⟩
    · exact Or.inr ⟨rfl, rfl⟩
    · exact Or.inl rfl
    · exact Or.inl rfl

theorem execGenprime_frame {ra : Reg} {bits : BitVec 16} {s t : State} (h : execGenprime ra bits s = .next t) :
    RegisterFrame [ra] s t := by
  rcases execGenprime_cases h with ⟨f, -, rfl⟩ | ⟨-, -, rfl⟩ | ⟨-, -, h⟩
  · exact (RegisterFrame.refl _ s).raise f
  · exact (RegisterFrame.takeSome _ s _).raise _
  · rcases h with ⟨c, rest, hd, rfl⟩ | ⟨sub, rest, hd, rfl⟩ | ⟨-, rfl⟩
    · exact ((RegisterFrame.leave _ s ((drawGenprime_suffix bits s).1 c rest hd)).writeReg (by simp) c).succeed
    · exact (RegisterFrame.leave _ s ((drawGenprime_suffix bits s).2 sub rest hd)).raise _
    · exact RegisterFrame.refl _ t

theorem execGenkeys_frame {ra rb rc : Reg} {bits : BitVec 12} {s t : State}
    (h : execGenkeys ra rb rc bits s = .next t) : RegisterFrame [ra, rb, rc] s t := by
  rcases execGenkeys_cases h with ⟨f, -, rfl⟩ | ⟨-, -, rfl⟩ | ⟨-, -, h⟩
  · exact (RegisterFrame.refl _ s).raise f
  · exact (RegisterFrame.takeSome _ s _).raise _
  · rcases h with ⟨p, q, rest, hd, hf⟩ | ⟨sub, rest, hd, rfl⟩ | ⟨-, rfl⟩
    · have hleave : RegisterFrame [ra, rb, rc] s { s with entropy := rest } :=
        RegisterFrame.leave _ s ((drawGenkeys_suffix bits s).1 (p, q) rest hd)
      rcases finishGenkeys_cases hf with ⟨-, rfl⟩ | ⟨-, rfl⟩
      · exact hleave.raise _
      · exact (((hleave.writeReg (by simp) _).writeReg (by simp) _).writeReg (by simp) _).succeed
    · exact (RegisterFrame.leave _ s ((drawGenkeys_suffix bits s).2 sub rest hd)).raise _
    · exact RegisterFrame.refl _ t

/-- Settles O40: the six frames. -/
theorem frameOfRegisterCommands : Obligations.FrameOfRegisterCommands := by
  have hframe : ∀ {dests : List Reg} {s t : State} {P : Prop}, RegisterFrame dests s t → SameMem s t ∧
      t.blksize = s.blksize ∧ t.ctcount = s.ctcount ∧ t.outlen = s.outlen ∧ SameKept s t ∧ SameRegsBut dests s t ∧
        (P → t.prime = s.prime) ∧ t.entropy <:+ s.entropy := fun h =>
    ⟨fun a => by rw [h.mem], h.blksize, h.ctcount, h.outlen, h.kept, h.regs, fun _ => h.prime, h.entropy⟩
  rintro i s t dests h (⟨rfl, rfl⟩ | ⟨ra, rb, rc, rfl, rfl⟩ | ⟨ra, rb, rc, rd, rfl, rfl⟩ | ⟨rb, rounds, rfl, rfl⟩ |
    ⟨ra, bits, rfl, rfl⟩ | ⟨ra, rb, rc, bits, rfl, rfl⟩)
  · exact hframe (execNop_frame h)
  · exact hframe (execModinv_frame h)
  · exact hframe (execModexp_frame h)
  · obtain ⟨hm, hb, hc, ho, -, hk, hr, -, he⟩ := execPtest_frame h
    exact ⟨fun a => by rw [hm], hb, hc, ho, ⟨hk.params, hk.irqen, hk.cmdovr, hk.lastcmd, hk.msglen, hk.script, hk.bus⟩,
      hr, fun hne => absurd rfl (hne rb rounds), he⟩
  · exact hframe (execGenprime_frame h)
  · exact hframe (execGenkeys_frame h)

/-! ### The frames of ENCRYPT and DECRYPT -/

/-- What ENCRYPT and DECRYPT leave of s in t, whatever their outcome: everything but memory, the counts and the record. -/
structure CipherFrame (s t : State) : Prop where
  b : t.b = s.b
  valid : t.valid = s.valid
  prime : t.prime = s.prime
  entropy : t.entropy = s.entropy
  kept : SameKept s t

theorem CipherFrame.sameRegs {s t : State} (h : CipherFrame s t) : SameRegs s t :=
  fun k => ⟨reg_congr h.b k, isValid_congr h.valid k⟩

/-- A completion after changes of memory, the counts and the draw counter keeps the frame. -/
theorem CipherFrame.complete (s : State) (m : Memory) (blk cnt len : Word) (d : Nat) (c : ErrCode) (sub idx : Nat) :
    CipherFrame s (({ s with mem := m, blksize := blk, ctcount := cnt, outlen := len, draws := d } : State).complete
      c sub idx) :=
  ⟨rfl, rfl, rfl, rfl, ⟨rfl, rfl, rfl, rfl, rfl, rfl, rfl⟩⟩

/-- DECRYPT from its plaintext on: CAPACITY subcode 5, or the plaintext in OUT (R324). -/
theorem finishDecrypt_cases (s : State) (pt : List Byte) :
    (s.params.outBytes < pt.length ∧ s.finishDecrypt pt = (cancelDecrypt s).raise ⟨.capacity, 5, 0⟩) ∨
      (pt.length ≤ s.params.outBytes ∧ s.finishDecrypt pt =
        ({ s.outWrite pt with outlen := BitVec.ofNat 32 pt.length } : State).succeed) := by
  unfold State.finishDecrypt
  split
  · next h => exact Or.inl ⟨h, rfl⟩
  · next h => exact Or.inr ⟨by omega, rfl⟩

theorem finishDecrypt_frame (s : State) (pt : List Byte) : CipherFrame s (s.finishDecrypt pt) := by
  rcases finishDecrypt_cases s pt with ⟨-, h⟩ | ⟨-, h⟩
  · rw [h]; exact CipherFrame.complete s _ _ _ _ _ _ _ _
  · rw [h]; exact CipherFrame.complete s _ _ _ _ _ _ _ _

theorem execEncrypt_frame {rb rc : Reg} {s t : State} (h : execEncrypt rb rc s = .next t) : CipherFrame s t := by
  rcases execEncrypt_cases h with ⟨f, -, rfl⟩ | ⟨-, -, rfl⟩ | ⟨-, -, rfl⟩
  · exact CipherFrame.complete s _ _ _ _ _ _ _ _
  · exact CipherFrame.complete s _ _ _ _ _ _ _ _
  · rw [writeCts_eq]
    exact CipherFrame.complete s _ _ _ _ _ _ _ _

theorem execDecrypt_frame {rb rc : Reg} {s t : State} (h : execDecrypt rb rc s = .next t) : CipherFrame s t := by
  rcases execDecrypt_cases h with ⟨f, -, rfl⟩ | ⟨-, -, rfl⟩ | ⟨-, -, rfl⟩
  · exact CipherFrame.complete s _ _ _ _ _ _ _ _
  · exact CipherFrame.complete s _ _ _ _ _ _ _ _
  · exact finishDecrypt_frame s _

/-- Writing slots leaves every byte before the first and after the last of them (R304). -/
theorem read_writeCts_of_not_mem {s : State} (hw : s.params.maxBits / 8 ≤ 0x200) {i a : Nat} {vs : List Nat}
    (h : ¬ (ctAddr i ≤ a ∧ a < ctAddr (i + vs.length))) : (s.writeCts i vs).mem.read a = s.mem.read a := by
  induction vs generalizing s i with
  | nil => rfl
  | cons v vs ih =>
    rw [List.length_cons] at h
    have hrest : (s.writeCts i (v :: vs)).mem.read a = (s.writeCt i v).mem.read a :=
      ih (s := s.writeCt i v) hw (by unfold ctAddr at *; omega)
    rw [hrest, writeCt_mem]
    exact Memory.read_writeBytes_of_not_mem _ (by rw [leBytes_length]; unfold ctAddr at *; omega)

theorem slotBytes_le {s : State} (hl : s.params.Legal) : s.params.maxBits / 8 ≤ 0x200 := by
  obtain ⟨⟨-, -, hmax⟩, -⟩ := hl
  omega

theorem ciphertexts_length (s : State) (rb rc : Reg) : (s.ciphertexts rb rc).length = s.encryptCount rc := by
  simp [State.ciphertexts]

/-- Settles O41: the frame, and the slots that a success writes or a cancel redraws. -/
theorem frameOfEncrypt : Obligations.FrameOfEncrypt := by
  intro rb rc s t hl h
  have hframe := execEncrypt_frame h
  refine ⟨fun a ha => ?_, hframe.sameRegs, ?_, hframe.prime, hframe.entropy, hframe.kept⟩
  · rcases execEncrypt_cases h with ⟨f, -, rfl⟩ | ⟨-, -, rfl⟩ | ⟨-, -, rfl⟩
    · rfl
    · exact Memory.read_redrawCt_of_not_mem s.mem (by unfold ctAddr at *; omega)
    · exact read_writeCts_of_not_mem (slotBytes_le hl) (by rw [ciphertexts_length, Nat.zero_add]; exact ha)
  · rcases execEncrypt_cases h with ⟨f, -, rfl⟩ | ⟨-, -, rfl⟩ | ⟨-, -, rfl⟩
    · rfl
    · rfl
    · rw [writeCts_eq]; rfl

theorem cancelDecrypt_read {s : State} {a : Nat} (ha : ¬ (outBase ≤ a ∧ a < outEnd)) :
    (cancelDecrypt s).mem.read a = s.mem.read a := Memory.read_redrawOut_of_not_mem s.mem ha

theorem finishDecrypt_out {s : State} (hl : s.params.Legal) (pt : List Byte) :
    (∀ a, ¬ (outBase ≤ a ∧ a < outEnd) → (s.finishDecrypt pt).mem.read a = s.mem.read a) ∧
      (s.finishDecrypt pt).blksize = s.blksize ∧ (s.finishDecrypt pt).ctcount = s.ctcount := by
  obtain ⟨-, -, -, -, ⟨-, -, hout⟩, -⟩ := hl
  rcases finishDecrypt_cases s pt with ⟨-, h⟩ | ⟨hlen, h⟩
  · rw [h]
    exact ⟨fun a ha => cancelDecrypt_read ha, rfl, rfl⟩
  · rw [h]
    exact ⟨fun a ha => Memory.read_writeBytes_of_not_mem s.mem (by unfold outEnd outBase at *; omega), rfl, rfl⟩

/-- Settles O42: the frame, and the OUT bytes that a success writes or a cancel redraws. -/
theorem frameOfDecrypt : Obligations.FrameOfDecrypt := by
  intro rb rc s t hl h
  have hframe := execDecrypt_frame h
  have hout : (∀ a, ¬ (outBase ≤ a ∧ a < outEnd) → t.mem.read a = s.mem.read a) ∧ t.blksize = s.blksize ∧
      t.ctcount = s.ctcount := by
    rcases execDecrypt_cases h with ⟨f, -, rfl⟩ | ⟨-, -, rfl⟩ | ⟨-, -, rfl⟩
    · exact ⟨fun _ _ => rfl, rfl, rfl⟩
    · exact ⟨fun a ha => cancelDecrypt_read ha, rfl, rfl⟩
    · exact finishDecrypt_out hl _
  obtain ⟨hmem, hblk, hcnt⟩ := hout
  exact ⟨hmem, hframe.sameRegs, hblk, hcnt, hframe.prime, hframe.entropy, hframe.kept⟩

end Sys2Proof.Machine

namespace Sys2Proof.Machine

/-! ### What any command can do -/

/-- The result t of a command at s: it waits, or it completes, with SUBCODE = INDEX = 0 beside ERRCODE = NONE (R56, R411). -/
def Completes (s t : State) : Prop :=
  t = s ∨ ∃ (u : State) (c : ErrCode) (sub idx : Nat), t = u.complete c sub idx ∧ (c = .noError → sub = 0 ∧ idx = 0)

theorem Completes.raise (s u : State) {f : Failure} (hf : f.code ≠ .noError) : Completes s (u.raise f) :=
  Or.inr ⟨u, f.code, f.sub, f.index, rfl, fun h => absurd h hf⟩

theorem Completes.succeed (s u : State) : Completes s u.succeed := Or.inr ⟨u, .noError, 0, 0, rfl, fun _ => ⟨rfl, rfl⟩⟩

/-- A check that answers errors only. -/
def IsErrorCheck (check : Option Failure) : Prop := ∀ f, check = some f → f.code ≠ .noError

theorem IsErrorCheck.or {x y : Option Failure} (hx : IsErrorCheck x) (hy : IsErrorCheck y) : IsErrorCheck (x.or y) := by
  cases x with
  | none => simpa using hy
  | some f => simpa using hx

theorem IsErrorCheck.failIf {b : Bool} {f : Failure} (hf : f.code ≠ .noError) : IsErrorCheck (failIf b f) := by
  cases b with
  | false => exact fun _ h => by cases h
  | true => exact fun _ h => by cases h; exact hf

theorem IsErrorCheck.sources (s : State) (ks : List Reg) : IsErrorCheck (s.checkSources ks) := by
  intro f h
  obtain ⟨k, -, rfl⟩ := Option.map_eq_some_iff.1 h
  exact ErrCode.noConfusion

/-- R408: no check phase answers ERRCODE = NONE. -/
theorem checkOf_isErrorCheck (i : Instr) (s : State) : IsErrorCheck (checkOf i s) := by
  cases i with
  | nop => exact fun _ h => by cases h
  | modinv ra rb rc => exact (IsErrorCheck.sources _ _).or (.failIf ErrCode.noConfusion)
  | modexp ra rb rc rd => exact (IsErrorCheck.sources _ _).or (.failIf ErrCode.noConfusion)
  | ptest rb rounds => exact IsErrorCheck.sources _ _
  | genprime ra bits => exact (IsErrorCheck.failIf ErrCode.noConfusion).or (.failIf ErrCode.noConfusion)
  | genkeys ra rb rc bits => exact (IsErrorCheck.failIf ErrCode.noConfusion).or (.failIf ErrCode.noConfusion)
  | encrypt rb rc =>
    exact (IsErrorCheck.sources _ _).or <| (IsErrorCheck.failIf ErrCode.noConfusion).or <|
      (IsErrorCheck.failIf ErrCode.noConfusion).or (.failIf ErrCode.noConfusion)
  | decrypt rb rc =>
    refine (IsErrorCheck.sources _ _).or <| (IsErrorCheck.failIf ErrCode.noConfusion).or <|
      (IsErrorCheck.failIf ErrCode.noConfusion).or fun f h => ?_
    obtain ⟨j, -, rfl⟩ := Option.map_eq_some_iff.1 h
    exact ErrCode.noConfusion

theorem command_completes {s t : State} {check : Option Failure} {cancelled : State} {go : Result}
    (hc : IsErrorCheck check) (hgo : ∀ t, go = .next t → Completes s t) (h : s.command check cancelled go = .next t) :
    Completes s t := by
  rcases command_cases h with ⟨f, hf, rfl⟩ | ⟨-, -, rfl⟩ | ⟨-, -, hg⟩
  · exact Completes.raise s s (hc f hf)
  · exact Completes.raise s cancelled ErrCode.noConfusion
  · exact hgo t hg

theorem settle_completes {α : Type} {s t : State} {d : Draw α} {use : State → α → Result}
    (huse : ∀ u v t, use u v = .next t → Completes s t) (h : s.settle d use = .next t) : Completes s t := by
  rcases settle_cases h with ⟨v, rest, -, hu⟩ | ⟨sub, rest, -, rfl⟩ | ⟨-, rfl⟩
  · exact huse _ v t hu
  · exact Completes.raise s _ ErrCode.noConfusion
  · exact Or.inl rfl

theorem finishDecrypt_completes (s u : State) (pt : List Byte) : Completes s (u.finishDecrypt pt) := by
  rcases finishDecrypt_cases u pt with ⟨-, h⟩ | ⟨-, h⟩
  · rw [h]; exact Completes.raise s _ ErrCode.noConfusion
  · rw [h]; exact Completes.succeed s _

/-- R411: every command waits or completes. -/
theorem exec_completes {i : Instr} {s t : State} (h : exec i s = .next t) : Completes s t := by
  have hnext : ∀ {u t : State}, Host.Outcome.next u.succeed = (.next t : Result) → Completes s t := fun h => by
    cases h; exact Completes.succeed s _
  have hcheck := checkOf_isErrorCheck i s
  cases i with
  | nop => exact command_completes hcheck (fun _ => hnext) h
  | modinv ra rb rc =>
    refine command_completes hcheck (fun t hg => ?_) h
    split at hg
    · cases hg; exact Completes.raise s s ErrCode.noConfusion
    · exact hnext hg
  | modexp ra rb rc rd => exact command_completes hcheck (fun _ => hnext) h
  | ptest rb rounds => exact command_completes hcheck (fun _ => settle_completes fun _ _ _ => hnext) h
  | genprime ra bits => exact command_completes hcheck (fun _ => settle_completes fun _ _ _ => hnext) h
  | genkeys ra rb rc bits =>
    refine command_completes hcheck (fun _ => settle_completes fun u pq t hf => ?_) h
    rcases finishGenkeys_cases hf with ⟨-, rfl⟩ | ⟨-, rfl⟩
    · exact Completes.raise s u ErrCode.noConfusion
    · exact Completes.succeed s _
  | encrypt rb rc => exact command_completes hcheck (fun _ => hnext) h
  | decrypt rb rc =>
    exact command_completes hcheck (fun t hg => by cases hg; exact finishDecrypt_completes s s _) h

/-- R411: no command changes what no completion changes. -/
theorem exec_kept {i : Instr} {s t : State} (h : exec i s = .next t) : SameKept s t := by
  cases i with
  | nop => exact (execNop_frame h).kept
  | modinv ra rb rc => exact (execModinv_frame h).kept
  | modexp ra rb rc rd => exact (execModexp_frame h).kept
  | ptest rb rounds =>
    have hk := (execPtest_frame h).kept
    exact ⟨hk.params, hk.irqen, hk.cmdovr, hk.lastcmd, hk.msglen, hk.script, hk.bus⟩
  | genprime ra bits => exact (execGenprime_frame h).kept
  | genkeys ra rb rc bits => exact (execGenkeys_frame h).kept
  | encrypt rb rc => exact (execEncrypt_frame h).kept
  | decrypt rb rc => exact (execDecrypt_frame h).kept

/-- R32: no command clears a valid bit. -/
theorem exec_valid {i : Instr} {s t : State} (h : exec i s = .next t) {k : Reg} (hk : s.isValid k = true) :
    t.isValid k = true := by
  cases i with
  | nop => exact (execNop_frame h).valid k hk
  | modinv ra rb rc => exact (execModinv_frame h).valid k hk
  | modexp ra rb rc rd => exact (execModexp_frame h).valid k hk
  | ptest rb rounds => exact (execPtest_frame h).valid k hk
  | genprime ra bits => exact (execGenprime_frame h).valid k hk
  | genkeys ra rb rc bits => exact (execGenkeys_frame h).valid k hk
  | encrypt rb rc => exact ((execEncrypt_frame h).sameRegs k).2.trans hk
  | decrypt rb rc => exact ((execDecrypt_frame h).sameRegs k).2.trans hk

/-- R39: a command that changes PRIME is a PTEST that completes with ERRCODE = NONE. -/
theorem exec_prime {i : Instr} {s t : State} (h : exec i s = .next t) (hp : t.prime ≠ s.prime) :
    (∃ rb rounds, i = .ptest rb rounds) ∧ t.run = .idle ∧ t.errcode = .noError := by
  cases i with
  | nop => exact absurd (execNop_frame h).prime hp
  | modinv ra rb rc => exact absurd (execModinv_frame h).prime hp
  | modexp ra rb rc rd => exact absurd (execModexp_frame h).prime hp
  | ptest rb rounds => exact ⟨⟨rb, rounds, rfl⟩, (execPtest_prime h).resolve_left hp⟩
  | genprime ra bits => exact absurd (execGenprime_frame h).prime hp
  | genkeys ra rb rc bits => exact absurd (execGenkeys_frame h).prime hp
  | encrypt rb rc => exact absurd (execEncrypt_frame h).prime hp
  | decrypt rb rc => exact absurd (execDecrypt_frame h).prime hp

/-! ### What each event can do -/

/-- A step is the engine's own move under an empty script, else the first event of the script. -/
theorem step_cases {s t : State} (h : step s = .next t) :
    (s.script = [] ∧ engineStep s = .next t) ∨
      ∃ e rest, s.script = e :: rest ∧ eventStep e { s with script := rest } = .next t := by
  unfold step at h
  split at h
  · unfold nextMove at h
    cases hs : s.script with
    | nil => exact Or.inl ⟨rfl, by simpa [hs] using h⟩
    | cons e rest => exact Or.inr ⟨e, rest, rfl, by simpa [hs] using h⟩
  · cases h

theorem completionStep_cases {w : Word} {s t : State} (h : completionStep w s = .next t) :
    (∃ e, decode w = .error e ∧ t = s.raise ⟨.illegalCmd, e.subcode, 0⟩) ∨
      ∃ i, decode w = .ok i ∧ exec i s = .next t := by
  unfold completionStep at h
  cases hd : decode w with
  | error e =>
    rw [hd] at h
    cases h
    exact Or.inl ⟨e, rfl, rfl⟩
  | ok i =>
    rw [hd] at h
    exact Or.inr ⟨i, rfl, h⟩

theorem engineStep_cases {s t : State} (h : engineStep s = .next t) :
    (s.run = .idle ∧ t = s) ∨ ∃ w, s.run = .running w ∧
      ((∃ e, decode w = .error e ∧ t = s.raise ⟨.illegalCmd, e.subcode, 0⟩) ∨
        ∃ i, decode w = .ok i ∧ exec i s = .next t) := by
  unfold engineStep at h
  cases hr : s.run with
  | idle =>
    rw [hr] at h
    cases h
    exact Or.inl ⟨rfl, rfl⟩
  | running w =>
    rw [hr] at h
    exact Or.inr ⟨w, rfl, completionStep_cases h⟩

/-- R109: a read changes the bus response only. -/
theorem busRead_eq (s : State) (addr width : Nat) : ∃ r, s.busRead addr width = { s with bus := r } := by
  unfold State.busRead
  split
  · exact ⟨_, rfl⟩
  · split
    · exact ⟨_, rfl⟩
    · split <;> exact ⟨_, rfl⟩

/-- R107, R110: a write changes the bus response only, or it is the write to an unlocked location. -/
theorem busWrite_cases (s : State) (addr width : Nat) (v : Word) :
    (∃ r, s.busWrite addr width v = { s with bus := r }) ∨
      ∃ off loc, windowOffset s.params addr = some off ∧ off % 4 = 0 ∧ locate s.params off = some loc ∧
        (s.busy = true → loc.writeLocked = false) ∧ s.busWrite addr width v = { s.writeLoc loc v with bus := .done } := by
  unfold State.busWrite
  cases hoff : windowOffset s.params addr with
  | none => exact Or.inl ⟨_, rfl⟩
  | some off =>
    cases htarget : s.target off width with
    | none => exact Or.inl ⟨.error, by simp only [htarget]⟩
    | some loc =>
      by_cases hlock : (s.busy && loc.writeLocked) = true
      · exact Or.inl ⟨.error, by simp only [htarget, if_pos hlock]⟩
      · unfold State.target at htarget
        split at htarget
        · cases htarget
        · next hok =>
          exact Or.inr ⟨off, loc, rfl, by omega, htarget, fun hb => by simpa [hb] using hlock, by
            simp only [State.target, if_neg hok, htarget, if_neg hlock]⟩

/-- R110: a write that is taken while BUSY = 1 is a soft reset or changes control and status bits only. -/
theorem writeLoc_busy {s : State} {loc : Loc} (v : Word) (hb : s.busy = true) (hu : loc.writeLocked = false) :
    s.writeLoc loc v = s.softReset ∨ ∃ irqen abort done err ovr, s.writeLoc loc v = { s with
      irqen := irqen, abortPending := abort, done := done, err := err, cmdovr := ovr } := by
  cases loc with
  | csr c =>
    cases c with
    | ctrl =>
      rw [State.writeLoc, State.writeCsr, State.writeCtrl]
      split
      · exact Or.inl rfl
      · exact Or.inr ⟨_, _, _, _, _, rfl⟩
    | cmd =>
      rw [State.writeLoc, State.writeCsr, State.writeCmd, if_pos hb]
      exact Or.inr ⟨_, _, _, _, _, rfl⟩
    | msglen => cases hu
    | ctcount => cases hu
    | bzero => cases hu
    | _ => exact Or.inr ⟨_, _, _, _, _, rfl⟩
  | _ => cases hu

theorem csrAt_ctrl {off : Nat} (h : csrAt off = some .ctrl) : off = 0x020 := by
  unfold csrAt at h
  split at h
  case h_8 => rfl
  all_goals cases h

/-- R101: CTRL stands at offset 0x020 only. -/
theorem locate_ctrl {p : Params} {off : Nat} (h : locate p off = some (.csr .ctrl)) : off = 0x020 := by
  unfold locate at h
  split at h
  · obtain ⟨c, hc, he⟩ := Option.map_eq_some_iff.1 h
    cases he
    exact csrAt_ctrl hc
  · exact absurd h (by split_ifs <;> simp)

/-- R32, R39: no write but a soft reset clears a valid bit or changes PRIME. -/
theorem writeLoc_valid_prime {s : State} {loc : Loc} {v : Word} (h : loc = .csr .ctrl → v.getLsbD 2 = false) :
    (∀ k, s.isValid k = true → (s.writeLoc loc v).isValid k = true) ∧ (s.writeLoc loc v).prime = s.prime := by
  cases loc with
  | csr c =>
    cases c with
    | ctrl =>
      rw [State.writeLoc, State.writeCsr, State.writeCtrl, h rfl]
      exact ⟨fun _ hk => hk, rfl⟩
    | cmd =>
      rw [State.writeLoc, State.writeCsr, State.writeCmd]
      split
      · exact ⟨fun _ hk => hk, rfl⟩
      · rw [accept_eq]
        exact ⟨fun _ hk => hk, rfl⟩
    | bzero =>
      refine ⟨fun k hk => ?_, rfl⟩
      rw [State.writeLoc, State.writeCsr, isValid_bzero, hk, Bool.or_true]
    | _ => exact ⟨fun _ hk => hk, rfl⟩
  | breg k j =>
    rw [State.writeLoc]
    split
    · exact ⟨fun i hi => by rw [isValid_writeReg]; split <;> [rfl; exact hi], rfl⟩
    · exact ⟨fun _ hk => hk, rfl⟩
  | ct i j off =>
    rw [State.writeLoc]
    split
    · exact ⟨fun _ hk => hk, rfl⟩
    · exact ⟨fun _ hk => hk, rfl⟩
  | msg off => exact ⟨fun _ hk => hk, rfl⟩
  | out off => exact ⟨fun _ hk => hk, rfl⟩

/-! ### The lane machine's steps change the lane machine only -/

theorem dispatchStep_eq (s : State) : ∃ u, s.dispatchStep = { s with unit := u } := by
  unfold State.dispatchStep
  split <;> exact ⟨_, rfl⟩

theorem laneStep_eq (s : State) (l : Nat) : ∃ u, s.laneStep l = { s with unit := u } := by
  unfold State.laneStep
  split
  · split <;> exact ⟨_, rfl⟩
  · exact ⟨_, rfl⟩

theorem arbiterStep_cases (s : State) : s.arbiterStep = s ∨ ∃ pt, s.arbiterStep = s.finishDecrypt pt := by
  unfold State.arbiterStep
  split
  · exact Or.inl rfl
  · split
    · exact Or.inr ⟨_, rfl⟩
    · exact Or.inl rfl

/-! ### Operands, valid bits and PRIME along a step -/

theorem Completes.eq_or_idle {s t : State} (h : Completes s t) : t = s ∨ t.run = .idle := by
  rcases h with rfl | ⟨u, c, sub, idx, rfl, -⟩
  · exact Or.inl rfl
  · exact Or.inr rfl

/-- The engine's move at a running command waits or ends it. -/
theorem engineStep_eq_or_idle {s t : State} (h : engineStep s = .next t) : t = s ∨ t.run = .idle := by
  rcases engineStep_cases h with ⟨-, rfl⟩ | ⟨w, -, ⟨e, -, rfl⟩ | ⟨i, -, hexec⟩⟩
  · exact Or.inl rfl
  · exact Or.inr rfl
  · exact (exec_completes hexec).eq_or_idle

/-- What a running command reads: the registers and valid bits, memory, MSGLEN and CTCOUNT. -/
def SameOperands (s t : State) : Prop := SameRegs s t ∧ t.mem = s.mem ∧ t.msglen = s.msglen ∧ t.ctcount = s.ctcount

theorem SameOperands.refl (s : State) : SameOperands s s := ⟨fun _ => ⟨rfl, rfl⟩, rfl, rfl, rfl⟩

/-- R68: an event that leaves the command running leaves its operands. -/
theorem eventStep_operands {e : Event} {s t : State} (hb : s.busy = true) (h : eventStep e s = .next t)
    (ht : t.run ≠ .idle) : SameOperands s t := by
  cases e with
  | read addr width =>
    cases h
    obtain ⟨r, hr⟩ := busRead_eq s addr width
    rw [hr]
    exact SameOperands.refl s
  | write addr width v =>
    cases h
    rcases busWrite_cases s addr width v with ⟨r, hr⟩ | ⟨off, loc, -, -, -, hu, hw⟩
    · rw [hr]
      exact SameOperands.refl s
    · rw [hw] at ht ⊢
      rcases writeLoc_busy v hb (hu hb) with hreset | ⟨_, _, _, _, _, hset⟩
      · rw [hreset] at ht
        exact absurd rfl ht
      · rw [hset]
        exact SameOperands.refl s
  | hardReset => cases h; exact absurd rfl ht
  | deliver p => cases h; exact SameOperands.refl s
  | engine =>
    rcases engineStep_eq_or_idle h with rfl | hidle
    · exact SameOperands.refl t
    · exact absurd hidle ht
  | dispatch =>
    cases h
    obtain ⟨u, hu⟩ := dispatchStep_eq s
    rw [hu]
    exact SameOperands.refl s
  | lane l =>
    cases h
    obtain ⟨u, hu⟩ := laneStep_eq s l
    rw [hu]
    exact SameOperands.refl s
  | arbiter =>
    cases h
    rcases arbiterStep_cases s with hs | ⟨pt, hf⟩
    · rw [hs]
      exact SameOperands.refl s
    · rw [hf] at ht ⊢
      rcases (finishDecrypt_completes s s pt).eq_or_idle with heq | hidle
      · rw [heq]
        exact SameOperands.refl s
      · exact absurd hidle ht

/-- Settles O45: the engine's move waits or ends the command, and every other event is `eventStep_operands`. -/
theorem operandsAreFrozenWhileRunning : Obligations.OperandsAreFrozenWhileRunning := by
  intro s t w hr h ht
  have hrun : t.run ≠ .idle := by rw [ht]; exact Run.noConfusion
  rcases step_cases h with ⟨-, he⟩ | ⟨e, rest, -, he⟩
  · rcases engineStep_eq_or_idle he with rfl | hidle
    · exact SameOperands.refl t
    · exact absurd hidle hrun
  · exact eventStep_operands (s := { s with script := rest }) (busy_eq_true_iff.2 ⟨w, hr⟩) he hrun

/-- What O46 says of a step from s to t: no valid bit is cleared, and a change of PRIME is a PTEST's success. -/
def KeepsValidAndPrime (s t : State) : Prop :=
  (∀ k, s.isValid k = true → t.isValid k = true) ∧
    (t.prime ≠ s.prime → ∃ w rb rounds, s.run = .running w ∧ decode w = .ok (.ptest rb rounds) ∧
      t.run = .idle ∧ t.errcode = .noError)

theorem KeepsValidAndPrime.of_same {s t : State} (hv : t.valid = s.valid) (hp : t.prime = s.prime) :
    KeepsValidAndPrime s t :=
  ⟨fun k hk => (isValid_congr hv k).trans hk, fun hne => absurd hp hne⟩

theorem engineStep_valid_prime {s t : State} (h : engineStep s = .next t) : KeepsValidAndPrime s t := by
  rcases engineStep_cases h with ⟨-, rfl⟩ | ⟨w, hr, ⟨e, -, rfl⟩ | ⟨i, hd, hexec⟩⟩
  · exact .of_same rfl rfl
  · exact .of_same rfl rfl
  · refine ⟨fun k hk => exec_valid hexec hk, fun hp => ?_⟩
    obtain ⟨⟨rb, rounds, rfl⟩, hidle, herr⟩ := exec_prime hexec hp
    exact ⟨w, rb, rounds, hr, hd, hidle, herr⟩

/-- R32, R39 for every event but a reset. -/
theorem eventStep_valid_prime {e : Event} {s t : State} (h : eventStep e s = .next t) (hhard : e ≠ .hardReset)
    (hsoft : ∀ addr width v, e = .write addr width v → v.getLsbD 2 = true → windowOffset s.params addr ≠ some 0x020) :
    KeepsValidAndPrime s t := by
  cases e with
  | read addr width =>
    cases h
    obtain ⟨r, hr⟩ := busRead_eq s addr width
    rw [hr]
    exact .of_same rfl rfl
  | write addr width v =>
    cases h
    rcases busWrite_cases s addr width v with ⟨r, hr⟩ | ⟨off, loc, hoff, -, hloc, -, hw⟩
    · rw [hr]
      exact .of_same rfl rfl
    · have hctrl : loc = .csr .ctrl → v.getLsbD 2 = false := by
        rintro rfl
        rw [locate_ctrl hloc] at hoff
        exact Bool.eq_false_iff.2 fun hv => hsoft addr width v rfl hv hoff
      obtain ⟨hvalid, hprime⟩ := writeLoc_valid_prime (s := s) hctrl
      rw [hw]
      exact ⟨hvalid, fun hne => absurd hprime hne⟩
  | hardReset => exact absurd rfl hhard
  | deliver p => cases h; exact .of_same rfl rfl
  | engine => exact engineStep_valid_prime h
  | dispatch =>
    cases h
    obtain ⟨u, hu⟩ := dispatchStep_eq s
    rw [hu]
    exact .of_same rfl rfl
  | lane l =>
    cases h
    obtain ⟨u, hu⟩ := laneStep_eq s l
    rw [hu]
    exact .of_same rfl rfl
  | arbiter =>
    cases h
    rcases arbiterStep_cases s with hs | ⟨pt, hf⟩
    · rw [hs]
      exact .of_same rfl rfl
    · rw [hf]
      exact .of_same (finishDecrypt_frame s pt).valid (finishDecrypt_frame s pt).prime

/-- Settles O46: the engine's own move, or the event that stands first in the script. -/
theorem onlyPtestWritesPrimeOnlyResetClearsValid : Obligations.OnlyPtestWritesPrimeOnlyResetClearsValid := by
  intro s t h hhard hsoft
  rcases step_cases h with ⟨-, he⟩ | ⟨e, rest, hs, he⟩
  · exact engineStep_valid_prime he
  · refine eventStep_valid_prime (s := { s with script := rest }) he ?_ ?_
    · rintro rfl
      exact hhard rest hs
    · rintro addr width v rfl
      exact hsoft addr width v rest hs

end Sys2Proof.Machine

namespace Sys2Proof

open Sys2Proof.Machine

/-! ### Values that fit the registers (R31) -/

theorem Draw.bind_eq_got {α β : Type} {d : Draw α} {f : α → List EntropyPair → Draw β} {v : β}
    {rest : List EntropyPair} (h : d.bind f = .got v rest) : ∃ a mid, d = .got a mid ∧ f a mid = .got v rest := by
  cases d with
  | got a mid => exact ⟨a, mid, rfl, h⟩
  | failed sub mid => cases h
  | starved => cases h

/-- R222: a candidate of at least 2 bits has its top two bits set and no bit above them. -/
theorem candidate_bounds {bits : Nat} (hb : 2 ≤ bits) (r : Nat) :
    3 * 2 ^ (bits - 2) ≤ candidate bits r ∧ candidate bits r < 2 ^ bits := by
  obtain ⟨b, rfl⟩ := Nat.exists_eq_add_of_le' hb
  have htop : 2 ^ (b + 1) ||| 2 ^ b = 3 * 2 ^ b := by
    have h := Nat.two_pow_add_eq_or_of_lt (Nat.pow_lt_pow_right (by norm_num) b.lt_succ_self : 2 ^ b < 2 ^ (b + 1)) 1
    rw [mul_one] at h
    rw [← h, pow_succ]
    omega
  have hlt : ∀ k, k < b + 2 → 2 ^ k < 2 ^ (b + 2) := fun k hk => Nat.pow_lt_pow_right (by norm_num) hk
  have hcand : candidate (b + 2) r = r % 2 ^ (b + 2) ||| (2 ^ (b + 1) ||| 2 ^ b) ||| 1 := by
    rw [candidate, Nat.or_assoc (r % 2 ^ (b + 2))]
    rfl
  rw [hcand]
  constructor
  · calc 3 * 2 ^ b = 2 ^ (b + 1) ||| 2 ^ b := htop.symm
      _ ≤ r % 2 ^ (b + 2) ||| (2 ^ (b + 1) ||| 2 ^ b) := Nat.right_le_or
      _ ≤ _ := Nat.left_le_or
  · refine Nat.or_lt_two_pow (Nat.or_lt_two_pow (Nat.mod_lt _ (by positivity)) ?_) (hlt 0 (by omega))
    exact Nat.or_lt_two_pow (hlt (b + 1) (by omega)) (hlt b (by omega))

/-- What the generator's loop gives is a candidate. -/
theorem genPrimeFrom_got {p : Params} {bits fuel att c : Nat} {ps rest : List EntropyPair}
    (h : genPrimeFrom p bits fuel att ps = .got c rest) : ∃ r, c = candidate bits r := by
  induction fuel generalizing att ps with
  | zero => cases h
  | succ fuel ih =>
    rw [genPrimeFrom] at h
    split at h
    · cases h
    · obtain ⟨r, ps', -, h⟩ := Draw.bind_eq_got h
      obtain ⟨pass, ps'', -, h⟩ := Draw.bind_eq_got h
      split at h
      · cases h; exact ⟨r, rfl⟩
      · exact ih h

theorem genPrime_got_bounds {p : Params} {bits c : Nat} {ps rest : List EntropyPair} (hb : 2 ≤ bits)
    (h : genPrime p bits ps = .got c rest) : 3 * 2 ^ (bits - 2) ≤ c ∧ c < 2 ^ bits := by
  obtain ⟨r, rfl⟩ := genPrimeFrom_got h
  exact candidate_bounds hb r

theorem drawGenkeys_got {bits : BitVec 12} {s : State} {p q : Nat} {rest : List EntropyPair} (hb : 4 ≤ bits.toNat)
    (h : drawGenkeys bits s = .got (p, q) rest) :
    (3 ≤ p ∧ p < 2 ^ (bits.toNat / 2)) ∧ 3 ≤ q ∧ q < 2 ^ (bits.toNat / 2) := by
  obtain ⟨p', r1, hp, h⟩ := Draw.bind_eq_got h
  obtain ⟨q', r2, hq, h⟩ := Draw.bind_eq_got h
  cases h
  have hpow : 1 ≤ 2 ^ (bits.toNat / 2 - 2) := Nat.one_le_two_pow
  have hp := genPrime_got_bounds (by omega) hp
  have hq := genPrime_got_bounds (by omega) hq
  omega

/-! ### Memory stays canonical and inside its storage (R101, R111) -/

namespace MemoryInv

variable {p : Params} {m : Memory}

theorem writeBytes (h : MemoryInv p m) {a : Nat} {bs : List Byte}
    (hs : ∀ x, a ≤ x → x < a + bs.length → hasStorage p x) : MemoryInv p (m.writeBytes a bs) where
  canonical := Memory.wf_writeBytes h.canonical a bs
  mapped c hc := by
    rcases Memory.mem_writeBytes hc with hc | ⟨h1, h2⟩
    · exact h.mapped c hc
    · exact hs c.1 h1 h2
  slots := h.slots

theorem writeWord (h : MemoryInv p m) {a : Nat} (v : Word) (hs : ∀ x, a ≤ x → x < a + 4 → hasStorage p x) :
    MemoryInv p (m.writeWord a v) :=
  h.writeBytes fun x h1 h2 => hs x h1 (by rwa [leBytes_length] at h2)

theorem redrawCt (h : MemoryInv p m) (cnt d : Nat) : MemoryInv p (m.redrawCt cnt d) where
  canonical := Memory.wf_redrawCt h.canonical cnt d
  mapped c hc := h.mapped c (Memory.mem_redrawCt hc)
  slots := (Memory.redrawCt_ctDraw_length m cnt d).trans h.slots

theorem redrawOut (h : MemoryInv p m) (d : Nat) : MemoryInv p (m.redrawOut d) where
  canonical := Memory.wf_redrawOut h.canonical d
  mapped c hc := h.mapped c (Memory.mem_redrawOut hc)
  slots := h.slots

theorem blank (p : Params) (d : Nat) : MemoryInv p (Memory.blank p d) where
  canonical := Memory.wf_blank p d
  mapped _ hc := absurd hc List.not_mem_nil
  slots := List.length_replicate

end MemoryInv

theorem hasStorage_slot {p : Params} (hl : p.Legal) {i x : Nat} (hi : i < p.ctSlots) (h1 : ctAddr i ≤ x)
    (h2 : x < ctAddr i + p.maxBits / 8) : hasStorage p x := by
  obtain ⟨⟨-, -, hmax⟩, -, ⟨-, hslots⟩, -⟩ := hl
  unfold ctAddr ctBase at h1 h2
  have hslot : (x - ctBase) / 0x200 = i := by unfold ctBase; omega
  refine Or.inl ⟨by unfold ctBase; omega, by unfold msgBase; omega, by rwa [hslot], by unfold ctBase; omega⟩

theorem memoryInv_writeCts {s : State} (hl : s.params.Legal) (h : MemoryInv s.params s.mem) {i : Nat} {vs : List Nat}
    (hi : i + vs.length ≤ s.params.ctSlots) : MemoryInv s.params (s.writeCts i vs).mem := by
  induction vs generalizing s i with
  | nil => exact h
  | cons v vs ih =>
    rw [List.length_cons] at hi
    refine ih (s := s.writeCt i v) hl (h.writeBytes fun x h1 h2 => ?_) (show _ ≤ s.params.ctSlots by omega)
    rw [leBytes_length] at h2
    exact hasStorage_slot hl (by omega) h1 h2

/-- What stands at a mapped offset (R101). -/
theorem locate_cases {p : Params} {off : Nat} {loc : Loc} (h : locate p off = some loc) :
    (∃ c, loc = .csr c) ∨ (∃ k j, loc = .breg k j) ∨
      (ctBase ≤ off ∧ off < msgBase ∧ (off - ctBase) / 0x200 < p.ctSlots ∧
        loc = .ct ((off - ctBase) / 0x200) ((off - ctBase) % 0x200 / 4) off) ∨
      (msgBase ≤ off ∧ off < msgBase + p.msgBytes ∧ loc = .msg off) ∨
      (outBase ≤ off ∧ off < outBase + p.outBytes ∧ loc = .out off) := by
  unfold locate at h
  split at h
  · obtain ⟨c, -, hc⟩ := Option.map_eq_some_iff.1 h
    exact Or.inl ⟨c, hc.symm⟩
  · split_ifs at h
    · exact Or.inr (Or.inl ⟨_, _, (Option.some.inj h).symm⟩)
    · exact Or.inr (Or.inr (Or.inl ⟨by omega, by omega, by omega, (Option.some.inj h).symm⟩))
    · exact Or.inr (Or.inr (Or.inr (Or.inl ⟨by omega, by omega, (Option.some.inj h).symm⟩)))
    · exact Or.inr (Or.inr (Or.inr (Or.inr ⟨by omega, by omega, (Option.some.inj h).symm⟩)))

/-! ### The part of the invariant that outlives a completion -/

/-- The invariant without the record and the lane machine: parameters, memory and registers. -/
structure StoreInv (s : State) : Prop where
  legal : s.params.Legal
  memory : MemoryInv s.params s.mem
  regs : RegsInv s

theorem Inv.store {s : State} (h : Inv s) : StoreInv s := ⟨h.legal, h.memory, h.regs⟩

namespace StoreInv

variable {s : State}

theorem complete (h : StoreInv s) (c : ErrCode) (sub idx : Nat) : StoreInv (s.complete c sub idx) :=
  ⟨h.legal, h.memory, h.regs.fit, h.regs.unwritten⟩

theorem raise (h : StoreInv s) (f : Failure) : StoreInv (s.raise f) := h.complete _ _ _

theorem succeed (h : StoreInv s) : StoreInv s.succeed := h.complete _ _ _

theorem leave (h : StoreInv s) (rest : List EntropyPair) : StoreInv { s with entropy := rest } :=
  ⟨h.legal, h.memory, h.regs.fit, h.regs.unwritten⟩

theorem complete_prime (h : StoreInv s) (rest : List EntropyPair) (r : Bool) :
    StoreInv ({ s with entropy := rest, prime := r } : State).succeed :=
  ⟨h.legal, h.memory, h.regs.fit, h.regs.unwritten⟩

/-- A completion after changes of memory, the counts and the draw counter. -/
theorem complete_mem (h : StoreInv s) {m : Memory} (hm : MemoryInv s.params m) (blk cnt len : Word) (d : Nat)
    (c : ErrCode) (sub idx : Nat) :
    StoreInv (({ s with mem := m, blksize := blk, ctcount := cnt, outlen := len, draws := d } : State).complete
      c sub idx) :=
  ⟨h.legal, hm, h.regs.fit, h.regs.unwritten⟩

theorem takeSome (h : StoreInv s) (n : Nat) : StoreInv (s.takeSome n) where
  legal := by rw [takeSome_params]; exact h.legal
  memory := by rw [takeSome_params, takeSome_mem]; exact h.memory
  regs := ⟨fun k => by rw [reg_takeSome, takeSome_params]; exact h.regs.fit k, fun k hk => by
    rw [isValid_takeSome] at hk
    rw [reg_takeSome]
    exact h.regs.unwritten k hk⟩

theorem writeReg (h : StoreInv s) (k : Reg) {v : Nat} (hv : v < 2 ^ s.params.maxBits) : StoreInv (s.writeReg k v) where
  legal := h.legal
  memory := h.memory
  regs.fit j := by
    rw [reg_writeReg]
    split
    · exact hv
    · exact h.regs.fit j
  regs.unwritten j hj := by
    rw [isValid_writeReg] at hj
    rw [reg_writeReg]
    split at hj
    · cases hj
    · next hjk => rw [if_neg hjk]; exact h.regs.unwritten j hj

end StoreInv

/-! ### Every command keeps registers in range and memory in its storage -/

theorem execModinv_store {ra rb rc : Reg} {s t : State} (hs : StoreInv s) (h : execModinv ra rb rc s = .next t) :
    StoreInv t := by
  rcases execModinv_cases h with ⟨f, -, rfl⟩ | ⟨-, -, rfl⟩ | ⟨-, -, -, rfl⟩ | ⟨hc, -, hg, rfl⟩
  · exact hs.raise f
  · exact hs.raise _
  · exact hs.raise _
  · obtain ⟨-, -, hm⟩ := (checkModinv_eq_none_iff rb rc s).1 hc
    exact (hs.writeReg ra ((modInv_spec hm hg).1.trans (hs.regs.fit rc))).succeed

theorem execModexp_store {ra rb rc rd : Reg} {s t : State} (hs : StoreInv s) (h : execModexp ra rb rc rd s = .next t) :
    StoreInv t := by
  rcases execModexp_cases h with ⟨f, -, rfl⟩ | ⟨-, -, rfl⟩ | ⟨hc, -, rfl⟩
  · exact hs.raise f
  · exact hs.raise _
  · obtain ⟨-, -, -, hm⟩ := (checkModexp_eq_none_iff rb rc rd s).1 hc
    exact (hs.writeReg ra ((modExp_lt _ _ hm).trans (hs.regs.fit rd))).succeed

theorem execPtest_store {rb : Reg} {rounds : BitVec 16} {s t : State} (hs : StoreInv s)
    (h : execPtest rb rounds s = .next t) : StoreInv t := by
  rcases execPtest_cases h with ⟨f, -, rfl⟩ | ⟨-, -, rfl⟩ | ⟨-, -, h⟩
  · exact hs.raise f
  · exact (hs.takeSome _).raise _
  · rcases h with ⟨r, rest, -, rfl⟩ | ⟨sub, rest, -, rfl⟩ | ⟨-, rfl⟩
    · exact hs.complete_prime rest r
    · exact (hs.leave rest).raise _
    · exact hs

theorem execGenprime_store {ra : Reg} {bits : BitVec 16} {s t : State} (hs : StoreInv s)
    (h : execGenprime ra bits s = .next t) : StoreInv t := by
  rcases execGenprime_cases h with ⟨f, -, rfl⟩ | ⟨-, -, rfl⟩ | ⟨hc, -, h⟩
  · exact hs.raise f
  · exact (hs.takeSome _).raise _
  · rcases h with ⟨c, rest, hd, rfl⟩ | ⟨sub, rest, -, rfl⟩ | ⟨-, rfl⟩
    · obtain ⟨h2, hmax⟩ := (checkGenprime_eq_none_iff bits s).1 hc
      have hc := (genPrime_got_bounds h2 hd).2
      exact ((hs.leave rest).writeReg ra (hc.trans_le (Nat.pow_le_pow_right (by norm_num) hmax))).succeed
    · exact (hs.leave rest).raise _
    · exact hs

/-- R260: n, e = 65537 and d fit the registers. -/
theorem writeKeys_store {ra rb rc : Reg} {s : State} {h p q : Nat} (hs : StoreInv s) (hmax : 2 * h ≤ s.params.maxBits)
    (hp : 3 ≤ p ∧ p < 2 ^ h) (hq : 3 ≤ q ∧ q < 2 ^ h) (hg : Nat.gcd Config.eFixed (phiOf p q) = 1) :
    StoreInv (s.writeKeys ra rb rc p q) := by
  obtain ⟨⟨-, h64, -⟩, -⟩ := hs.legal
  obtain ⟨p, rfl⟩ := Nat.exists_eq_add_of_le' hp.1
  obtain ⟨q, rfl⟩ := Nat.exists_eq_add_of_le' hq.1
  have hn : (p + 3) * (q + 3) < 2 ^ s.params.maxBits := calc
    (p + 3) * (q + 3) < 2 ^ h * 2 ^ h := Nat.mul_lt_mul'' hp.2 hq.2
    _ = 2 ^ (2 * h) := by rw [← pow_add, two_mul]
    _ ≤ 2 ^ s.params.maxBits := Nat.pow_le_pow_right (by norm_num) hmax
  have he : Config.eFixed < 2 ^ s.params.maxBits :=
    (show Config.eFixed < 2 ^ 64 by decide).trans_le (Nat.pow_le_pow_right (by norm_num) h64)
  have hphi : 2 ≤ phiOf (p + 3) (q + 3) ∧ phiOf (p + 3) (q + 3) ≤ (p + 3) * (q + 3) :=
    ⟨Nat.mul_le_mul (show 1 ≤ p + 2 by omega) (show 2 ≤ q + 2 by omega), Nat.mul_le_mul (by omega) (by omega)⟩
  have hd := (modInv_spec hphi.1 hg).1.trans_le hphi.2
  exact ((hs.writeReg ra hn).writeReg rb he).writeReg rc (hd.trans hn)

theorem execGenkeys_store {ra rb rc : Reg} {bits : BitVec 12} {s t : State} (hs : StoreInv s)
    (h : execGenkeys ra rb rc bits s = .next t) : StoreInv t := by
  rcases execGenkeys_cases h with ⟨f, -, rfl⟩ | ⟨-, -, rfl⟩ | ⟨hc, -, h⟩
  · exact hs.raise f
  · exact (hs.takeSome _).raise _
  · rcases h with ⟨p, q, rest, hd, hf⟩ | ⟨sub, rest, -, rfl⟩ | ⟨-, rfl⟩
    · obtain ⟨hmax, h4⟩ := (checkGenkeys_eq_none_iff bits s).1 hc
      obtain ⟨hp, hq⟩ := drawGenkeys_got h4 hd
      rcases finishGenkeys_cases hf with ⟨-, rfl⟩ | ⟨hg, rfl⟩
      · exact (hs.leave rest).raise _
      · have hbits : 2 * (bits.toNat / 2) ≤ s.params.maxBits := by omega
        exact (writeKeys_store (hs.leave rest) hbits hp hq hg).succeed
    · exact (hs.leave rest).raise _
    · exact hs

theorem execEncrypt_store {rb rc : Reg} {s t : State} (hs : StoreInv s) (h : execEncrypt rb rc s = .next t) :
    StoreInv t := by
  rcases execEncrypt_cases h with ⟨f, -, rfl⟩ | ⟨-, -, rfl⟩ | ⟨hc, -, rfl⟩
  · exact hs.raise f
  · exact hs.complete_mem (hs.memory.redrawCt _ _) _ _ _ _ _ _ _
  · obtain ⟨-, -, -, -, hcnt⟩ := (checkEncrypt_eq_none_iff rb rc s).1 hc
    have hm : MemoryInv s.params (s.writeCts 0 (s.ciphertexts rb rc)).mem :=
      memoryInv_writeCts hs.legal hs.memory (by rw [ciphertexts_length, Nat.zero_add]; exact hcnt)
    rw [writeCts_eq]
    exact hs.complete_mem hm _ _ _ _ _ _ _

theorem finishDecrypt_store {s : State} (hs : StoreInv s) (pt : List Byte) : StoreInv (s.finishDecrypt pt) := by
  rcases finishDecrypt_cases s pt with ⟨-, h⟩ | ⟨hlen, h⟩
  · rw [h]
    exact hs.complete_mem (hs.memory.redrawOut _) _ _ _ _ _ _ _
  · rw [h]
    have hm : MemoryInv s.params (s.mem.writeBytes outBase pt) :=
      hs.memory.writeBytes fun x h1 h2 => Or.inr (Or.inr ⟨h1, by omega⟩)
    exact hs.complete_mem hm _ _ _ _ _ _ _

theorem execDecrypt_store {rb rc : Reg} {s t : State} (hs : StoreInv s) (h : execDecrypt rb rc s = .next t) :
    StoreInv t := by
  rcases execDecrypt_cases h with ⟨f, -, rfl⟩ | ⟨-, -, rfl⟩ | ⟨-, -, rfl⟩
  · exact hs.raise f
  · exact hs.complete_mem (hs.memory.redrawOut _) _ _ _ _ _ _ _
  · exact finishDecrypt_store hs _

theorem exec_store {i : Instr} {s t : State} (hs : StoreInv s) (h : exec i s = .next t) : StoreInv t := by
  cases i with
  | nop =>
    rcases execNop_cases h with ⟨-, rfl⟩ | ⟨-, rfl⟩
    · exact hs.raise _
    · exact hs.succeed
  | modinv ra rb rc => exact execModinv_store hs h
  | modexp ra rb rc rd => exact execModexp_store hs h
  | ptest rb rounds => exact execPtest_store hs h
  | genprime ra bits => exact execGenprime_store hs h
  | genkeys ra rb rc bits => exact execGenkeys_store hs h
  | encrypt rb rc => exact execEncrypt_store hs h
  | decrypt rb rc => exact execDecrypt_store hs h

end Sys2Proof

namespace Sys2Proof

open Sys2Proof.Machine

/-! ### The lane machine's bookkeeping (R325-R328) -/

theorem getD_set_some (xs : List (Option Nat)) (i v j : Nat) :
    (xs.set i (some v)).getD j none = if i = j ∧ i < xs.length then some v else xs.getD j none := by
  rw [List.getD_eq_getElem?_getD, List.getElem?_set, List.getD_eq_getElem?_getD]
  by_cases hij : i = j
  · subst hij
    by_cases hi : i < xs.length
    · simp [hi]
    · simp [hi]
  · simp [hij]

namespace UnitInv

variable {s : State} {d n : Nat} {u : DecryptUnit}

/-- R325: nothing is dispatched or reported at the start. -/
theorem start (s : State) (d n : Nat) : UnitInv s d n (DecryptUnit.start s.params) where
  lanes := List.length_replicate
  slots := List.length_replicate
  next := Nat.zero_le _
  working i h := Lane.noConfusion (List.eq_of_mem_replicate h)
  once l _ i h _ := Lane.noConfusion (List.eq_of_mem_replicate (List.mem_of_getElem? h))
  dispatched i h _ := absurd h (Nat.not_lt_zero i)
  reported i v h := by
    have hnone : (List.replicate s.params.ctSlots (none : Option Nat)).getD i none = none := by
      rw [List.getD_eq_getElem?_getD, List.getElem?_replicate]
      split <;> rfl
    exact absurd (hnone.symm.trans h) (by simp)

/-- R326: a free lane takes the next block. -/
theorem takeBlock (h : UnitInv s d n u) {l : Nat} (hl : u.lanes[l]? = some .free) (hnext : u.next < s.ctcount.toNat) :
    UnitInv s d n { u with next := u.next + 1, lanes := u.lanes.set l (.busy u.next) } := by
  obtain ⟨hlen, -⟩ := List.getElem?_eq_some_iff.1 hl
  have hget : ∀ k, (u.lanes.set l (.busy u.next))[k]? = if l = k then some (.busy u.next) else u.lanes[k]? := by
    intro k
    rw [List.getElem?_set, if_pos hlen]
  have hfresh : ∀ k : Nat, u.lanes[k]? ≠ some (.busy u.next) := fun k hk =>
    absurd (h.working _ (List.mem_of_getElem? hk)).1 (lt_irrefl _)
  refine ⟨by simpa using h.lanes, h.slots, hnext, fun i hi => ?_, fun k k' i hk hk' => ?_, fun i hi hr => ?_,
    fun i v hr => ?_⟩
  · rcases List.mem_or_eq_of_mem_set hi with hi | hi
    · have hw := h.working i hi
      exact ⟨hw.1.trans (Nat.lt_succ_self _), hw.2⟩
    · cases hi
      refine ⟨Nat.lt_succ_self _, ?_⟩
      cases hr : u.res.getD u.next none with
      | none => rfl
      | some v => exact absurd (h.reported _ v hr).1 (lt_irrefl _)
  · rw [hget] at hk hk'
    split at hk
    · split at hk'
      · omega
      · cases hk; exact absurd hk' (hfresh k')
    · split at hk'
      · cases hk'; exact absurd hk (hfresh k)
      · exact h.once k k' i hk hk'
  · rcases Nat.lt_succ_iff_lt_or_eq.1 hi with hi | rfl
    · obtain ⟨k, hk⟩ := List.mem_iff_getElem?.1 (h.dispatched i hi hr)
      have hlk : l ≠ k := by
        rintro rfl
        exact Lane.noConfusion (Option.some.inj (hl.symm.trans hk))
      exact List.mem_iff_getElem?.2 ⟨k, by rw [hget, if_neg hlk]; exact hk⟩
    · exact List.mem_set hlen _
  · have hrep := h.reported i v hr
    exact ⟨hrep.1.trans (Nat.lt_succ_self _), hrep.2⟩

theorem dispatch (h : UnitInv s d n u) : UnitInv s d n (u.dispatch s.ctcount.toNat) := by
  unfold DecryptUnit.dispatch
  split
  · exact h
  · next l hl =>
    split
    · next hnext =>
      obtain ⟨hlen, hfree, -⟩ := List.findIdx?_eq_some_iff_getElem.1 hl
      exact h.takeBlock (List.getElem?_eq_some_iff.2 ⟨hlen, by simpa using hfree⟩) hnext
    · exact h

/-- R327: a busy lane reports its block's decrypted value and is free. -/
theorem report (h : UnitInv s d n u) (hcnt : s.ctcount.toNat ≤ s.params.ctSlots) {l i : Nat}
    (hl : u.lanes[l]? = some (.busy i)) : UnitInv s d n (u.report l i (modExp (s.ct i) d n)) := by
  obtain ⟨hlen, -⟩ := List.getElem?_eq_some_iff.1 hl
  have hi := (h.working i (List.mem_of_getElem? hl)).1
  have hslot : i < u.res.length := by have := h.slots; have := h.next; omega
  have hbusy : ∀ k j : Nat, (u.lanes.set l .free)[k]? = some (.busy j) ↔ l ≠ k ∧ u.lanes[k]? = some (.busy j) := by
    intro k j
    rw [List.getElem?_set]
    split
    · next hk => subst hk; simp [hlen]
    · next hk => simp [hk]
  have hres : ∀ j, (u.res.set i (some (modExp (s.ct i) d n))).getD j none =
      if i = j then some (modExp (s.ct i) d n) else u.res.getD j none := by
    intro j
    rw [getD_set_some]
    simp [hslot]
  refine ⟨by simpa [DecryptUnit.report] using h.lanes, by simpa [DecryptUnit.report] using h.slots, h.next,
    fun j hj => ?_, fun k k' j hk hk' => ?_, fun j hj hr => ?_, fun j v hr => ?_⟩
  · obtain ⟨k, hk⟩ := List.mem_iff_getElem?.1 hj
    obtain ⟨hlk, hk⟩ := (hbusy k j).1 hk
    have hij : i ≠ j := by
      rintro rfl
      exact hlk (h.once l k i hl hk)
    have hw := h.working j (List.mem_of_getElem? hk)
    exact ⟨hw.1, (hres j).trans ((if_neg hij).trans hw.2)⟩
  · exact h.once k k' j ((hbusy k j).1 hk).2 ((hbusy k' j).1 hk').2
  · have hr := (hres j).symm.trans hr
    split at hr
    · cases hr
    · next hij =>
      obtain ⟨k, hk⟩ := List.mem_iff_getElem?.1 (h.dispatched j hj hr)
      have hlk : l ≠ k := by
        rintro rfl
        exact hij (Lane.busy.inj (Option.some.inj (hl.symm.trans hk)))
      exact List.mem_iff_getElem?.2 ⟨k, (hbusy k j).2 ⟨hlk, hk⟩⟩
  · have hr := (hres j).symm.trans hr
    split at hr
    · next hij =>
      cases hr
      exact hij ▸ ⟨hi, modExp_eq _ _ _⟩
    · exact h.reported j v hr

end UnitInv

theorem LanesInv.of_none {s : State} (h : s.unit = none) : LanesInv s := fun u hu => by
  rw [h] at hu; cases hu

/-- The lane machine of a state with the invariant stands in a running DECRYPT. -/
theorem LanesInv.unit_of_idle {s : State} (h : LanesInv s) (hb : s.busy = false) : s.unit = none := by
  cases hu : s.unit with
  | none => rfl
  | some u =>
    obtain ⟨rb, rc, hd, -⟩ := h u hu
    obtain ⟨w, hw, -⟩ := runningDecrypt_eq_some_iff.1 hd
    rw [busy_eq_true_iff.2 ⟨w, hw⟩] at hb
    cases hb

/-- Fields that the lane machine does not read may change. -/
theorem LanesInv.outside {s : State} (h : LanesInv s) {irqen done err prime cmdovr : Bool} {errcode : ErrCode}
    {subcode : BitVec 8} {index : BitVec 16} {lastcmd msglen blksize outlen : Word} {abort : Bool}
    {entropy : List EntropyPair} {script : List Event} {bus : BusResponse} {draws : Nat} :
    LanesInv { s with
      irqen := irqen, done := done, err := err, prime := prime, cmdovr := cmdovr, errcode := errcode,
      subcode := subcode, index := index, lastcmd := lastcmd, msglen := msglen, blksize := blksize, outlen := outlen,
      abortPending := abort, entropy := entropy, script := script, bus := bus, draws := draws } := fun u hu => by
  obtain ⟨rb, rc, hd, hc, hu⟩ := h u hu
  exact ⟨rb, rc, hd, hc, hu.lanes, hu.slots, hu.next, hu.working, hu.once, hu.dispatched, hu.reported⟩

/-- A new lane machine with the invariant may stand in place of the old one. -/
theorem LanesInv.set_unit {s : State} {rb rc : Reg} {u : DecryptUnit} (hd : s.runningDecrypt = some (rb, rc))
    (hc : checkDecrypt rb rc s = none) (hu : UnitInv s (s.reg rb) (s.reg rc) u) :
    LanesInv { s with unit := some u } := fun u' hu' => by
  cases hu'
  exact ⟨rb, rc, hd, hc, hu.lanes, hu.slots, hu.next, hu.working, hu.once, hu.dispatched, hu.reported⟩

/-! ### The invariant after changes of a few fields -/

/-- Fields that the invariant does not speak of may change. -/
theorem Inv.outside {s : State} (h : Inv s) {irqen prime cmdovr : Bool} {msglen blksize outlen : Word}
    {entropy : List EntropyPair} {script : List Event} {bus : BusResponse} {draws : Nat} :
    Inv { s with
      irqen := irqen, prime := prime, cmdovr := cmdovr, msglen := msglen, blksize := blksize, outlen := outlen,
      entropy := entropy, script := script, bus := bus, draws := draws } where
  legal := h.legal
  memory := h.memory
  regs := ⟨h.regs.fit, h.regs.unwritten⟩
  status := ⟨h.status.abortBusy, h.status.lastcmd, h.status.busyClear, h.status.errCode, h.status.errInfo⟩
  lanes := h.lanes.outside

theorem Inv.set_unit {s : State} (h : Inv s) {u : Option DecryptUnit} (hu : LanesInv { s with unit := u }) :
    Inv { s with unit := u } where
  legal := h.legal
  memory := h.memory
  regs := ⟨h.regs.fit, h.regs.unwritten⟩
  status := ⟨h.status.abortBusy, h.status.lastcmd, h.status.busyClear, h.status.errCode, h.status.errInfo⟩
  lanes := hu

/-- While Idle, a write to the registers, their valid bits, memory or CTCOUNT keeps what the other fields say. -/
theorem Inv.set_operands {s : State} (h : Inv s) (hi : s.busy = false) {b : Vector Nat 16} {valid : Vector Bool 16}
    {mem : Memory} {ctcount : Word} (hm : MemoryInv s.params mem) (hr : RegsInv { s with b := b, valid := valid }) :
    Inv { s with b := b, valid := valid, mem := mem, ctcount := ctcount } where
  legal := h.legal
  memory := hm
  regs := ⟨hr.fit, hr.unwritten⟩
  status := ⟨h.status.abortBusy, h.status.lastcmd, h.status.busyClear, h.status.errCode, h.status.errInfo⟩
  lanes := LanesInv.of_none (h.lanes.unit_of_idle hi)

/-! ### Completion, acknowledgement, acceptance and reset -/

/-- R411: a completion has the invariant where registers and memory have. -/
theorem Inv.of_complete {u : State} {c : ErrCode} {sub idx : Nat} (h : StoreInv (u.complete c sub idx))
    (hinfo : c = .noError → sub = 0 ∧ idx = 0) : Inv (u.complete c sub idx) where
  legal := h.legal
  memory := h.memory
  regs := h.regs
  status :=
    { abortBusy := fun ha => absurd ha Bool.false_ne_true
      lastcmd := fun _ hr => Run.noConfusion hr
      busyClear := fun hb => absurd hb Bool.false_ne_true
      errCode := fun he => by simpa using he
      errInfo := fun he => by
        obtain ⟨rfl, rfl⟩ := hinfo he
        exact ⟨rfl, rfl⟩ }
  lanes := LanesInv.of_none rfl

theorem Inv.of_completes {s t : State} (h : Inv s) (hc : Completes s t) (ht : StoreInv t) : Inv t := by
  rcases hc with rfl | ⟨u, c, sub, idx, rfl, hinfo⟩
  · exact h
  · exact Inv.of_complete ht hinfo

/-- R54. -/
theorem Inv.acknowledge {s : State} (h : Inv s) (v : Word) : Inv (s.acknowledge v) where
  legal := h.legal
  memory := h.memory
  regs := ⟨h.regs.fit, h.regs.unwritten⟩
  status :=
    { abortBusy := h.status.abortBusy
      lastcmd := h.status.lastcmd
      busyClear := fun hb => by
        obtain ⟨hdone, herr, hcode⟩ := h.status.busyClear hb
        exact ⟨by simp [hdone], by simp [herr], hcode⟩
      errCode := fun he => by
        rw [acknowledge_err, Bool.and_eq_true] at he
        exact h.status.errCode he.1
      errInfo := h.status.errInfo }
  lanes := h.lanes.outside

/-- R51, R52: IRQEN takes any value, and an abort becomes pending only while BUSY = 1. -/
theorem Inv.control {s : State} (h : Inv s) (irqen request : Bool) :
    Inv { s with irqen := irqen, abortPending := s.abortPending || (request && s.busy) } where
  legal := h.legal
  memory := h.memory
  regs := ⟨h.regs.fit, h.regs.unwritten⟩
  status :=
    { abortBusy := fun ha => by
        rcases Bool.or_eq_true_iff.1 ha with ha | ha
        · exact h.status.abortBusy ha
        · exact (Bool.and_eq_true_iff.1 ha).2
      lastcmd := h.status.lastcmd
      busyClear := h.status.busyClear
      errCode := h.status.errCode
      errInfo := h.status.errInfo }
  lanes := h.lanes.outside

/-- R152, R325. -/
theorem lanesInv_accept (s : State) (w : Word) : LanesInv (s.accept w) := by
  rcases accept_unit_cases s w with ⟨hu, -⟩ | ⟨rb, rc, hd, hc, hu⟩
  · exact LanesInv.of_none hu
  · rw [accept_eq, hu]
    have hrun : (s.accepted w).runningDecrypt = some (rb, rc) := runningDecrypt_eq_some_iff.2 ⟨w, rfl, hd⟩
    exact LanesInv.set_unit hrun hc (UnitInv.start (s.accepted w) _ _)

theorem Inv.accept {s : State} (h : Inv s) (w : Word) : Inv (s.accept w) := by
  have hlanes := lanesInv_accept s w
  rw [accept_eq] at hlanes ⊢
  exact {
    legal := h.legal
    memory := h.memory
    regs := ⟨h.regs.fit, h.regs.unwritten⟩
    status :=
      { abortBusy := fun ha => absurd ha Bool.false_ne_true
        lastcmd := fun _ hr => Run.running.inj hr
        busyClear := fun _ => ⟨rfl, rfl, rfl⟩
        errCode := fun he => absurd he Bool.false_ne_true
        errInfo := fun _ => ⟨rfl, rfl⟩ }
    lanes := hlanes }

theorem abandonInstr_memory {s : State} (h : MemoryInv s.params s.mem) (i : Instr) :
    MemoryInv s.params (abandonInstr i s).mem := by
  have htake : ∀ k, MemoryInv s.params (s.takeSome k).mem := fun k => by rw [takeSome_mem]; exact h
  cases i with
  | ptest rb rounds => exact htake _
  | genprime ra bits => exact htake _
  | genkeys ra rb rc bits => exact htake _
  | encrypt rb rc => exact h.redrawCt _ _
  | decrypt rb rc => exact h.redrawOut _
  | _ => exact h

/-- R453: an abandoned command keeps memory in its storage, and the parameters. -/
theorem abandon_memory {s : State} (h : MemoryInv s.params s.mem) :
    s.abandon.params = s.params ∧ MemoryInv s.params s.abandon.mem := by
  rcases abandon_cases s with hs | ⟨w, i, -, -, hi⟩
  · rw [hs]; exact ⟨rfl, h⟩
  · rw [hi]
    exact ⟨by rw [abandonInstr_eq], abandonInstr_memory h i⟩

/-- R450, R452: reset values with any canonical memory. -/
theorem Inv.of_reset {p : Params} (hl : p.Legal) {m : Memory} (hm : MemoryInv p m) {entropy : List EntropyPair}
    {script : List Event} {bus : BusResponse} {draws : Nat} :
    Inv { State.resetWith p with mem := m, entropy := entropy, script := script, bus := bus, draws := draws } where
  legal := hl
  memory := hm
  regs :=
    { fit := fun k => by simp [State.reg, State.resetWith]
      unwritten := fun k _ => by simp [State.reg, State.resetWith] }
  status :=
    { abortBusy := fun ha => absurd ha Bool.false_ne_true
      lastcmd := fun _ hr => Run.noConfusion hr
      busyClear := fun hb => absurd hb Bool.false_ne_true
      errCode := fun he => absurd he Bool.false_ne_true
      errInfo := fun _ => ⟨rfl, rfl⟩ }
  lanes := LanesInv.of_none rfl

theorem Inv.softReset {s : State} (h : Inv s) : Inv s.softReset ∧ s.softReset.params = s.params := by
  obtain ⟨hp, hm⟩ := abandon_memory h.memory
  refine ⟨?_, hp⟩
  rw [State.softReset, State.resetRegisters, hp]
  exact Inv.of_reset h.legal hm

theorem Inv.hardReset {s : State} (h : Inv s) : Inv s.hardReset ∧ s.hardReset.params = s.params := by
  obtain ⟨hp, -⟩ := abandon_memory h.memory
  refine ⟨?_, hp⟩
  rw [State.hardReset, State.softReset, State.resetRegisters, hp]
  exact Inv.of_reset h.legal (MemoryInv.blank _ _)

/-! ### Every event keeps the invariant -/

/-- A result that is a next state with the invariant and the same parameters. -/
def SafeResult (s : State) (r : Result) : Prop := ∃ t, r = .next t ∧ Inv t ∧ t.params = s.params

theorem engineStep_safe {s : State} (h : Inv s) : SafeResult s (engineStep s) := by
  unfold engineStep
  split
  · exact ⟨s, rfl, h, rfl⟩
  · next w _ =>
    unfold completionStep
    split
    · exact ⟨_, rfl, h.of_completes (.raise s s ErrCode.noConfusion) (h.store.raise _), rfl⟩
    · next i _ =>
      obtain ⟨t, ht⟩ := exec_total i s
      exact ⟨t, ht, h.of_completes (exec_completes ht) (exec_store h.store ht), (exec_kept ht).params⟩

/-- R110: a write that is taken at a locked location finds the engine Idle. -/
theorem idle_of_locked {s : State} {loc : Loc} (hu : s.busy = true → loc.writeLocked = false)
    (hw : loc.writeLocked = true) : s.busy = false :=
  Bool.eq_false_iff.2 fun hb => absurd ((hu hb).symm.trans hw) Bool.false_ne_true

theorem writeCsr_safe {s : State} (h : Inv s) {c : Csr} (v : Word) (hu : s.busy = true → (Loc.csr c).writeLocked = false) :
    Inv (s.writeCsr c v) ∧ (s.writeCsr c v).params = s.params := by
  cases c with
  | ctrl =>
    rw [State.writeCsr, State.writeCtrl]
    split
    · exact h.softReset
    · exact ⟨h.control _ _, rfl⟩
  | status => exact ⟨h.acknowledge v, rfl⟩
  | cmd =>
    rw [State.writeCsr, State.writeCmd]
    split
    · exact ⟨h.outside, rfl⟩
    · exact ⟨h.accept v, by rw [accept_eq]; rfl⟩
  | msglen => exact ⟨h.outside, rfl⟩
  | ctcount => exact ⟨h.set_operands (idle_of_locked hu rfl) h.memory ⟨h.regs.fit, h.regs.unwritten⟩, rfl⟩
  | bzero =>
    refine ⟨h.set_operands (idle_of_locked hu rfl) h.memory ⟨fun k => ?_, fun k hk => ?_⟩, rfl⟩
    · refine (reg_bzero s v k).trans_lt ?_
      split
      · exact Nat.two_pow_pos _
      · exact h.regs.fit k
    · obtain ⟨hv, hk⟩ := Bool.or_eq_false_iff.1 ((isValid_bzero s v k).symm.trans hk)
      refine (reg_bzero s v k).trans ?_
      rw [hv]
      exact h.regs.unwritten k hk
  | _ => exact ⟨h, rfl⟩

theorem writeLoc_safe {s : State} (h : Inv s) {off : Nat} {loc : Loc} (h4 : off % 4 = 0)
    (hloc : locate s.params off = some loc) (v : Word) (hu : s.busy = true → loc.writeLocked = false) :
    Inv (s.writeLoc loc v) ∧ (s.writeLoc loc v).params = s.params := by
  obtain ⟨⟨hmod, -⟩, -, -, ⟨hmsg, -⟩, ⟨hout, -⟩, -⟩ := h.legal
  have hmem : s.busy = false → (∀ x, off ≤ x → x < off + 4 → hasStorage s.params x) →
      Inv { s with mem := s.mem.writeWord off v } := fun hi hs =>
    h.set_operands hi (h.memory.writeWord v hs) ⟨h.regs.fit, h.regs.unwritten⟩
  rcases locate_cases hloc with ⟨c, rfl⟩ | ⟨k, j, rfl⟩ | ⟨hlo, hhi, hslot, rfl⟩ | ⟨hlo, hhi, rfl⟩ | ⟨hlo, hhi, rfl⟩
  · exact writeCsr_safe h v hu
  · rw [State.writeLoc]
    split
    · next hj =>
      have hstore := h.store.writeReg k (setLimb_lt v hmod hj (h.regs.fit k))
      exact ⟨h.set_operands (idle_of_locked hu rfl) h.memory ⟨hstore.regs.fit, hstore.regs.unwritten⟩, rfl⟩
    · exact ⟨h, rfl⟩
  · rw [State.writeLoc]
    split
    · next hj =>
      refine ⟨hmem (idle_of_locked hu rfl) fun x h1 h2 => Or.inl ?_, rfl⟩
      unfold ctBase msgBase at *
      omega
    · exact ⟨h, rfl⟩
  · exact ⟨hmem (idle_of_locked hu rfl) fun x h1 h2 => Or.inr (Or.inl (by unfold msgBase at *; omega)), rfl⟩
  · exact ⟨hmem (idle_of_locked hu rfl) fun x h1 h2 => Or.inr (Or.inr (by unfold outBase at *; omega)), rfl⟩

theorem busWrite_safe {s : State} (h : Inv s) (addr width : Nat) (v : Word) :
    Inv (s.busWrite addr width v) ∧ (s.busWrite addr width v).params = s.params := by
  rcases busWrite_cases s addr width v with ⟨r, hr⟩ | ⟨off, loc, -, h4, hloc, hu, hw⟩
  · rw [hr]
    exact ⟨h.outside, rfl⟩
  · obtain ⟨hinv, hp⟩ := writeLoc_safe h h4 hloc v hu
    rw [hw]
    exact ⟨hinv.outside, hp⟩

theorem dispatchStep_safe {s : State} (h : Inv s) : Inv s.dispatchStep := by
  unfold State.dispatchStep
  split
  · exact h
  · next u hu =>
    obtain ⟨rb, rc, hd, hc, hunit⟩ := h.lanes u hu
    exact h.set_unit (LanesInv.set_unit hd hc hunit.dispatch)

theorem laneStep_safe {s : State} (h : Inv s) (l : Nat) : Inv (s.laneStep l) := by
  unfold State.laneStep
  split
  · next u rb rc hu hd =>
    obtain ⟨rb', rc', hd', hc, hunit⟩ := h.lanes u hu
    cases hd'.symm.trans hd
    obtain ⟨-, -, -, hcnt, -⟩ := (checkDecrypt_eq_none_iff rb rc s).1 hc
    split
    · exact h
    · next i hi =>
      have hl : u.lanes[l]? = some (.busy i) := by
        rw [List.getD_eq_getElem?_getD] at hi
        cases hget : u.lanes[l]? with
        | none => rw [hget] at hi; cases hi
        | some x => rw [hget] at hi; exact congrArg some hi
      exact h.set_unit (LanesInv.set_unit hd hc (hunit.report hcnt hl))
  · exact h

theorem arbiterStep_safe {s : State} (h : Inv s) : Inv s.arbiterStep ∧ s.arbiterStep.params = s.params := by
  rcases arbiterStep_cases s with hs | ⟨pt, hf⟩
  · rw [hs]
    exact ⟨h, rfl⟩
  · rw [hf]
    exact ⟨h.of_completes (finishDecrypt_completes s s pt) (finishDecrypt_store h.store pt),
      (finishDecrypt_frame s pt).kept.params⟩

theorem eventStep_safe {s : State} (h : Inv s) (e : Event) : SafeResult s (eventStep e s) := by
  cases e with
  | read addr width =>
    obtain ⟨r, hr⟩ := busRead_eq s addr width
    refine ⟨_, rfl, ?_⟩
    rw [hr]
    exact ⟨h.outside, rfl⟩
  | write addr width v => exact ⟨_, rfl, busWrite_safe h addr width v⟩
  | hardReset => exact ⟨_, rfl, h.hardReset⟩
  | deliver p => exact ⟨_, rfl, h.outside, rfl⟩
  | engine => exact engineStep_safe h
  | dispatch =>
    obtain ⟨u, hu⟩ := dispatchStep_eq s
    exact ⟨_, rfl, dispatchStep_safe h, by rw [hu]⟩
  | lane l =>
    obtain ⟨u, hu⟩ := laneStep_eq s l
    exact ⟨_, rfl, laneStep_safe h l, by rw [hu]⟩
  | arbiter => exact ⟨_, rfl, arbiterStep_safe h⟩

/-- Settles O44: the step is the engine's move or the script's first event, and each keeps the invariant. -/
theorem stepKeepsTheInvariant : Obligations.StepKeepsTheInvariant := by
  intro s h
  cases hs : s.script with
  | nil =>
    have hstep : step s = engineStep s := by rw [step, if_pos h.legal, nextMove, hs]
    rw [SafeStep, hstep]
    exact engineStep_safe h
  | cons e rest =>
    have hscript : Inv { s with script := rest } := h.outside
    rw [SafeStep, step_event h.legal hs]
    exact eventStep_safe hscript e

end Sys2Proof

namespace Sys2Proof.Machine

/-! ### Accesses that get a bus error (R107, R110, R112) -/

theorem target_eq_none_iff {s : State} {off width : Nat} :
    s.target off width = none ↔ width ≠ 4 ∨ off % 4 ≠ 0 ∨ locate s.params off = none := by
  unfold State.target
  split
  · next h => exact ⟨fun _ => h.elim Or.inl fun h4 => Or.inr (Or.inl h4), fun _ => rfl⟩
  · next h => exact ⟨fun hn => Or.inr (Or.inr hn), by tauto⟩

theorem locate_of_target {s : State} {off width : Nat} {loc : Loc} (h : s.target off width = some loc) :
    locate s.params off = some loc := by
  unfold State.target at h
  split at h
  · cases h
  · exact h

/-- R42: the offsets of the CSR table. -/
theorem csrAt_mem {off : Nat} {c : Csr} (h : csrAt off = some c) :
    off ∈ [0x000, 0x004, 0x008, 0x00C, 0x010, 0x014, 0x018, 0x020, 0x024, 0x028, 0x02C, 0x030, 0x034, 0x038, 0x03C, 0x040,
      0x044] := by
  unfold csrAt at h
  split at h
  case h_18 => cases h
  all_goals decide

/-- R101, R112: the offsets below 0x1000 outside the CSR table, between the B and CT windows, and above the last ciphertext
slot, MSG byte and OUT byte are unmapped. -/
theorem locate_unmapped {p : Params} {off : Nat}
    (h : (off < 0x1000 ∧ csrAt off = none) ∨ (0x3000 ≤ off ∧ off < ctBase) ∨
      (ctBase ≤ off ∧ off < msgBase ∧ p.ctSlots ≤ (off - ctBase) / 0x200) ∨
      (msgBase + p.msgBytes ≤ off ∧ off < outBase) ∨ outBase + p.outBytes ≤ off) :
    locate p off = none := by
  cases hloc : locate p off with
  | none => rfl
  | some loc =>
    exfalso
    unfold locate at hloc
    unfold ctBase msgBase outBase at *
    split at hloc
    · next hcsr =>
      obtain ⟨c, hc, -⟩ := Option.map_eq_some_iff.1 hloc
      rcases h with ⟨-, hn⟩ | h
      · rw [hn] at hc; cases hc
      · omega
    · split_ifs at hloc <;> omega

/-- R110: everything from 0x1000 on is locked while BUSY = 1. -/
theorem locate_window_locked {p : Params} {off : Nat} {loc : Loc} (h : locate p off = some loc) (hoff : 0x1000 ≤ off) :
    loc.readLocked = true ∧ loc.writeLocked = true := by
  rcases locate_cases h with ⟨c, rfl⟩ | ⟨k, j, rfl⟩ | ⟨-, -, -, rfl⟩ | ⟨-, -, rfl⟩ | ⟨-, -, rfl⟩
  · rw [locate, if_neg (by omega)] at h
    split_ifs at h <;> cases h
  all_goals exact ⟨rfl, rfl⟩

/-- A host access whose offset and width reach no location, or one that `locked` names while BUSY = 1. -/
def State.refuses (s : State) (locked : Loc → Bool) (off width : Nat) : Prop :=
  ∀ loc, s.target off width = some loc → s.busy = true ∧ locked loc = true

theorem refuses_of_target_none {s : State} {off width : Nat} (h : s.target off width = none) (locked : Loc → Bool) :
    s.refuses locked off width := fun loc hloc => by rw [h] at hloc; cases hloc

section Refused

variable {s : State} {off width : Nat} {rest : List Event} {v : Word}

theorem busRead_refused (hoff : off < 0x40000) (h : s.refuses Loc.readLocked off width) :
    s.busRead (s.params.base + off) width = { s with bus := .error } := by
  simp only [State.busRead, windowOffset_base _ hoff]
  split
  · rfl
  · next loc hloc => rw [if_pos (by simpa using h loc hloc)]

theorem busWrite_refused (hoff : off < 0x40000) (h : s.refuses Loc.writeLocked off width) :
    s.busWrite (s.params.base + off) width v = { s with bus := .error } := by
  simp only [State.busWrite, windowOffset_base _ hoff]
  split
  · rfl
  · next loc hloc => rw [if_pos (by simpa using h loc hloc)]

/-- A read that the engine refuses gets a bus error and changes no state (R107, R110, R112). -/
theorem step_read_refused (hl : s.params.Legal) (hs : s.script = .read (s.params.base + off) width :: rest)
    (hoff : off < 0x40000) (h : s.refuses Loc.readLocked off width) :
    step s = .next { s with script := rest, bus := .error } :=
  (step_event hl hs).trans
    (congrArg Host.Outcome.next (busRead_refused (s := { s with script := rest }) hoff h))

/-- A write that the engine refuses gets a bus error and changes no state (R107, R110, R112). -/
theorem step_write_refused (hl : s.params.Legal) (hs : s.script = .write (s.params.base + off) width v :: rest)
    (hoff : off < 0x40000) (h : s.refuses Loc.writeLocked off width) :
    step s = .next { s with script := rest, bus := .error } :=
  (step_event hl hs).trans
    (congrArg Host.Outcome.next (busWrite_refused (s := { s with script := rest }) hoff h))

end Refused

/-- Settles O50: `busRead_eq` at the step of the read. -/
theorem readsHaveNoSideEffect : Obligations.ReadsHaveNoSideEffect := by
  intro s addr width rest hl hs
  obtain ⟨r, hr⟩ := busRead_eq { s with script := rest } addr width
  exact ⟨r, (step_event hl hs).trans (congrArg Host.Outcome.next hr)⟩

/-- Settles O51: such an access reaches no location, so the engine refuses it. -/
theorem busErrorsChangeNothing : Obligations.BusErrorsChangeNothing := by
  intro s off width v rest hl hoff h
  have hnone : s.target off width = none := by
    refine target_eq_none_iff.2 (h.imp_right (Or.imp_right fun h => locate_unmapped ?_))
    exact h.imp_left fun ⟨hlt, hnot⟩ => ⟨hlt, Option.eq_none_iff_forall_ne_some.2 fun _ hc => hnot (csrAt_mem hc)⟩
  exact ⟨fun hs => step_read_refused hl hs hoff (refuses_of_target_none hnone _),
    fun hs => step_write_refused hl hs hoff (refuses_of_target_none hnone _)⟩

/-- Settles O52: the windows by `locate_window_locked`, the CSRs by the steps of their accesses. -/
theorem windowsAreLockedWhileBusy : Obligations.WindowsAreLockedWhileBusy := by
  refine fun s off v rest hl hb => ⟨fun hlo hhi => ?_, fun h hs => ?_, fun c hc hs => step_readCsr hl hs hc, fun h hs => ?_⟩
  · have hlock : ∀ loc, s.target off 4 = some loc → loc.readLocked = true ∧ loc.writeLocked = true :=
      fun loc h => locate_window_locked (locate_of_target h) hlo
    exact ⟨fun hs => step_read_refused hl hs hhi fun loc h => ⟨hb, (hlock loc h).1⟩,
      fun hs => step_write_refused hl hs hhi fun loc h => ⟨hb, (hlock loc h).2⟩⟩
  · rcases h with rfl | rfl | rfl
    · exact step_writeCsr_locked hl hs (c := .msglen) rfl hb rfl
    · exact step_writeCsr_locked hl hs (c := .ctcount) rfl hb rfl
    · exact step_writeCsr_locked hl hs (c := .bzero) rfl hb rfl
  · rcases h with rfl | rfl | rfl
    · exact ⟨_, step_writeCsr hl hs (c := .ctrl) rfl (Or.inr rfl), rfl⟩
    · exact ⟨_, step_writeCsr hl hs (c := .status) rfl (Or.inr rfl), rfl⟩
    · exact ⟨_, step_writeCsr hl hs (c := .cmd) rfl (Or.inr rfl), rfl⟩

/-! ### The words of MSG and OUT (R102) -/

/-- R65: the word of MSG at byte 4*q. -/
theorem locate_msg (p : Params) {q : Nat} (hq : 4 * q < p.msgBytes) (hp : p.msgBytes ≤ 65536) :
    locate p (0x20000 + 4 * q) = some (.msg (0x20000 + 4 * q)) := by
  unfold locate ctBase msgBase outBase
  rw [if_neg (by omega), if_neg (by omega), if_neg (by omega), if_neg (by omega), if_pos (by omega), if_pos (by omega)]

/-- R66: the word of OUT at byte 4*q. -/
theorem locate_out (p : Params) {q : Nat} (hq : 4 * q < p.outBytes) (hp : p.outBytes ≤ 65536) :
    locate p (0x30000 + 4 * q) = some (.out (0x30000 + 4 * q)) := by
  unfold locate ctBase msgBase outBase outEnd
  rw [if_neg (by omega), if_neg (by omega), if_neg (by omega), if_neg (by omega), if_neg (by omega), if_pos (by omega),
    if_pos (by omega)]

/-- R102: byte b of a word stands in data bits [8b+7:8b]. -/
theorem Memory.readWord_eq (m : Memory) (a : Nat) :
    m.readWord a = BitVec.ofNat 32 ((m.read a).toNat + (m.read (a + 1)).toNat * 2 ^ 8 +
      (m.read (a + 2)).toNat * 2 ^ 16 + (m.read (a + 3)).toNat * 2 ^ 24) := by
  have hbytes : m.readBytes a 4 = [m.read a, m.read (a + 1), m.read (a + 2), m.read (a + 3)] := m.readBytes_eq a 4
  rw [Memory.readWord, hbytes]
  congr 1
  simp only [leValue_cons, show leValue [] = 0 from rfl]
  omega

/-- A mapped word of MSG or OUT is 4-aligned inside the window, and is read and written as a word of memory. -/
theorem ramWord_location {p : Params} (hl : p.Legal) {off q : Nat}
    (h : (off = 0x20000 + 4 * q ∧ 4 * q < p.msgBytes) ∨ (off = 0x30000 + 4 * q ∧ 4 * q < p.outBytes)) :
    off < 0x40000 ∧ off % 4 = 0 ∧ ∃ loc, locate p off = some loc ∧ (∀ s : State, s.readLoc loc = s.mem.readWord off) ∧
      ∀ (s : State) (v : Word), s.writeLoc loc v = { s with mem := s.mem.writeWord off v } := by
  obtain ⟨-, -, -, ⟨-, -, hmsg⟩, ⟨-, -, hout⟩, -⟩ := hl
  rcases h with ⟨rfl, hq⟩ | ⟨rfl, hq⟩
  · exact ⟨by omega, by omega, _, locate_msg p hq hmsg, fun _ => rfl, fun _ _ => rfl⟩
  · exact ⟨by omega, by omega, _, locate_out p hq hout, fun _ => rfl, fun _ _ => rfl⟩

/-- Settles O56: `ramWord_location` leads both accesses to a word of memory, whose lanes are its bytes. -/
theorem messageAndOutputByteLanes : Obligations.MessageAndOutputByteLanes := by
  intro s off q v rest hl hi h
  obtain ⟨hoff, h4, loc, hloc, hread, hwrite⟩ := ramWord_location hl h
  refine ⟨fun hs => ?_, fun hs => ?_⟩
  · rw [step_read hl hs hoff h4 hloc, hi, hread, Memory.readWord_eq]; rfl
  · refine ⟨{ s with script := rest, bus := .done, mem := s.mem.writeWord off v }, ?_, rfl, fun b hb => ?_, fun a ha => ?_⟩
    · rw [step_write hl hs hoff h4 hloc, hi, hwrite]; rfl
    · exact (s.mem.read_writeWord off v hb).trans (by rw [Nat.shiftRight_eq_div_pow])
    · exact Memory.read_writeBytes_of_not_mem s.mem (by rwa [leBytes_length])

/-! ### What ENCRYPT reads of memory (R122, R304) -/

theorem ct_congr {s t : State} {i : Nat} (hp : t.params = s.params)
    (h : ∀ a, ctAddr i ≤ a → a < ctAddr i + s.params.maxBits / 8 → t.mem.read a = s.mem.read a) : t.ct i = s.ct i := by
  rw [State.ct, State.ct, hp, Memory.readBytes_congr h]

@[simp] theorem writeCts_params (s : State) (i : Nat) (vs : List Nat) : (s.writeCts i vs).params = s.params := by
  rw [writeCts_eq]

theorem ct_writeCt_same (s : State) (i v : Nat) : (s.writeCt i v).ct i = v % 256 ^ (s.params.maxBits / 8) := by
  have h := Memory.readBytes_writeBytes_same s.mem (ctAddr i) (leBytes (s.params.maxBits / 8) v)
  rw [leBytes_length] at h
  rw [State.ct, writeCt_mem, writeCt_params, h, leValue_leBytes]

/-- R304: a written slot holds its value, cut to the MAXBITS bits of the slot. -/
theorem ct_writeCts {s : State} (hw : s.params.maxBits / 8 ≤ 0x200) {i k : Nat} {vs : List Nat} (hk : k < vs.length) :
    (s.writeCts i vs).ct (i + k) = vs[k] % 256 ^ (s.params.maxBits / 8) := by
  induction vs generalizing s i k with
  | nil => exact absurd hk (Nat.not_lt_zero k)
  | cons v vs ih =>
    cases k with
    | zero =>
      have hkept : ((s.writeCt i v).writeCts (i + 1) vs).ct i = (s.writeCt i v).ct i :=
        ct_congr (writeCts_params (s.writeCt i v) (i + 1) vs) fun a h1 h2 =>
          read_writeCts_of_not_mem (s := s.writeCt i v) hw (by rw [writeCt_params] at h2; unfold ctAddr at *; omega)
      exact hkept.trans (ct_writeCt_same s i v)
    | succ k =>
      rw [List.getElem_cons_succ, ← Nat.succ_add_eq_add_succ]
      exact ih (s := s.writeCt i v) hw (Nat.lt_of_succ_lt_succ hk)

/-- R302: a message block lies in MSG[0..MSGLEN-1]. -/
theorem messageBlock_congr {s : State} {m : Memory}
    (hm : ∀ k, k < s.msglen.toNat → m.read (msgBase + k) = s.mem.read (msgBase + k)) (bs i : Nat) :
    ({ s with mem := m } : State).messageBlock bs i = s.messageBlock bs i := by
  refine Memory.readBytes_congr fun x h1 (h2 : x < msgBase + i * bs + min bs (s.msglen.toNat - i * bs)) => ?_
  obtain ⟨k, rfl⟩ := Nat.exists_eq_add_of_le (show msgBase ≤ x by omega)
  exact hm k (by omega)

theorem ciphertexts_congr {s : State} {m : Memory}
    (hm : ∀ k, k < s.msglen.toNat → m.read (msgBase + k) = s.mem.read (msgBase + k)) (rb rc : Reg) :
    ({ s with mem := m } : State).ciphertexts rb rc = s.ciphertexts rb rc :=
  List.map_congr_left fun i _ =>
    congrArg (encodeBlock · (s.reg rb) (s.reg rc)) (messageBlock_congr hm (s.encryptSize rc) i)

/-- Settles O26: the check and the abort read no memory, so both runs take the same way; a success writes the same
ciphertexts. -/
theorem encryptReadsOnlyTheMessage : Obligations.EncryptReadsOnlyTheMessage := by
  intro rb rc s t t' m hl hm h h'
  have hcheck : checkEncrypt rb rc { s with mem := m } = checkEncrypt rb rc s := rfl
  rcases execEncrypt_cases h with ⟨f, hf, rfl⟩ | ⟨hn, ha, rfl⟩ | ⟨hn, ha, rfl⟩
  · rw [exec, execEncrypt, hcheck, hf, command_some] at h'
    cases h'
    exact ⟨rfl, rfl, rfl, rfl, rfl, fun hno => absurd hno (checkOf_isErrorCheck (.encrypt rb rc) s f hf)⟩
  · rw [exec, execEncrypt, hcheck, hn, command_abort (by exact ha)] at h'
    cases h'
    exact ⟨rfl, rfl, rfl, rfl, rfl, fun hno => absurd hno ErrCode.noConfusion⟩
  · rw [exec, execEncrypt, hcheck, hn, command_go (by exact ha), ciphertexts_congr hm] at h'
    cases h'
    refine ⟨rfl, rfl, rfl, rfl, rfl, fun _ i hi => ?_⟩
    have hlen : i < (s.ciphertexts rb rc).length := by
      rw [ciphertexts_length]
      exact lt_of_lt_of_le hi (Nat.mod_le _ _)
    have hslot : ∀ x : Memory, (({ s with mem := x } : State).writeCts 0 (s.ciphertexts rb rc)).ct i =
        (s.ciphertexts rb rc)[i] % 256 ^ (s.params.maxBits / 8) := fun x => by
      have hct := ct_writeCts (s := { s with mem := x }) (slotBytes_le hl) (i := 0) hlen
      rwa [Nat.zero_add] at hct
    exact (hslot m).trans (hslot s.mem).symm

end Sys2Proof.Machine

namespace Sys2Proof

/-! ### The operands of an encoded word (R141-R146) -/

theorem regField_eq_of_field {w : Word} {hi lo : Nat} {r : Reg} (h : field w hi lo = r.val) : regField w hi lo = r := by
  rw [regField, h, Fin.ofNat_val_eq_self]

theorem ofNat_field_eq {w : Word} {hi lo n : Nat} {imm : BitVec n} (h : field w hi lo = imm.toNat) :
    BitVec.ofNat n (field w hi lo) = imm := by
  rw [h, BitVec.ofNat_toNat, BitVec.setWidth_eq]

section Operands

variable {op : Nat} (hop : op < 256) (ra rb rc rd : Reg) (imm16 : BitVec 16) (imm12 : BitVec 12)
include hop

theorem operands_formatR :
    regField (formatR op ra rb rc rd) 23 20 = ra ∧ regField (formatR op ra rb rc rd) 19 16 = rb ∧
      regField (formatR op ra rb rc rd) 15 12 = rc ∧ regField (formatR op ra rb rc rd) 11 8 = rd := by
  refine ⟨?_, ?_, ?_, ?_⟩ <;> refine regField_eq_of_field ?_ <;> rw [field, formatR_toNat hop] <;> omega

theorem operands_formatI :
    regField (formatI op ra rb imm16) 23 20 = ra ∧ regField (formatI op ra rb imm16) 19 16 = rb ∧
      BitVec.ofNat 16 (field (formatI op ra rb imm16) 15 0) = imm16 := by
  have := imm16.isLt
  refine ⟨regField_eq_of_field ?_, regField_eq_of_field ?_, ofNat_field_eq ?_⟩ <;>
    rw [field, formatI_toNat hop] <;> omega

theorem operands_formatK :
    regField (formatK op ra rb rc imm12) 23 20 = ra ∧ regField (formatK op ra rb rc imm12) 19 16 = rb ∧
      regField (formatK op ra rb rc imm12) 15 12 = rc ∧
      BitVec.ofNat 12 (field (formatK op ra rb rc imm12) 11 0) = imm12 := by
  have := imm12.isLt
  refine ⟨regField_eq_of_field ?_, regField_eq_of_field ?_, regField_eq_of_field ?_, ofNat_field_eq ?_⟩ <;>
    rw [field, formatK_toNat hop] <;> omega

end Operands

/-- R141-R146: the encoder drops no operand. -/
theorem operandsOf_encode (i : Instr) : operandsOf i.opcode (encode i) = i := by
  cases i <;> simp [operandsOf, Instr.opcode, encode, operands_formatR, operands_formatI, operands_formatK]

/-- R147: the word of a command is a word of the command's own row. -/
theorem encode_in_row (i : Instr) : Laws.EncodesRow.Statement i := by
  cases i with
  | nop => exact Laws.EncodesRow.nop
  | modinv ra rb rc => exact Laws.EncodesRow.modinv ra rb rc
  | modexp ra rb rc rd => exact Laws.EncodesRow.modexp ra rb rc rd
  | ptest rb rounds => exact Laws.EncodesRow.ptest rb rounds
  | genprime ra bits => exact Laws.EncodesRow.genprime ra bits
  | genkeys ra rb rc bits => exact Laws.EncodesRow.genkeys ra rb rc bits
  | encrypt rb rc => exact Laws.EncodesRow.encrypt rb rc
  | decrypt rb rc => exact Laws.EncodesRow.decrypt rb rc

/-! ### A word is put together from its fields again (R141-R143) -/

theorem formatR_operands {w : Word} (h : field w 7 0 = 0) :
    formatR (field w 31 24) (regField w 23 20) (regField w 19 16) (regField w 15 12) (regField w 11 8) = w := by
  have hw := w.isLt
  apply BitVec.eq_of_toNat_eq
  rw [formatR_toNat (field_lt w 31 24)]
  simp only [regField_val]
  unfold field at *
  omega

theorem formatI_operands (w : Word) :
    formatI (field w 31 24) (regField w 23 20) (regField w 19 16) (BitVec.ofNat 16 (field w 15 0)) = w := by
  have hw := w.isLt
  apply BitVec.eq_of_toNat_eq
  rw [formatI_toNat (field_lt w 31 24)]
  simp only [regField_val, BitVec.toNat_ofNat]
  unfold field
  omega

theorem formatK_operands (w : Word) :
    formatK (field w 31 24) (regField w 23 20) (regField w 19 16) (regField w 15 12)
      (BitVec.ofNat 12 (field w 11 0)) = w := by
  have hw := w.isLt
  apply BitVec.eq_of_toNat_eq
  rw [formatK_toNat (field_lt w 31 24)]
  simp only [regField_val, BitVec.toNat_ofNat]
  unfold field
  omega

/-- Format R: where bits 11:0 are zero, rd and the unused bits below it are. -/
theorem low_fields_eq_zero {w : Word} (h : field w 11 0 = 0) : regField w 11 8 = 0 ∧ field w 7 0 = 0 := by
  unfold field at h
  exact ⟨regField_eq_of_field (show _ / _ % _ = 0 by omega), show _ / _ % _ = 0 by omega⟩

/-- R147: a word of a row is determined by its operands, because the row's other fields are zero. -/
theorem encode_operandsOf {op : Opcode} {w : Word} (hop : field w 31 24 = op.number) (hz : op.zeroFields w) :
    encode (operandsOf op w) = w := by
  cases op with
  | nop =>
    change field w 23 0 = 0 at hz
    apply BitVec.eq_of_toNat_eq
    simp only [field, Opcode.number] at hop hz
    show 0 = w.toNat
    omega
  | modinv =>
    obtain ⟨hd, hlow⟩ := low_fields_eq_zero hz
    have h := formatR_operands hlow
    rwa [hop, hd] at h
  | modexp =>
    have h := formatR_operands hz
    rwa [hop] at h
  | ptest =>
    have h := formatI_operands w
    rwa [hop, regField_eq_of_field (r := 0) hz] at h
  | genprime =>
    have h := formatI_operands w
    rwa [hop, regField_eq_of_field (r := 0) hz] at h
  | genkeys =>
    have h := formatK_operands w
    rwa [hop] at h
  | encrypt =>
    obtain ⟨hd, hlow⟩ := low_fields_eq_zero hz.2
    have h := formatR_operands hlow
    rwa [hop, regField_eq_of_field (r := 0) hz.1, hd] at h
  | decrypt =>
    obtain ⟨hd, hlow⟩ := low_fields_eq_zero hz.2
    have h := formatR_operands hlow
    rwa [hop, regField_eq_of_field (r := 0) hz.1, hd] at h

/-! ### The decoder's answer by the fields of the word (R148) -/

theorem decode_undefinedOpcode {w : Word} (h : 7 < field w 31 24) : decode w = .error .undefinedOpcode := by
  rw [decode, (opcodeOf_eq_none_iff _).2 h]

section Row

variable {op : Opcode} {w : Word} (hop : field w 31 24 = op.number)
include hop

theorem decode_nonzeroField (hz : ¬ op.zeroFields w) : decode w = .error .nonzeroField := by
  have hm : w &&& op.mask ≠ op.value := fun hm => hz ((mask_test_iff op w).1 hm).2
  rw [decode, hop, opcodeOf_number]
  exact if_pos hm

/-- R147, R151: a word that passes its row's test is a command exactly if its operands make one. -/
theorem decode_zeroFields (hz : op.zeroFields w) :
    decode w = if (operandsOf op w).wellFormed then .ok (operandsOf op w) else .error .equalDestinations := by
  have hm : w &&& op.mask = op.value := (mask_test_iff op w).2 ⟨hop, hz⟩
  rw [decode, hop, opcodeOf_number]
  exact if_neg (not_not.2 hm)

end Row

/-- R147, R148: the words of the command i are those of its row with its operands, if it is well formed. -/
theorem decode_eq_ok_iff {w : Word} {i : Instr} :
    decode w = .ok i ↔
      ∃ op : Opcode, field w 31 24 = op.number ∧ op.zeroFields w ∧ operandsOf op w = i ∧ i.wellFormed = true := by
  constructor
  · intro h
    rcases decode_cases w with ⟨-, he⟩ | ⟨op, -, ⟨-, he⟩ | ⟨-, -, he⟩ | ⟨hm, hwf, hok⟩⟩
    · cases he.symm.trans h
    · cases he.symm.trans h
    · cases he.symm.trans h
    · obtain ⟨hop, hz⟩ := (mask_test_iff op w).1 hm
      cases hok.symm.trans h
      exact ⟨op, hop, hz, rfl, hwf⟩
  · rintro ⟨op, hop, hz, rfl, hwf⟩
    rw [decode_zeroFields hop hz, if_pos hwf]

/-- Settles O1: the encoded word is a word of the command's row, and its operands read back. -/
theorem decodeEncodeRoundTrip : Obligations.DecodeEncodeRoundTrip := fun i hwf =>
  have ⟨hop, hz⟩ := (mask_test_iff i.opcode (encode i)).1 (encode_in_row i).2
  decode_eq_ok_iff.2 ⟨i.opcode, hop, hz, operandsOf_encode i, hwf⟩

/-- Settles O2: a word that decodes is a word of a row, put together again from its operands. -/
theorem encodeDecodeRoundTrip : Obligations.EncodeDecodeRoundTrip := by
  intro w i h
  obtain ⟨op, hop, hz, rfl, hwf⟩ := decode_eq_ok_iff.1 h
  exact ⟨encode_operandsOf hop hz, hwf⟩

/-- R151 in the fields of a GENKEYS word. -/
theorem genkeys_equal_destinations {w : Word}
    (h : field w 23 20 = field w 19 16 ∨ field w 23 20 = field w 15 12 ∨ field w 19 16 = field w 15 12) :
    (operandsOf .genkeys w).wellFormed = false := by
  rcases h with h | h | h <;> simp [operandsOf, Instr.wellFormed, regField, h]

end Sys2Proof

namespace Sys2Proof.Machine

/-! ### The engine's move at a running word (R115, R152) -/

/-- The engine's move is the running word's completion step, whether the script is empty or names it. -/
theorem step_running {s s' : State} {w : Word} (hl : s.params.Legal) (hr : s.run = .running w)
    (hs : s.script = [] ∧ s' = s ∨ ∃ rest, s.script = .engine :: rest ∧ s' = { s with script := rest }) :
    step s = completionStep w s' := by
  rcases hs with ⟨hs, rfl⟩ | ⟨rest, hs, rfl⟩
  · rw [step, if_pos hl, nextMove, hs]
    simp only [engineStep, hr]
  · rw [step_event hl hs]
    simp only [eventStep, engineStep, hr]

theorem completionStep_error {w : Word} {e : Illegal} (h : decode w = .error e) (s : State) :
    completionStep w s = .next (s.raise ⟨.illegalCmd, e.subcode, 0⟩) := by
  rw [completionStep, h]

theorem completionStep_ok {w : Word} {i : Instr} (h : decode w = .ok i) (s : State) :
    completionStep w s = exec i s := by
  rw [completionStep, h]

theorem accept_params (s : State) (w : Word) : (s.accept w).params = s.params := by
  rw [accept_eq]
  rfl

theorem accept_run (s : State) (w : Word) : (s.accept w).run = .running w := by
  rw [accept_eq]
  rfl

theorem decodeTableWord_eq_some_iff {nbits n : Nat} {i : Instr} :
    decodeTableWord nbits n = some i ↔ decode (BitVec.ofNat 32 (n % 2 ^ nbits)) = .ok i := by
  unfold decodeTableWord
  cases decode (BitVec.ofNat 32 (n % 2 ^ nbits)) <;> simp

/-- Settles O3: the step raises what the decoder answers, which each clause's defect determines. -/
theorem illegalWordsComplete : Obligations.IllegalWordsComplete := by
  intro s s' w hl hr hs
  have raises : ∀ e : Illegal, decode w = .error e → step s = .next (s'.raise ⟨.illegalCmd, e.subcode, 0⟩) :=
    fun _ hd => (step_running hl hr hs).trans (completionStep_error hd s')
  refine ⟨fun h => raises .undefinedOpcode (decode_undefinedOpcode h), fun h => raises .nonzeroField ?_,
    fun hop heq => raises .equalDestinations ?_⟩
  · rcases h with ⟨hop, hz⟩ | ⟨hop, hz⟩ | ⟨hop, hz⟩ | ⟨hop, hz⟩ | ⟨hop, hz⟩ | ⟨hop | hop, hz⟩
    · exact decode_nonzeroField (op := .nop) hop hz
    · exact decode_nonzeroField (op := .modinv) hop hz
    · exact decode_nonzeroField (op := .modexp) hop hz
    · exact decode_nonzeroField (op := .ptest) hop hz
    · exact decode_nonzeroField (op := .genprime) hop hz
    · exact decode_nonzeroField (op := .encrypt) hop (not_and_or.2 hz)
    · exact decode_nonzeroField (op := .decrypt) hop (not_and_or.2 hz)
  · rw [decode_zeroFields (op := .genkeys) hop trivial, genkeys_equal_destinations heq]
    rfl

/-- Settles O4: the words are the encodings of well-formed commands (O1); the assembler is evaluated. -/
theorem sampleWordsDecode : Obligations.SampleWordsDecode :=
  ⟨decodeEncodeRoundTrip .nop rfl, decodeEncodeRoundTrip (.modinv 3 1 2) rfl,
    decodeEncodeRoundTrip (.modexp 4 1 2 3) rfl, decodeEncodeRoundTrip (.ptest 1 20) rfl,
    decodeEncodeRoundTrip (.genprime 2 8) rfl, decodeEncodeRoundTrip (.genkeys 13 14 15 16) rfl,
    decodeEncodeRoundTrip (.encrypt 2 1) rfl, decodeEncodeRoundTrip (.decrypt 3 1) rfl,
    by decide, by decide, by decide, by decide, by decide⟩

/-- Settles O5: `step_running` at a word that decodes; `accept` makes the fetched word the running one. -/
theorem stepRunsDecodedCommand : Obligations.StepRunsDecodedCommand := by
  refine ⟨fun s w i hl hs hr hd => ?_, fun s w i rest hl hs hr hd => ?_, fun s n i hl hd => ?_⟩
  · rw [step_running hl hr (.inl ⟨hs, rfl⟩), completionStep_ok hd]
  · rw [step_running hl hr (.inr ⟨rest, hs, rfl⟩), completionStep_ok hd]
  · have hlegal : (s.withFetchWord 32 n).params.Legal := (accept_params s _).symm ▸ hl
    have hrun : (s.withFetchWord 32 n).run = .running (BitVec.ofNat 32 (n % 2 ^ 32)) := accept_run s _
    rw [step_running hlegal hrun (.inl ⟨rfl, rfl⟩), completionStep_ok (decodeTableWord_eq_some_iff.1 hd)]

end Sys2Proof.Machine

namespace Sys2Proof.Machine

/-! ### The words of a draw (R203) -/

theorem Draw.bind_congr {α β : Type} {d : Draw α} {f g : α → List EntropyPair → Draw β}
    (h : ∀ v rest, d = .got v rest → f v rest = g v rest) : d.bind f = d.bind g := by
  cases d with
  | got v rest => exact h v rest rfl
  | failed sub rest => rfl
  | starved => rfl

theorem okPairs_append (ws vs : List Word) : okPairs (ws ++ vs) = okPairs ws ++ okPairs vs :=
  List.map_append

/-- R203: an EntropyInt that answers took k words, all of them ok, and answers their value. -/
theorem entropyInt_got {k v : Nat} {ps rest : List EntropyPair} (h : entropyInt k ps = .got v rest) :
    ∃ ws, ws.length = k ∧ ps = okPairs ws ++ rest ∧ v = wordsValue ws := by
  induction k generalizing ps v with
  | zero => cases h; exact ⟨[], rfl, rfl, rfl⟩
  | succ k ih =>
    cases ps with
    | nil => cases h
    | cons p ps =>
      obtain ⟨ok, w⟩ := p
      cases ok with
      | false => cases h
      | true =>
        obtain ⟨u, mid, hu, hv⟩ := Draw.bind_eq_got (show (entropyInt k ps).bind _ = _ from h)
        cases hv
        obtain ⟨ws, rfl, rfl, rfl⟩ := ih hu
        exact ⟨w :: ws, rfl, rfl, rfl⟩

/-- R203: the base of round j, where the words of the first j rounds are gone. -/
theorem mrBase_drop {n j : Nat} {ws : List Word} (rest : List EntropyPair) (h : (j + 1) * wordsFor n ≤ ws.length) :
    mrBase n (okPairs (ws.drop (j * wordsFor n)) ++ rest) =
      .got (baseOf n ws j) (okPairs (ws.drop ((j + 1) * wordsFor n)) ++ rest) := by
  rw [Nat.succ_mul] at h
  have hsplit : okPairs (ws.drop (j * wordsFor n)) ++ rest =
      okPairs ((ws.drop (j * wordsFor n)).take (wordsFor n)) ++ (okPairs (ws.drop ((j + 1) * wordsFor n)) ++ rest) := by
    rw [Nat.succ_mul, ← List.drop_drop, ← List.append_assoc, ← okPairs_append, List.take_append_drop]
  have hint := entropyInt_ok ((ws.drop (j * wordsFor n)).take (wordsFor n))
    (okPairs (ws.drop ((j + 1) * wordsFor n)) ++ rest)
  rw [List.length_take, List.length_drop, Nat.min_eq_left (by omega)] at hint
  rw [mrBase, ← wordsFor, hsplit, hint]
  rfl

theorem baseOf_mem {n : Nat} (hn : 5 ≤ n) (ws : List Word) (j : Nat) : 2 ≤ baseOf n ws j ∧ baseOf n ws j ≤ n - 2 := by
  have := Nat.mod_lt (wordsValue ((ws.drop (j * wordsFor n)).take (wordsFor n))) (show 0 < n - 3 by omega)
  unfold baseOf
  omega

/-! ### What a round decides (R202, R204) -/

theorem two_pow_mul_odd_unique {k k' t t' : Nat} (h : 2 ^ k * t = 2 ^ k' * t') (ht : t % 2 = 1) (ht' : t' % 2 = 1) :
    k = k' ∧ t = t' := by
  have le : ∀ {i i' u u' : Nat}, 2 ^ i * u = 2 ^ i' * u' → u' % 2 = 1 → i ≤ i' := by
    intro i i' u u' he hu
    have hcop : Nat.Coprime (2 ^ i) u' := (Nat.coprime_two_left.2 (Nat.odd_iff.2 hu)).pow_left i
    exact (Nat.pow_dvd_pow_iff_le_right (by norm_num)).1 (hcop.dvd_of_dvd_mul_right ⟨u, he.symm⟩)
  obtain rfl : k = k' := le_antisymm (le h ht') (le h.symm ht)
  exact ⟨rfl, Nat.eq_of_mul_eq_mul_left (Nat.two_pow_pos k) h⟩

/-- `PassesBase` speaks of some n - 1 = 2^k * t with t odd; every such k and t will do. -/
theorem passesBase_iff {n a k t : Nat} (hn : n - 1 = 2 ^ k * t) (ht : t % 2 = 1) :
    PassesBase n a ↔ a ^ t % n = 1 ∨ ∃ i, i < k ∧ a ^ (2 ^ i * t) % n = n - 1 := by
  constructor
  · rintro ⟨k', t', hn', ht', h⟩
    obtain ⟨rfl, rfl⟩ := two_pow_mul_odd_unique (hn'.symm.trans hn) ht' ht
    exact h
  · exact fun h => ⟨k, t, hn, ht, h⟩

/-- The number of twos in n - 1, the exponent that R202's test squares up to. -/
def twosOf (n : Nat) : Nat := (splitTwos (bitLen (n - 1)) (n - 1)).1

/-- The odd part of n - 1, the exponent that R202's test begins with. -/
def oddPartOf (n : Nat) : Nat := (splitTwos (bitLen (n - 1)) (n - 1)).2

theorem mrTest_odd {n : Nat} (hn : 5 ≤ n) (hodd : n % 2 = 1) (k : Nat) (ps : List EntropyPair) :
    mrTest n k ps = mrRounds n (twosOf n) (oddPartOf n) k ps := by
  rw [mrTest, if_neg (by omega), if_neg (by omega), if_neg (by omega)]
  rfl

theorem oddPart_spec {n : Nat} (hn : 5 ≤ n) : n - 1 = 2 ^ twosOf n * oddPartOf n ∧ oddPartOf n % 2 = 1 :=
  splitTwos_spec _ _ (by omega) (lt_two_pow_bitLen _)

/-- R202's round of an odd n passes exactly the bases of R204. -/
theorem roundPasses_iff_passesBase {n : Nat} (hn : 5 ≤ n) (hodd : n % 2 = 1) (a : Nat) :
    roundPasses n (twosOf n) (oddPartOf n) a = true ↔ PassesBase n a := by
  obtain ⟨hsplit, hpart⟩ := oddPart_spec hn
  have htwos : 1 ≤ twosOf n := by
    by_contra h
    rw [show twosOf n = 0 by omega, pow_zero, one_mul] at hsplit
    omega
  rw [roundPasses_iff n _ _ a htwos, passesBase_iff hsplit hpart]

/-- Where no zero divisors are, the squarings from x to 1 begin at 1 or meet -1. -/
theorem eq_one_or_two_pow_eq_neg_one {R : Type*} [CommRing R] [NoZeroDivisors R] {x : R} {k : Nat}
    (h : x ^ 2 ^ k = 1) : x = 1 ∨ ∃ i, i < k ∧ x ^ 2 ^ i = -1 := by
  induction k with
  | zero => exact .inl (by simpa using h)
  | succ k ih =>
    rw [pow_succ, pow_mul, sq_eq_one_iff] at h
    rcases h with h | h
    · exact (ih h).imp_right fun ⟨i, hi, he⟩ => ⟨i, by omega, he⟩
    · exact .inr ⟨k, by omega, h⟩

/-- R204: a prime passes every base below it, by Fermat's little theorem. -/
theorem passesBase_of_prime {n a : Nat} (hp : Nat.Prime n) (hn : 5 ≤ n) (ha : 0 < a) (han : a < n) : PassesBase n a := by
  have := Fact.mk hp
  obtain ⟨hsplit, hpart⟩ := oddPart_spec hn
  have hne : (a : ZMod n) ≠ 0 := fun h =>
    absurd (Nat.le_of_dvd ha ((ZMod.natCast_eq_zero_iff a n).1 h)) (by omega)
  have hfermat : ((a : ZMod n) ^ oddPartOf n) ^ 2 ^ twosOf n = 1 := by
    rw [← pow_mul, mul_comm, ← hsplit, ZMod.pow_card_sub_one_eq_one hne]
  have hmod : ∀ {e v : Nat}, v < n → (a : ZMod n) ^ e = (v : ZMod n) → a ^ e % n = v := by
    intro e v hv h
    rw [← Nat.cast_pow, ZMod.natCast_eq_natCast_iff', Nat.mod_eq_of_lt hv] at h
    exact h
  refine (passesBase_iff hsplit hpart).2 ((eq_one_or_two_pow_eq_neg_one hfermat).imp (fun h => ?_) ?_)
  · exact hmod (by omega) (by rw [h, Nat.cast_one])
  · rintro ⟨i, hi, h⟩
    refine ⟨i, hi, hmod (by omega) ?_⟩
    rw [mul_comm, pow_mul, h, Nat.cast_sub (by omega), ZMod.natCast_self, Nat.cast_one, zero_sub]

/-! ### The test's rounds (R202, R203) -/

section Rounds

variable {n j : Nat} {ws : List Word} {rest : List EntropyPair} (hn : 5 ≤ n) (hodd : n % 2 = 1)

include hn hodd

/-- Rounds that pass take their words, and the test goes on with the rounds left. -/
theorem mrRounds_skip (m : Nat) (hw : j * wordsFor n ≤ ws.length) (h : ∀ i, i < j → PassesBase n (baseOf n ws i)) :
    mrRounds n (twosOf n) (oddPartOf n) (j + m) (okPairs ws ++ rest) =
      mrRounds n (twosOf n) (oddPartOf n) m (okPairs (ws.drop (j * wordsFor n)) ++ rest) := by
  induction j generalizing m with
  | zero => simp
  | succ j ih =>
    have hw' : j * wordsFor n ≤ ws.length := le_trans (Nat.mul_le_mul_right _ j.le_succ) hw
    have hpass := (roundPasses_iff_passesBase hn hodd _).2 (h j j.lt_succ_self)
    rw [Nat.add_assoc, Nat.add_comm 1 m, ih (m + 1) hw' fun i hi => h i (by omega), mrRounds, mrBase_drop rest hw,
      Draw.bind, if_pos hpass]

/-- R203: the test answers 1 where every base passes, with the words of its rounds taken. -/
theorem mrTest_pass (hw : ws.length = j * wordsFor n) (h : ∀ i, i < j → PassesBase n (baseOf n ws i)) :
    mrTest n j (okPairs ws ++ rest) = .got true rest := by
  have hskip := mrRounds_skip (rest := rest) hn hodd 0 hw.ge h
  rw [← hw, List.drop_length] at hskip
  exact (mrTest_odd hn hodd _ _).trans hskip

/-- R203: the test answers 0 at the first base that does not pass, and takes no later word. -/
theorem mrTest_reject {k : Nat} (hw : ws.length = k * wordsFor n) (hj : j < k)
    (h : ∀ i, i < j → PassesBase n (baseOf n ws i)) (hfail : ¬ PassesBase n (baseOf n ws j)) :
    mrTest n k (okPairs ws ++ rest) = .got false (okPairs (ws.drop ((j + 1) * wordsFor n)) ++ rest) := by
  have hwords : (j + 1) * wordsFor n ≤ ws.length := hw ▸ Nat.mul_le_mul_right _ hj
  have hround : ¬ roundPasses n (twosOf n) (oddPartOf n) (baseOf n ws j) = true :=
    fun hp => hfail ((roundPasses_iff_passesBase hn hodd _).1 hp)
  obtain ⟨m, rfl⟩ := Nat.exists_eq_add_of_lt hj
  rw [mrTest_odd hn hodd, Nat.add_assoc, mrRounds_skip hn hodd (m + 1)
    (le_trans (Nat.mul_le_mul_right _ j.le_succ) hwords) h, mrRounds, mrBase_drop rest hwords, Draw.bind, if_neg hround]

/-- R203: where no base ends the test, a pair with ok = 0 among its words does, and no later pair is taken. -/
theorem mrTest_bad_pair {k : Nat} (x : Word) (hw : ws.length < k * wordsFor n) (h : ∀ i, PassesBase n (baseOf n ws i)) :
    mrTest n k (okPairs ws ++ ⟨false, x⟩ :: rest) = .failed 2 rest := by
  have hpos : 0 < wordsFor n := Nat.pos_of_ne_zero fun h0 => by simp [h0] at hw
  obtain ⟨m, rfl⟩ := Nat.exists_eq_add_of_lt ((Nat.div_lt_iff_lt_mul hpos).2 hw)
  have hlast : (ws.drop (ws.length / wordsFor n * wordsFor n)).length < wordsFor n := by
    have := Nat.mod_add_div' ws.length (wordsFor n)
    have := Nat.mod_lt ws.length hpos
    rw [List.length_drop]
    omega
  rw [mrTest_odd hn hodd, Nat.add_assoc, mrRounds_skip hn hodd (m + 1) (Nat.div_mul_le_self _ _) fun i _ => h i,
    mrRounds, mrBase, ← wordsFor, entropyInt_bad_pair _ x rest hlast]
  rfl

end Rounds

theorem passesBase_baseOf_of_prime {n : Nat} (hp : Nat.Prime n) (hn : 5 ≤ n) (ws : List Word) (j : Nat) :
    PassesBase n (baseOf n ws j) := by
  obtain ⟨hlo, hhi⟩ := baseOf_mem hn ws j
  exact passesBase_of_prime hp hn (by omega) (by omega)

theorem odd_of_prime {n : Nat} (hp : Nat.Prime n) (hn : 5 ≤ n) : n % 2 = 1 :=
  hp.eq_two_or_odd.resolve_left (by omega)

theorem mrTest_small {n : Nat} (h2 : 2 ≤ n) (h4 : n < 4) (k : Nat) (ps : List EntropyPair) :
    mrTest n k ps = .got true ps := by
  rw [mrTest, if_neg (by omega), if_pos h4]

theorem mrTest_even {n : Nat} (h : n < 2 ∨ 4 ≤ n ∧ n % 2 = 0) (k : Nat) (ps : List EntropyPair) :
    mrTest n k ps = .got false ps := by
  rw [mrTest]
  rcases h with h | ⟨h4, heven⟩
  · rw [if_pos h]
  · rw [if_neg (by omega), if_neg (by omega), if_pos heven]

/-- R204: the test of a prime answers 1, with the words of its rounds taken. -/
theorem mrTest_prime {n k : Nat} {ws : List Word} (hp : Nat.Prime n)
    (hw : ws.length = if n < 4 then 0 else k * wordsFor n) (rest : List EntropyPair) :
    mrTest n k (okPairs ws ++ rest) = .got true rest := by
  by_cases h4 : n < 4
  · rw [if_pos h4] at hw
    obtain rfl := List.eq_nil_of_length_eq_zero hw
    exact mrTest_small hp.two_le h4 k rest
  · have hn : 5 ≤ n := by
      have : n ≠ 4 := fun h => absurd (h ▸ hp) (by norm_num)
      omega
    rw [if_neg h4] at hw
    exact mrTest_pass hn (odd_of_prime hp hn) hw fun i _ => passesBase_baseOf_of_prime hp hn ws i

/-! ### PTEST (R200) -/

section Ptest

variable {rb : Reg} {s : State} {rounds : BitVec 16} {rest : List EntropyPair} (hv : s.isValid rb = true)
  (ha : s.abortPending = false)

include hv ha

theorem exec_ptest : exec (.ptest rb rounds) s =
    s.settle (drawPtest rb rounds s) fun s' r => .next ({ s' with prime := r } : State).succeed := by
  show s.command (checkPtest rb s) _ _ = _
  rw [(checkPtest_eq_none_iff rb s).2 hv, command_go ha]

theorem exec_ptest_got {r : Bool} (h : mrTest (s.reg rb) (s.roundsOf rounds) s.entropy = .got r rest) :
    exec (.ptest rb rounds) s = .next (({ s with entropy := rest, prime := r } : State).complete .noError 0 0) := by
  rw [exec_ptest hv ha, drawPtest, h]
  rfl

theorem exec_ptest_failed {sub : Nat} (h : mrTest (s.reg rb) (s.roundsOf rounds) s.entropy = .failed sub rest) :
    exec (.ptest rb rounds) s = .next (({ s with entropy := rest } : State).complete .generationFailed sub 0) := by
  rw [exec_ptest hv ha, drawPtest, h]
  rfl

end Ptest

/-- Settles O12: `mrTest_pass` and `mrTest_reject` on the words delivered. -/
theorem ptestFollowsTheBases : Obligations.PtestFollowsTheBases := by
  rintro rb rounds s k ws rest hv ha h5 hodd rfl hw he
  refine ⟨fun h => exec_ptest_got hv ha ?_, fun j hj h hfail => exec_ptest_got hv ha ?_⟩
  · rw [he]; exact mrTest_pass h5 hodd hw h
  · rw [he]; exact mrTest_reject h5 hodd hw hj h hfail

/-- Settles O15: a prime's bases all pass, so the test reaches the pair with ok = 0. -/
theorem ptestEntropyFailure : Obligations.PtestEntropyFailure := by
  rintro rb rounds s k ws x rest hv ha hp h5 rfl hw he
  refine exec_ptest_failed hv ha ?_
  rw [he]
  exact mrTest_bad_pair h5 (odd_of_prime hp h5) x hw (passesBase_baseOf_of_prime hp h5 ws)

/-- Settles O14: the first three tests of `mrTest`, none of which draws; the source check for an invalid register. -/
theorem ptestSmallAndEven : Obligations.PtestSmallAndEven := by
  refine fun rb rounds s => ⟨fun hv => ?_, fun hv ha => ⟨fun h => ?_, fun h => ?_⟩⟩
  · have hc : checkPtest rb s = some ⟨.uninit, 0, rb.val⟩ := by simp [checkPtest, State.checkSources, hv]
    show s.command (checkPtest rb s) _ _ = _
    rw [hc, command_some]
  · exact exec_ptest_got hv ha (mrTest_even h _ _)
  · exact exec_ptest_got hv ha (mrTest_small (by omega) (by omega) _ _)

/-! ### GENPRIME (R220, R221) -/

/-- With no limit on attempts, neither their number nor fuel above the number of pairs matters to the loop. -/
theorem genPrimeFrom_unlimited {p : Params} {bits : Nat} (hm : p.maxAttempts = 0) (hb : 2 ≤ bits) {fuel fuel' : Nat}
    (att att' : Nat) {ps : List EntropyPair} (hf : ps.length < fuel) (hf' : ps.length < fuel') :
    genPrimeFrom p bits fuel att ps = genPrimeFrom p bits fuel' att' ps := by
  induction fuel generalizing fuel' att att' ps with
  | zero => omega
  | succ fuel ih =>
    obtain ⟨fuel', rfl⟩ := Nat.exists_eq_succ_of_ne_zero (show fuel' ≠ 0 by omega)
    rw [genPrimeFrom, genPrimeFrom, if_neg (by omega), if_neg (by omega)]
    refine Draw.bind_congr fun r mid hr => Draw.bind_congr fun pass rest ht => ?_
    cases pass with
    | true => rfl
    | false =>
      have hshort : rest.length < ps.length := by
        obtain ⟨ws, hl, rfl, rfl⟩ := entropyInt_got hr
        exact (rejects_step hb ⟨ws, mid, hl, rfl, ht⟩).1
      exact ih _ _ (by omega) (by omega)

/-- R221: the generator gives the candidate that passes after k rejected attempts. -/
theorem genPrime_accepts {p : Params} {bits k : Nat} {ps qs rest : List EntropyPair} {ws : List Word} (hb : 2 ≤ bits)
    (hw : WithinLimit p k) (h : RejectsTimes p bits k ps (okPairs ws ++ qs)) (hl : ws.length = ceilDiv bits 32)
    (ht : mrTest (candidate bits (wordsValue ws)) p.mrRounds qs = .got true rest) :
    genPrime p bits ps = .got (candidate bits (wordsValue ws)) rest := by
  have hk : p.maxAttempts = 0 ∨ 0 + k ≤ p.maxAttempts := by unfold WithinLimit at hw; omega
  obtain ⟨hlen, hloop⟩ := rejects_times hb k (ps.length - k + 1) 0 h hk
  rw [genPrime, show ps.length + 1 = ps.length - k + 1 + k by omega, hloop, genPrimeFrom,
    if_neg (by unfold WithinLimit at hw; omega), ← hl, entropyInt_ok, Draw.bind, ht]
  rfl

section Genprime

variable {ra : Reg} {s : State} {bits : BitVec 16}

theorem exec_genprime_check {f : Failure} (h : checkGenprime bits s = some f) :
    exec (.genprime ra bits) s = .next (s.raise f) := by
  show s.command (checkGenprime bits s) _ _ = _
  rw [h, command_some]

theorem exec_genprime (h2 : 2 ≤ bits.toNat) (hmax : bits.toNat ≤ s.params.maxBits) (ha : s.abortPending = false) :
    exec (.genprime ra bits) s =
      s.settle (genPrime s.params bits.toNat s.entropy) fun s' c => .next (s'.writeReg ra c).succeed := by
  show s.command (checkGenprime bits s) _ _ = _
  rw [(checkGenprime_eq_none_iff bits s).2 ⟨h2, hmax⟩, command_go ha]
  rfl

end Genprime

/-- Settles O16: `genPrime_accepts`, the test of the prime candidate by `mrTest_prime`. -/
theorem genprimeCompletesOnPrimeCandidate : Obligations.GenprimeCompletesOnPrimeCandidate := by
  rintro ra bits s k ws ws' mid rest c h2 hmax ha hw hrej hl rfl hp hl' rfl
  rw [exec_genprime h2 hmax ha, genPrime_accepts h2 hw hrej hl (mrTest_prime hp hl' rest)]
  rfl

/-- Settles O18: the rejected attempt leaves the loop one attempt on, which without a limit does not matter. -/
theorem genprimeRetriesAfterRejection : Obligations.GenprimeRetriesAfterRejection := by
  intro p bits r ps ps' rest hm hb hr ht
  obtain ⟨ws, hl, rfl, rfl⟩ := entropyInt_got hr
  obtain ⟨hlen, hstep⟩ := rejects_step hb ⟨ws, ps', hl, rfl, ht⟩
  exact (hstep _ 0 (.inl hm)).trans (genPrimeFrom_unlimited hm hb 1 0 hlen rest.length.lt_succ_self)

/-- Settles O19: the two checks, and `genPrime_fails` for the failures of the draw. -/
theorem genprimeErrors : Obligations.GenprimeErrors := by
  refine fun ra bits s => ⟨fun h => ?_, fun h2 h => ?_, fun h2 hmax ha sub rest h => ?_⟩
  · exact exec_genprime_check (by simp [checkGenprime, h])
  · exact exec_genprime_check (by simp [checkGenprime, h, Nat.not_lt.2 h2])
  · rw [exec_genprime h2 hmax ha, genPrime_fails h2 h]
    rfl

end Sys2Proof.Machine

namespace Sys2Proof.Machine

/-! ### The source check, register by register (R405) -/

section Sources

variable {s : State} {k : Reg}

theorem checkSources_nil (s : State) : s.checkSources [] = none := rfl

theorem checkSources_cons_invalid (h : s.isValid k = false) (ks : List Reg) :
    s.checkSources (k :: ks) = some ⟨.uninit, 0, k.val⟩ := by
  simp [State.checkSources, h]

theorem checkSources_cons_valid (h : s.isValid k = true) (ks : List Reg) :
    s.checkSources (k :: ks) = s.checkSources ks := by
  simp [State.checkSources, h]

end Sources

/-! ### MODINV (R240) and MODEXP (R280) -/

section InverseAndPower

variable {ra rb rc rd : Reg} {s : State} {f : Failure}

theorem exec_modinv_check (h : checkModinv rb rc s = some f) : exec (.modinv ra rb rc) s = .next (s.raise f) := by
  show s.command (checkModinv rb rc s) _ _ = _
  rw [h, command_some]

theorem exec_modexp_check (h : checkModexp rb rc rd s = some f) :
    exec (.modexp ra rb rc rd) s = .next (s.raise f) := by
  show s.command (checkModexp rb rc rd s) _ _ = _
  rw [h, command_some]

theorem exec_modinv_abort (hc : checkModinv rb rc s = none) (ha : s.abortPending = true) :
    exec (.modinv ra rb rc) s = .next (s.raise cancelledFailure) := by
  show s.command (checkModinv rb rc s) _ _ = _
  rw [hc, command_abort ha]

theorem exec_modinv_coprime (hc : checkModinv rb rc s = none) (ha : s.abortPending = false)
    (hg : Nat.gcd (s.reg rb) (s.reg rc) = 1) :
    exec (.modinv ra rb rc) s = .next (s.writeReg ra (modInv (s.reg rb) (s.reg rc))).succeed := by
  show s.command (checkModinv rb rc s) _ _ = _
  rw [hc, command_go ha, if_neg (not_not.2 hg)]

theorem exec_modinv_not_coprime (hc : checkModinv rb rc s = none) (ha : s.abortPending = false)
    (hg : Nat.gcd (s.reg rb) (s.reg rc) ≠ 1) :
    exec (.modinv ra rb rc) s = .next (s.raise ⟨.invalidModulus, 0, 0⟩) := by
  show s.command (checkModinv rb rc s) _ _ = _
  rw [hc, command_go ha, if_pos hg]

end InverseAndPower

/-- Settles O9: the value is `modInv`, an inverse by `modInv_spec` and the only one by `inverse_unique`. -/
theorem modinvGivesTheInverse : Obligations.ModinvGivesTheInverse := by
  intro ra rb rc s hb hc hm hg ha
  obtain ⟨hlt, hinv⟩ := modInv_spec hm hg
  refine ⟨modInv (s.reg rb) (s.reg rc), hlt, hinv, fun y hy hyinv => inverse_unique hm hy hlt hyinv hinv, ?_⟩
  rw [exec_modinv_coprime ((checkModinv_eq_none_iff rb rc s).2 ⟨hb, hc, hm⟩) ha hg, succeed_eq]

/-- Settles O11: the source checks in order, then the modulus; the inverse's own error only in the execution phase. -/
theorem inverseAndPowerErrors : Obligations.InverseAndPowerErrors := by
  refine ⟨fun ra rb rc s => ⟨fun hb => ?_, fun hb hc => ?_, fun hb hc hm => ?_, fun hb hc hm hg => ?_⟩,
    fun ra rb rc rd s => ⟨fun hb => ?_, fun hb hc => ?_, fun hb hc hd => ?_, fun hb hc hd hm => ?_⟩⟩
  · refine exec_modinv_check ?_
    rw [checkModinv, checkSources_cons_invalid hb, Option.some_or]
  · refine exec_modinv_check ?_
    rw [checkModinv, checkSources_cons_valid hb, checkSources_cons_invalid hc, Option.some_or]
  · refine exec_modinv_check ?_
    rw [checkModinv, checkSources_cons_valid hb, checkSources_cons_valid hc, checkSources_nil, Option.none_or,
      decide_eq_true hm, failIf_true]
  · have hcheck := (checkModinv_eq_none_iff rb rc s).2 ⟨hb, hc, hm⟩
    cases ha : s.abortPending with
    | true => exact exec_modinv_abort hcheck ha
    | false => exact exec_modinv_not_coprime hcheck ha hg
  · refine exec_modexp_check ?_
    rw [checkModexp, checkSources_cons_invalid hb, Option.some_or]
  · refine exec_modexp_check ?_
    rw [checkModexp, checkSources_cons_valid hb, checkSources_cons_invalid hc, Option.some_or]
  · refine exec_modexp_check ?_
    rw [checkModexp, checkSources_cons_valid hb, checkSources_cons_valid hc, checkSources_cons_invalid hd,
      Option.some_or]
  · refine exec_modexp_check ?_
    rw [checkModexp, checkSources_cons_valid hb, checkSources_cons_valid hc, checkSources_cons_valid hd,
      checkSources_nil, Option.none_or, decide_eq_true hm, failIf_true]

end Sys2Proof.Machine

namespace Sys2Proof.Machine

/-! ### GENKEYS (R260) -/

section Genkeys

variable {ra rb rc : Reg} {bits : BitVec 12} {s : State} {p q : Nat} {r1 r2 : List EntropyPair}

/-- R260, R261: the draw of p that gives, then that of q. -/
theorem drawGenkeys_eq_got (hp : genPrime s.params (bits.toNat / 2) s.entropy = .got p r1)
    (hq : genPrime s.params (bits.toNat / 2) r1 = .got q r2) : drawGenkeys bits s = .got (p, q) r2 := by
  rw [drawGenkeys, hp, Draw.bind, hq, Draw.bind]

theorem drawGenkeys_eq_failed_first {sub : Nat} (hp : genPrime s.params (bits.toNat / 2) s.entropy = .failed sub r1) :
    drawGenkeys bits s = .failed sub r1 := by
  rw [drawGenkeys, hp, Draw.bind]

theorem drawGenkeys_eq_failed_second {sub : Nat} (hp : genPrime s.params (bits.toNat / 2) s.entropy = .got p r1)
    (hq : genPrime s.params (bits.toNat / 2) r1 = .failed sub r2) : drawGenkeys bits s = .failed sub r2 := by
  rw [drawGenkeys, hp, Draw.bind, hq, Draw.bind]

theorem exec_genkeys_check {f : Failure} (h : checkGenkeys bits s = some f) :
    exec (.genkeys ra rb rc bits) s = .next (s.raise f) := by
  show s.command (checkGenkeys bits s) _ _ = _
  rw [h, command_some]

theorem exec_genkeys (hmax : bits.toNat ≤ s.params.maxBits) (h4 : 4 ≤ bits.toNat) (ha : s.abortPending = false) :
    exec (.genkeys ra rb rc bits) s =
      s.settle (drawGenkeys bits s) fun s' pq => finishGenkeys ra rb rc s' pq := by
  show s.command (checkGenkeys bits s) _ _ = _
  rw [(checkGenkeys_eq_none_iff bits s).2 ⟨hmax, h4⟩, command_go ha]

theorem exec_genkeys_failed {sub : Nat} (hmax : bits.toNat ≤ s.params.maxBits) (h4 : 4 ≤ bits.toNat)
    (ha : s.abortPending = false) (hd : drawGenkeys bits s = .failed sub r2) :
    exec (.genkeys ra rb rc bits) s = .next (({ s with entropy := r2 } : State).raise ⟨.generationFailed, sub, 0⟩) := by
  rw [exec_genkeys hmax h4 ha, hd]
  rfl

theorem exec_genkeys_coprime (hmax : bits.toNat ≤ s.params.maxBits) (h4 : 4 ≤ bits.toNat)
    (ha : s.abortPending = false) (hd : drawGenkeys bits s = .got (p, q) r2)
    (hg : Nat.gcd Config.eFixed (phiOf p q) = 1) :
    exec (.genkeys ra rb rc bits) s = .next (({ s with entropy := r2 } : State).writeKeys ra rb rc p q).succeed := by
  rw [exec_genkeys hmax h4 ha, hd]
  exact if_neg (not_not.2 hg)

theorem exec_genkeys_not_coprime (hmax : bits.toNat ≤ s.params.maxBits) (h4 : 4 ≤ bits.toNat)
    (ha : s.abortPending = false) (hd : drawGenkeys bits s = .got (p, q) r2)
    (hg : Nat.gcd Config.eFixed (phiOf p q) ≠ 1) :
    exec (.genkeys ra rb rc bits) s = .next (({ s with entropy := r2 } : State).raise ⟨.invalidModulus, 0, 0⟩) := by
  rw [exec_genkeys hmax h4 ha, hd]
  exact if_pos hg

end Genkeys

/-! ### The keypair and where it stands (R260, R262, R265) -/

theorem wellFormed_genkeys_iff {ra rb rc : Reg} {bits : BitVec 12} :
    (Instr.genkeys ra rb rc bits).wellFormed = true ↔ ra ≠ rb ∧ ra ≠ rc ∧ rb ≠ rc := by
  simp [Instr.wellFormed, and_assoc]

/-- R260: distinct destinations keep the three results apart. -/
theorem writeKeys_reg {ra rb rc : Reg} (hab : ra ≠ rb) (hac : ra ≠ rc) (hbc : rb ≠ rc) (s : State) (p q : Nat) :
    (s.writeKeys ra rb rc p q).reg ra = p * q ∧ (s.writeKeys ra rb rc p q).reg rb = Config.eFixed ∧
      (s.writeKeys ra rb rc p q).reg rc = modInv Config.eFixed (phiOf p q) := by
  simp [State.writeKeys, hab, hac, hbc]

theorem writeKeys_isValid (ra rb rc : Reg) (s : State) (p q : Nat) {k : Reg} (hk : k ∈ [ra, rb, rc]) :
    (s.writeKeys ra rb rc p q).isValid k = true := by
  simp only [List.mem_cons, List.not_mem_nil, or_false] at hk
  rcases hk with rfl | rfl | rfl <;> simp [State.writeKeys]

theorem two_le_phiOf {p q : Nat} (hp : 3 ≤ p) (hq : 3 ≤ q) : 2 ≤ phiOf p q :=
  Nat.mul_le_mul (show 1 ≤ p - 1 by omega) (show 2 ≤ q - 1 by omega)

/-- R265: two numbers of bits div 2 bits have a product below 2^bits. -/
theorem mul_lt_two_pow_of_halves {p q n : Nat} (hp : p < 2 ^ (n / 2)) (hq : q < 2 ^ (n / 2)) : p * q < 2 ^ n := calc
  p * q < 2 ^ (n / 2) * 2 ^ (n / 2) := Nat.mul_lt_mul'' hp hq
  _ = 2 ^ (n / 2 + n / 2) := (pow_add 2 _ _).symm
  _ ≤ 2 ^ n := Nat.pow_le_pow_right (by norm_num) (by omega)

theorem succeeded_succeed (s : State) : Succeeded s.succeed := ⟨rfl, rfl, rfl, rfl, rfl, rfl, rfl, rfl⟩

/-- Settles O20: the values by `writeKeys_reg`, d by `modInv_spec` for phi >= 2, the rest by `execGenkeys_frame`. -/
theorem genkeysWritesAKeypair : Obligations.GenkeysWritesAKeypair := by
  intro ra rb rc bits s p q r1 r2 hwf h4 hmax ha hp hq hg
  obtain ⟨hab, hac, hbc⟩ := wellFormed_genkeys_iff.1 hwf
  have hd := drawGenkeys_eq_got hp hq
  obtain ⟨⟨hp3, hplt⟩, hq3, hqlt⟩ := drawGenkeys_got h4 hd
  have hexec := exec_genkeys_coprime (ra := ra) (rb := rb) (rc := rc) hmax h4 ha hd hg
  obtain ⟨hdlt, hinv⟩ := modInv_spec (two_le_phiOf hp3 hq3) hg
  obtain ⟨hn, he, hkey⟩ := writeKeys_reg hab hac hbc { s with entropy := r2 } p q
  have hvalid {k : Reg} (hk : k ∈ [ra, rb, rc]) := writeKeys_isValid ra rb rc { s with entropy := r2 } p q hk
  obtain ⟨hmem, hblk, hct, hout, hprime, hkept, hregs, -, -⟩ := execGenkeys_frame hexec
  refine ⟨_, hexec, hn, he, ?_, hkey.trans_lt hdlt, hn.trans_lt (mul_lt_two_pow_of_halves hplt hqlt),
    Nat.pow_le_pow_right (by norm_num) hmax, hvalid (by simp), hvalid (by simp), hvalid (by simp), hregs, hmem, hkept,
    rfl, hprime, hblk, hct, hout, succeeded_succeed _⟩
  rw [succeed_eq, reg_complete, reg_complete, he, hkey]
  exact hinv

/-- Settles O22: the two checks, `genPrime_fails` for either prime's draw, and the missing inverse. -/
theorem genkeysErrors : Obligations.GenkeysErrors := by
  refine fun ra rb rc bits s => ⟨fun h => ?_, fun hmax h4 => ?_, fun hmax h4 ha =>
    ⟨fun sub rest h => ?_, fun p r1 sub rest hp h => ?_, fun p q r1 r2 hp hq hg => ?_⟩⟩
  · exact exec_genkeys_check (by simp [checkGenkeys, h])
  · have hhalf : bits.toNat / 2 < 2 := by omega
    exact exec_genkeys_check (by simp [checkGenkeys, hhalf, Nat.not_lt.2 hmax])
  · have hfail := genPrime_fails (by omega) h
    exact exec_genkeys_failed hmax h4 ha (drawGenkeys_eq_failed_first hfail)
  · have hfail := genPrime_fails (by omega) h
    exact exec_genkeys_failed hmax h4 ha (drawGenkeys_eq_failed_second hp hfail)
  · exact exec_genkeys_not_coprime hmax h4 ha (drawGenkeys_eq_got hp hq) hg

end Sys2Proof.Machine

namespace Sys2Proof.Machine

/-- R280: past its checks and with no abort pending, MODEXP writes what the loop of R282 computes. -/
theorem exec_modexp {ra rb rc rd : Reg} {s : State} (hcheck : checkModexp rb rc rd s = none)
    (ha : s.abortPending = false) :
    exec (.modexp ra rb rc rd) s =
      .next (s.writeReg ra (modExp (s.reg rb) (s.reg rc) (s.reg rd))).succeed := by
  show s.command (checkModexp rb rc rd s) _ _ = _
  rw [hcheck, command_go ha]

/-- Settles O10: valid sources and a modulus above 0 pass the checks, and `modExp_eq` gives the loop's value. -/
theorem modexpGivesThePower : Obligations.ModexpGivesThePower := by
  intro ra rb rc rd s hb hc hd hm ha
  have hcheck : checkModexp rb rc rd s = none := (checkModexp_eq_none_iff rb rc rd s).2 ⟨hb, hc, hd, hm⟩
  rw [exec_modexp hcheck ha, modExp_eq, succeed_eq]

end Sys2Proof.Machine

namespace Sys2Proof.Machine

/-! ### ENCRYPT's block size and its checks (R300, R301) -/

/-- R301: "blockSize > 0 exactly when bitlen(n) >= 96". -/
theorem blockSize_pos_iff (n : Nat) : 0 < blockSize n ↔ 96 ≤ bitLen n := by
  unfold blockSize Config.margin
  omega

theorem succ_le_bitLen_iff (x k : Nat) : k + 1 ≤ bitLen x ↔ 2 ^ k ≤ x := by
  rw [Nat.succ_le_iff, ← not_le, bitLen_le_iff, not_lt]

section Encrypt

variable {rb rc : Reg} {s : State} {bs : Nat}

theorem exec_encrypt_check {f : Failure} (h : checkEncrypt rb rc s = some f) :
    exec (.encrypt rb rc) s = .next (s.raise f) := by
  show s.command (checkEncrypt rb rc s) _ _ = _
  rw [h, command_some]

theorem encryptSize_eq (h : blockSize (s.reg rc) = (bs : Int)) : s.encryptSize rc = bs := by
  rw [State.encryptSize, h, Int.toNat_natCast]

theorem encryptCount_eq (h : blockSize (s.reg rc) = (bs : Int)) (hpos : 0 < bs) :
    s.encryptCount rc = ceilDiv s.msglen.toNat bs := by
  rw [State.encryptCount, if_neg (by omega), encryptSize_eq h, blockCount]

/-- The checks of R300 that follow those of the two sources. -/
theorem checkEncrypt_of_valid (hb : s.isValid rb = true) (hc : s.isValid rc = true) :
    checkEncrypt rb rc s =
      (failIf (decide (blockSize (s.reg rc) ≤ 0)) ⟨.keyTooSmall, 0, 0⟩).or
        ((failIf (decide (s.msglen.toNat > s.params.msgBytes)) ⟨.capacity, 2, 0⟩).or
          (failIf (decide (s.encryptCount rc > s.params.ctSlots)) ⟨.capacity, 3, 0⟩)) := by
  rw [checkEncrypt, checkSources_cons_valid hb, checkSources_cons_valid hc, checkSources_nil, Option.none_or]

theorem exec_encrypt_keyTooSmall (hb : s.isValid rb = true) (hc : s.isValid rc = true)
    (h : blockSize (s.reg rc) ≤ 0) : exec (.encrypt rb rc) s = .next (s.raise ⟨.keyTooSmall, 0, 0⟩) := by
  refine exec_encrypt_check ?_
  rw [checkEncrypt_of_valid hb hc, decide_eq_true h, failIf_true, Option.some_or]

end Encrypt

/-- Settles O27: the source checks in order, then the key, the message length and the block count. -/
theorem encryptErrors : Obligations.EncryptErrors := by
  refine fun rb rc s => ⟨fun hb => exec_encrypt_check ?_, fun hb hc => exec_encrypt_check ?_,
    fun hb hc => ⟨exec_encrypt_keyTooSmall hb hc, fun bs hbs hpos =>
      ⟨fun hmsg => exec_encrypt_check ?_, fun hmsg hcnt => exec_encrypt_check ?_⟩⟩⟩
  · rw [checkEncrypt, checkSources_cons_invalid hb, Option.some_or]
  · rw [checkEncrypt, checkSources_cons_valid hb, checkSources_cons_invalid hc, Option.some_or]
  · have hkey : ¬ blockSize (s.reg rc) ≤ 0 := by omega
    rw [checkEncrypt_of_valid hb hc, decide_eq_false hkey, failIf_false, Option.none_or, decide_eq_true hmsg,
      failIf_true, Option.some_or]
  · have hkey : ¬ blockSize (s.reg rc) ≤ 0 := by omega
    rw [← encryptCount_eq hbs hpos] at hcnt
    rw [checkEncrypt_of_valid hb hc, decide_eq_false hkey, failIf_false, Option.none_or,
      decide_eq_false (Nat.not_lt.2 hmsg), failIf_false, Option.none_or, decide_eq_true hcnt, failIf_true]

/-- Settles O29: the threshold by `succ_le_bitLen_iff`, and the check that fails below it. -/
theorem keyTooSmallBelow96Bits : Obligations.KeyTooSmallBelow96Bits := by
  have hpow : ∀ n, 0 < blockSize n ↔ 2 ^ 95 ≤ n := fun n => (blockSize_pos_iff n).trans (succ_le_bitLen_iff n 95)
  refine ⟨fun n => ⟨rfl, blockSize_pos_iff n, hpow n⟩, fun s rb rc hb hc hn => ?_⟩
  exact exec_encrypt_keyTooSmall hb hc (not_lt.1 fun hpos => absurd ((hpow _).1 hpos) (Nat.not_le.2 hn))

/-! ### What a successful ENCRYPT leaves (R302-R304) -/

/-- R303: a byte string no longer than the block size of n has a value below n. -/
theorem beValue_lt_of_length_le_blockSize {n : Nat} {xs : List Byte} (h : (xs.length : Int) ≤ blockSize n) :
    beValue xs < n := by
  have hbits : 8 * xs.length < bitLen n := by
    unfold blockSize Config.margin at h
    omega
  calc beValue xs < 256 ^ xs.length := beValue_lt xs
    _ = 2 ^ (8 * xs.length) := by norm_num [pow_mul]
    _ ≤ n := two_pow_le_of_lt_bitLen hbits

theorem messageBlock_eq (s : State) (bs i : Nat) : s.messageBlock bs i = messageBytes s bs i := by
  rw [State.messageBlock, State.msgBlock, Memory.readBytes_eq, messageBytes]
  simp only [Nat.add_assoc]

theorem messageBytes_length (s : State) (bs i : Nat) :
    (messageBytes s bs i).length = min bs (s.msglen.toNat - i * bs) := by
  rw [messageBytes, List.length_map, List.length_range]

/-- R303: every block of a message has a value below the modulus. -/
theorem beValue_messageBytes_lt {s : State} {n bs : Nat} (h : blockSize n = (bs : Int)) (i : Nat) :
    beValue (messageBytes s bs i) < n :=
  beValue_lt_of_length_le_blockSize (by rw [messageBytes_length, h]; omega)

/-- R304: writing slots leaves every byte outside them, also the bytes between the end of one
and the start of the next. -/
theorem read_writeCts_outside_slots {s : State} {i a : Nat} {vs : List Nat}
    (h : ∀ k, k < vs.length → ¬ (ctAddr (i + k) ≤ a ∧ a < ctAddr (i + k) + s.params.maxBits / 8)) :
    (s.writeCts i vs).mem.read a = s.mem.read a := by
  induction vs generalizing s i with
  | nil => rfl
  | cons v vs ih =>
    have hrest : (s.writeCts i (v :: vs)).mem.read a = (s.writeCt i v).mem.read a := by
      refine ih (s := s.writeCt i v) fun k hk => ?_
      have hnext := h (k + 1) (Nat.succ_lt_succ hk)
      rwa [← Nat.succ_add_eq_add_succ] at hnext
    rw [hrest, writeCt_mem]
    exact Memory.read_writeBytes_of_not_mem _ (by rw [leBytes_length]; exact h 0 (Nat.succ_pos _))

/-- R31: the bytes of a slot hold exactly the values below 2^MAXBITS. -/
theorem slotRange_eq {p : Params} (hl : p.Legal) : 256 ^ (p.maxBits / 8) = 2 ^ p.maxBits := by
  obtain ⟨⟨hdiv, -, -⟩, -⟩ := hl
  rw [show 256 = 2 ^ 8 from rfl, ← pow_mul]
  congr 1
  omega

/-- A block size fits its CSR (R58): a register has at most 4096 bits. -/
theorem blockSize_lt_of_legal {p : Params} (hl : p.Legal) {n bs : Nat} (hn : n < 2 ^ p.maxBits)
    (h : blockSize n = (bs : Int)) : bs < 2 ^ 32 := by
  obtain ⟨⟨-, -, hmax⟩, -⟩ := hl
  have hbits : bitLen n ≤ p.maxBits := (bitLen_le_iff n _).2 hn
  unfold blockSize Config.margin at h
  omega

/-- The state in which an ENCRYPT that passes its checks completes (R300). -/
def State.encrypted (s : State) (rb rc : Reg) : State :=
  ({ s.writeCts 0 (s.ciphertexts rb rc) with
    blksize := BitVec.ofNat 32 (s.encryptSize rc)
    ctcount := BitVec.ofNat 32 (s.encryptCount rc) } : State).succeed

theorem exec_encrypt {rb rc : Reg} {s : State} (hcheck : checkEncrypt rb rc s = none) (ha : s.abortPending = false) :
    exec (.encrypt rb rc) s = .next (s.encrypted rb rc) := by
  show s.command (checkEncrypt rb rc s) _ _ = _
  rw [hcheck, command_go ha, State.encrypted]

/-- R302, R304: slot i of a completed ENCRYPT holds the power of block i. -/
theorem ct_encrypted {rb rc : Reg} {s : State} {bs i : Nat} (hl : s.params.Legal) (hn : s.reg rc < 2 ^ s.params.maxBits)
    (hbs : blockSize (s.reg rc) = (bs : Int)) (hi : i < s.encryptCount rc) :
    (s.encrypted rb rc).ct i = beValue (messageBytes s bs i) ^ s.reg rb % s.reg rc := by
  have hpos : 0 < s.reg rc := (Nat.zero_le _).trans_lt (beValue_messageBytes_lt (s := s) hbs i)
  have hlen : i < (s.ciphertexts rb rc).length := by rwa [ciphertexts_length]
  have hvalue : (s.ciphertexts rb rc)[i] = beValue (messageBytes s bs i) ^ s.reg rb % s.reg rc := by
    simp only [State.ciphertexts, List.getElem_map, List.getElem_range, encodeBlock, modExp_eq, encryptSize_eq hbs,
      messageBlock_eq]
  have hslot : (s.encrypted rb rc).ct i = (s.ciphertexts rb rc)[i] % 256 ^ (s.params.maxBits / 8) := by
    have hct := ct_writeCts (s := s) (slotBytes_le hl) (i := 0) hlen
    rwa [Nat.zero_add] at hct
  rw [hslot, hvalue, slotRange_eq hl, Nat.mod_eq_of_lt ((Nat.mod_lt _ hpos).trans hn)]

/-- Settles O25: the ciphertexts by `ct_encrypted`, the bytes outside their slots by `read_writeCts_outside_slots`, the
rest by `execEncrypt_frame`. -/
theorem encryptWritesTheCiphertexts : Obligations.EncryptWritesTheCiphertexts := by
  intro rb rc s bs hl hn hb hc hbs hpos hmsg hslots ha
  have hcount := encryptCount_eq hbs hpos
  have hcheck : checkEncrypt rb rc s = none :=
    (checkEncrypt_eq_none_iff rb rc s).2 ⟨hb, hc, by omega, hmsg, hcount ▸ hslots⟩
  have hexec := exec_encrypt hcheck ha
  have hframe := execEncrypt_frame hexec
  have hfits : ceilDiv s.msglen.toNat bs < 2 ^ 32 := by
    obtain ⟨-, -, ⟨-, hmax⟩, -⟩ := hl
    omega
  refine ⟨_, hexec, ?_, ?_, fun i hi => ?_, fun a hout => ?_, hframe.sameRegs, hframe.kept, ?_, hframe.prime,
    hframe.entropy, succeeded_succeed _⟩
  · show (BitVec.ofNat 32 (s.encryptSize rc)).toNat = bs
    rw [encryptSize_eq hbs, BitVec.toNat_ofNat, Nat.mod_eq_of_lt (blockSize_lt_of_legal hl hn hbs)]
  · show (BitVec.ofNat 32 (s.encryptCount rc)).toNat = _
    rw [hcount, BitVec.toNat_ofNat, Nat.mod_eq_of_lt hfits]
  · have hblock := beValue_messageBytes_lt (s := s) hbs i
    rw [ct_encrypted hl hn hbs (hcount ▸ hi)]
    exact ⟨rfl, Nat.mod_lt _ ((Nat.zero_le _).trans_lt hblock)⟩
  · refine read_writeCts_outside_slots fun k hk hin => hout ⟨k, ?_, ?_⟩
    · rwa [ciphertexts_length, hcount] at hk
    · rwa [Nat.zero_add] at hin
  · rw [State.encrypted, writeCts_eq]
    rfl

end Sys2Proof.Machine

namespace Sys2Proof.Machine

/-! ### RSA's exponents cancel (R333) -/

/-- Fermat: an exponent that is 1 modulo p - 1 changes nothing modulo a prime p, multiples of p among the bases. -/
theorem pow_succ_mul_modEq {p : Nat} (hp : Nat.Prime p) (m j : Nat) : m ^ ((p - 1) * j + 1) ≡ m [MOD p] := by
  have : Fact p.Prime := ⟨hp⟩
  rw [← ZMod.natCast_eq_natCast_iff, Nat.cast_pow, pow_succ, pow_mul]
  by_cases hm : (m : ZMod p) = 0
  · rw [hm, mul_zero]
  · rw [ZMod.pow_card_sub_one_eq_one hm, one_pow, one_mul]

/-- For distinct primes, an exponent that is 1 modulo (p-1)(q-1) changes nothing below p*q. -/
theorem pow_mod_of_phi {p q k m : Nat} (hp : Nat.Prime p) (hq : Nat.Prime q) (hne : p ≠ q)
    (hk : k % ((p - 1) * (q - 1)) = 1) (hm : m < p * q) : m ^ k % (p * q) = m := by
  obtain ⟨j, rfl⟩ : ∃ j, k = (p - 1) * (q - 1) * j + 1 := by
    have hdiv := Nat.div_add_mod k ((p - 1) * (q - 1))
    rw [hk] at hdiv
    exact ⟨_, hdiv.symm⟩
  have hmodp : m ^ ((p - 1) * (q - 1) * j + 1) ≡ m [MOD p] := by
    rw [mul_assoc]
    exact pow_succ_mul_modEq hp m _
  have hmodq : m ^ ((p - 1) * (q - 1) * j + 1) ≡ m [MOD q] := by
    rw [mul_comm (p - 1), mul_assoc]
    exact pow_succ_mul_modEq hq m _
  have hmod := (Nat.modEq_and_modEq_iff_modEq_mul ((Nat.coprime_primes hp hq).2 hne)).1 ⟨hmodp, hmodq⟩
  exact Nat.ModEq.eq_of_lt_of_lt ((Nat.mod_modEq _ _).trans hmod) (Nat.mod_lt _ (by omega)) hm

/-! ### The message and its blocks (R302) -/

theorem wholeMessage_eq (s : State) : wholeMessage s = s.mem.readBytes msgBase s.msglen.toNat :=
  (Memory.readBytes_eq _ _ _).symm

/-- The first k blocks are the first k * bs bytes of the message. -/
theorem flatMap_messageBytes (s : State) (bs k : Nat) :
    (List.range k).flatMap (messageBytes s bs) = s.mem.readBytes msgBase (min (k * bs) s.msglen.toNat) := by
  induction k with
  | zero => rw [Nat.zero_mul, Nat.zero_min, Memory.readBytes_eq]; rfl
  | succ k ih =>
    rw [List.range_succ, List.flatMap_append, List.flatMap_singleton, ih, ← messageBlock_eq, State.messageBlock,
      State.msgBlock, Nat.succ_mul]
    rcases Nat.le_total s.msglen.toNat (k * bs) with hle | hle
    · rw [Nat.sub_eq_zero_of_le hle, Nat.min_zero, Nat.min_eq_right hle, Nat.min_eq_right (by omega),
        Memory.readBytes_eq s.mem _ 0, List.range_zero, List.map_nil, List.append_nil]
    · rw [Nat.min_eq_left hle, ← Memory.readBytes_add]
      congr 1
      omega

theorem flatMap_messageBytes_eq_wholeMessage (s : State) {bs : Nat} (hpos : 0 < bs) :
    (List.range (ceilDiv s.msglen.toNat bs)).flatMap (messageBytes s bs) = wholeMessage s := by
  rw [flatMap_messageBytes, Nat.min_eq_right (le_ceilDiv_mul hpos), wholeMessage_eq]

/-! ### Leading zeros (R285, R333) -/

/-- The byte string without its leading zero bytes. -/
abbrev dropZeros (xs : List Byte) : List Byte := xs.dropWhile fun x => x == 0

theorem dropZeros_sublist (xs : List Byte) : (dropZeros xs).Sublist xs := (List.dropWhile_suffix _).sublist

theorem dropZeros_eq_self_iff (xs : List Byte) : dropZeros xs = xs ↔ xs.head? ≠ some 0 := by
  cases xs <;> simp [dropZeros, List.dropWhile_eq_self_iff]

/-- Sublists joined give the joined lists only where each of them is the whole of its list. -/
theorem flatMap_eq_flatMap_iff_of_sublist {α β : Type} {f g : α → List β} (l : List α)
    (h : ∀ a ∈ l, (f a).Sublist (g a)) : l.flatMap f = l.flatMap g ↔ ∀ a ∈ l, f a = g a := by
  refine ⟨fun heq => ?_, List.flatMap_congr⟩
  induction l with
  | nil => exact fun a ha => absurd ha List.not_mem_nil
  | cons x xs ih =>
    rw [List.forall_mem_cons] at h ⊢
    obtain ⟨hx, hxs⟩ := h
    rw [List.flatMap_cons, List.flatMap_cons] at heq
    have hlen := congrArg List.length heq
    rw [List.length_append, List.length_append] at hlen
    have hrest := (List.Sublist.flatMap_right xs hxs).length_le
    have hhead := hx.length_le
    obtain ⟨hfirst, hlater⟩ := List.append_inj heq (by omega)
    exact ⟨hfirst, ih hxs hlater⟩

/-- The message with the leading zero bytes of each block of bs bytes removed (R333). -/
abbrev strippedMessage (s : State) (bs : Nat) : List Byte :=
  (List.range (ceilDiv s.msglen.toNat bs)).flatMap fun i => dropZeros (messageBytes s bs i)

section Stripped

variable (s : State) {bs : Nat}

theorem strippedMessage_length_le (hpos : 0 < bs) : (strippedMessage s bs).length ≤ s.msglen.toNat := by
  have hsub : (strippedMessage s bs).Sublist (wholeMessage s) := by
    rw [← flatMap_messageBytes_eq_wholeMessage s hpos]
    exact List.Sublist.flatMap_right _ fun i _ => dropZeros_sublist _
  simpa [wholeMessage] using hsub.length_le

theorem strippedMessage_eq_wholeMessage_iff (hpos : 0 < bs) :
    strippedMessage s bs = wholeMessage s ↔
      ∀ i, i < ceilDiv s.msglen.toNat bs → (messageBytes s bs i).head? ≠ some 0 := by
  rw [← flatMap_messageBytes_eq_wholeMessage s hpos,
    flatMap_eq_flatMap_iff_of_sublist _ fun i _ => dropZeros_sublist _]
  simp only [List.mem_range, dropZeros_eq_self_iff]

end Stripped

/-! ### A successful DECRYPT, and one accepted (R320, R152) -/

section Decrypt

variable {rb rc : Reg} {s : State}

/-- R320: past its checks and with no abort pending, a DECRYPT whose plaintext fits in OUT leaves it there. -/
theorem exec_decrypt (hcheck : checkDecrypt rb rc s = none) (ha : s.abortPending = false)
    (hfit : (s.plaintext rb rc).length ≤ s.params.outBytes) :
    exec (.decrypt rb rc) s = .next ({ s.outWrite (s.plaintext rb rc) with
      outlen := BitVec.ofNat 32 (s.plaintext rb rc).length } : State).succeed := by
  show s.command (checkDecrypt rb rc s) _ _ = _
  rw [hcheck, command_go ha, State.finishDecrypt, if_neg (Nat.not_lt.2 hfit)]

theorem exec_decrypt_accept {w : Word} (hcheck : checkDecrypt rb rc s = none)
    (hfit : (s.plaintext rb rc).length ≤ s.params.outBytes) :
    ∃ u, exec (.decrypt rb rc) (s.accept w) = .next u ∧ Succeeded u ∧
      u.outlen = BitVec.ofNat 32 (s.plaintext rb rc).length ∧
      u.mem = s.mem.writeBytes outBase (s.plaintext rb rc) := by
  rw [accept_eq]
  exact ⟨_, exec_decrypt hcheck rfl hfit, succeeded_succeed _, rfl, rfl⟩

end Decrypt

/-- R333: where the slots hold the powers of the message's blocks, decryption gives back each block without its leading
zeros. -/
theorem plaintext_of_encrypted {s t : State} {rb rd rn : Reg} {p q bs : Nat} (hp : Nat.Prime p) (hq : Nat.Prime q)
    (hne : p ≠ q) (hn : s.reg rn = p * q) (hinv : s.reg rb * s.reg rd % ((p - 1) * (q - 1)) = 1)
    (hbs : blockSize (s.reg rn) = (bs : Int)) (hregs : SameRegs s t)
    (hcnt : t.ctcount.toNat = ceilDiv s.msglen.toNat bs)
    (hct : ∀ i, i < ceilDiv s.msglen.toNat bs →
      t.ct i = beValue (messageBytes s bs i) ^ s.reg rb % s.reg rn) :
    t.plaintext rd rn = strippedMessage s bs := by
  rw [State.plaintext, hcnt]
  refine List.flatMap_congr fun i hi => ?_
  have hblock : beValue (messageBytes s bs i) < p * q := hn ▸ beValue_messageBytes_lt hbs i
  rw [decodeBlock, modExp_eq, hct i (List.mem_range.1 hi), (hregs rd).1, (hregs rn).1, ← Nat.pow_mod, ← pow_mul, hn,
    pow_mod_of_phi hp hq hne hinv hblock, beMin_beValue]

/-- Settles O34: ENCRYPT by `encryptWritesTheCiphertexts`, then DECRYPT's plaintext by `plaintext_of_encrypted`; it is
no longer than the message, so it fits in OUT. -/
theorem roundTripRecoversTheMessage : Obligations.RoundTripRecoversTheMessage := by
  intro s re rd rn p q bs hl hn hp hq hne hpq hinv hve hvd hvn hbs hpos hmsg hout hslots ha
  obtain ⟨t, hexec, -, hcnt, hct, -, hregs, hkept, -⟩ :=
    encryptWritesTheCiphertexts re rn s bs hl hn hve hvn hbs hpos hmsg hslots ha
  have hplain := plaintext_of_encrypted hp hq hne hpq hinv hbs hregs hcnt fun i hi => (hct i hi).1
  have hlen := strippedMessage_length_le s hpos
  have hcheck : checkDecrypt rd rn t = none := by
    rw [checkDecrypt_eq_none_iff, (hregs rd).2, (hregs rn).2, (hregs rn).1, hcnt, hkept.params]
    exact ⟨hvd, hvn, hpq ▸ Nat.mul_pos hp.pos hq.pos, hslots, fun i hi => (hct i hi).2⟩
  obtain ⟨u, hdec, hdone, houtlen, hmem⟩ := exec_decrypt_accept (w := encode (.decrypt rd rn)) hcheck
    (by rw [hplain, hkept.params]; exact hlen.trans hout)
  have hread : u.mem.readBytes outBase u.outlen.toNat = strippedMessage s bs := by
    rw [houtlen, hmem, hplain, BitVec.toNat_ofNat, Nat.mod_eq_of_lt (hlen.trans_lt s.msglen.isLt),
      Memory.readBytes_writeBytes_same]
  refine ⟨t, u, hexec, hdec, hdone.errcode, hread, ?_⟩
  rw [hread]
  exact strippedMessage_eq_wholeMessage_iff s hpos

end Sys2Proof.Machine

namespace Sys2Proof.Machine

/-! ### DECRYPT's plaintext and what its end leaves (R320-R324) -/

/-- R322: the plaintext is the shortest byte strings of the powers, in index order. -/
theorem plaintext_eq (s : State) (rb rc : Reg) :
    s.plaintext rb rc = (List.range s.ctcount.toNat).flatMap fun i => beMin (s.ct i ^ s.reg rb % s.reg rc) := by
  simp only [State.plaintext, decodeBlock, modExp_eq]

section DecryptEnd

variable {rb rc : Reg} {s : State}

theorem exec_decrypt_check {f : Failure} (h : checkDecrypt rb rc s = some f) :
    exec (.decrypt rb rc) s = .next (s.raise f) := by
  show s.command (checkDecrypt rb rc s) _ _ = _
  rw [h, command_some]

/-- Past its checks and with no abort pending, DECRYPT ends on its plaintext, be it too long for OUT or not. -/
theorem exec_decrypt_finish (hcheck : checkDecrypt rb rc s = none) (ha : s.abortPending = false) :
    exec (.decrypt rb rc) s = .next (s.finishDecrypt (s.plaintext rb rc)) := by
  show s.command (checkDecrypt rb rc s) _ _ = _
  rw [hcheck, command_go ha]

/-- R324: a plaintext too long for OUT ends DECRYPT with CAPACITY subcode 5. -/
theorem finishDecrypt_too_long {pt : List Byte} (h : s.params.outBytes < pt.length) :
    s.finishDecrypt pt = (cancelDecrypt s).raise ⟨.capacity, 5, 0⟩ := by
  rw [State.finishDecrypt, if_pos h]

end DecryptEnd

/-- Settles O30: the bytes of OUT by the write of `exec_decrypt`, the rest by `execDecrypt_frame`. -/
theorem decryptWritesThePlaintext : Obligations.DecryptWritesThePlaintext := by
  intro rb rc s out hl hb hc hn hcnt hct ha hout hlen
  have hplain : s.plaintext rb rc = out := (plaintext_eq s rb rc).trans hout.symm
  have hcheck : checkDecrypt rb rc s = none := (checkDecrypt_eq_none_iff rb rc s).2 ⟨hb, hc, hn, hcnt, hct⟩
  have hexec := exec_decrypt hcheck ha (hplain ▸ hlen)
  rw [hplain] at hexec
  have hframe := execDecrypt_frame hexec
  have hfits : out.length < 2 ^ 32 := by
    obtain ⟨-, -, -, -, ⟨-, -, hmax⟩, -⟩ := hl
    omega
  refine ⟨_, hexec, ?_, fun k hk => ?_, fun a ha => Memory.read_writeBytes_of_not_mem s.mem ha, hframe.sameRegs,
    hframe.kept, rfl, rfl, hframe.prime, hframe.entropy, succeeded_succeed _⟩
  · exact (BitVec.toNat_ofNat _ _).trans (Nat.mod_eq_of_lt hfits)
  · refine (Memory.read_writeBytes_of_mem s.mem (Nat.le_add_right _ k) (Nat.add_lt_add_left hk _)).trans ?_
    simp only [Nat.add_sub_cancel_left]

/-! ### DECRYPT's checks in their order (R320, R321) -/

section DecryptChecks

variable {rb rc : Reg} {s : State}

/-- The checks of R320 that follow those of the two sources. -/
theorem checkDecrypt_of_valid (hb : s.isValid rb = true) (hc : s.isValid rc = true) :
    checkDecrypt rb rc s =
      (failIf (decide (s.reg rc = 0)) ⟨.domain, 1, 0⟩).or
        ((failIf (decide (s.ctcount.toNat > s.params.ctSlots)) ⟨.capacity, 4, 0⟩).or
          ((s.firstBadBlock (s.reg rc)).map fun i => ⟨.decryptionFailed, 1, i⟩)) := by
  rw [checkDecrypt, checkSources_cons_valid hb, checkSources_cons_valid hc, checkSources_nil, Option.none_or]

/-- The checks of R320 that follow that of the modulus. -/
theorem checkDecrypt_of_pos (hb : s.isValid rb = true) (hc : s.isValid rc = true) (hn : 0 < s.reg rc) :
    checkDecrypt rb rc s =
      (failIf (decide (s.ctcount.toNat > s.params.ctSlots)) ⟨.capacity, 4, 0⟩).or
        ((s.firstBadBlock (s.reg rc)).map fun i => ⟨.decryptionFailed, 1, i⟩) := by
  rw [checkDecrypt_of_valid hb hc, decide_eq_false hn.ne', failIf_false, Option.none_or]

/-- R321: the index reported is the lowest whose block is not below the modulus. -/
theorem firstBadBlock_eq_some {n i : Nat} (hi : i < s.ctcount.toNat) (hbad : n ≤ s.ct i)
    (hgood : ∀ j, j < i → s.ct j < n) : s.firstBadBlock n = some i := by
  refine List.find?_range_eq_some.2 ⟨decide_eq_true hbad, List.mem_range.2 hi, fun j hj => ?_⟩
  rw [decide_eq_false (Nat.not_le.2 (hgood j hj)), Bool.not_false]

end DecryptChecks

/-- Settles O31: the check-phase errors in order, then the plaintext that does not fit, by `finishDecrypt_too_long`. -/
theorem decryptErrors : Obligations.DecryptErrors := by
  refine fun rb rc s => ⟨fun hb => exec_decrypt_check ?_, fun hb hc => exec_decrypt_check ?_, fun hb hc =>
    ⟨fun hn => exec_decrypt_check ?_, fun hn hcnt => exec_decrypt_check ?_, fun hn hcnt =>
      ⟨fun i hi hbad hgood => exec_decrypt_check ?_, fun hct ha hlen => ?_⟩⟩⟩
  · rw [checkDecrypt, checkSources_cons_invalid hb, Option.some_or]
  · rw [checkDecrypt, checkSources_cons_valid hb, checkSources_cons_invalid hc, Option.some_or]
  · rw [checkDecrypt_of_valid hb hc, decide_eq_true hn, failIf_true, Option.some_or]
  · rw [checkDecrypt_of_pos hb hc hn, decide_eq_true hcnt, failIf_true, Option.some_or]
  · rw [checkDecrypt_of_pos hb hc hn, decide_eq_false (Nat.not_lt.2 hcnt), failIf_false, Option.none_or,
      firstBadBlock_eq_some hi hbad hgood, Option.map_some]
  · rw [← plaintext_eq] at hlen
    have hexec := exec_decrypt_finish ((checkDecrypt_eq_none_iff rb rc s).2 ⟨hb, hc, hn, hcnt, hct⟩) ha
    rw [finishDecrypt_too_long hlen] at hexec
    have hframe := execDecrypt_frame hexec
    exact ⟨_, hexec, rfl, rfl, rfl, rfl, rfl, rfl, rfl, rfl, rfl, hframe.prime, hframe.sameRegs, hframe.kept,
      fun a hout => cancelDecrypt_read hout⟩

/-! ### The lane machine's steps, enabled and not enabled (R326, R327, R329) -/

section LaneSteps

variable {s : State} {u : DecryptUnit}

/-- R326: the lowest-numbered free lane takes the next block. -/
theorem DecryptUnit.dispatch_lowest {cnt l : Nat} (hl : u.lanes[l]? = some .free)
    (hlow : ∀ k, k < l → u.lanes[k]? ≠ some .free) (hnext : u.next < cnt) :
    u.dispatch cnt = { u with next := u.next + 1, lanes := u.lanes.set l (.busy u.next) } := by
  obtain ⟨hlen, hfree⟩ := List.getElem?_eq_some_iff.1 hl
  have hfind : (u.lanes.findIdx? fun x => x == Lane.free) = some l := by
    refine List.findIdx?_eq_some_iff_getElem.2 ⟨hlen, beq_iff_eq.2 hfree, fun k hk hkfree => hlow k hk ?_⟩
    exact List.getElem?_eq_some_iff.2 ⟨hk.trans hlen, beq_iff_eq.1 hkfree⟩
  rw [DecryptUnit.dispatch, hfind]
  exact if_pos hnext

/-- R326: with every block dispatched, or no lane free, the dispatch changes nothing. -/
theorem DecryptUnit.dispatch_disabled {cnt : Nat} (h : cnt ≤ u.next ∨ ∀ l : Nat, u.lanes[l]? ≠ some .free) :
    u.dispatch cnt = u := by
  unfold DecryptUnit.dispatch
  split
  · rfl
  · next l hl =>
    obtain ⟨hlen, hfree, -⟩ := List.findIdx?_eq_some_iff_getElem.1 hl
    have hfree : u.lanes[l]? = some .free := List.getElem?_eq_some_iff.2 ⟨hlen, beq_iff_eq.1 hfree⟩
    exact if_neg (Nat.not_lt.2 (h.resolve_right fun hno => hno l hfree))

theorem dispatchStep_of_unit (hu : s.unit = some u) :
    s.dispatchStep = { s with unit := some (u.dispatch s.ctcount.toNat) } := by
  rw [State.dispatchStep, hu]

/-- R327: a busy lane reports its block's value and is free. -/
theorem laneStep_busy {l i : Nat} {rb rc : Reg} (hu : s.unit = some u) (hd : s.runningDecrypt = some (rb, rc))
    (hl : u.lanes[l]? = some (.busy i)) :
    s.laneStep l = { s with unit := some (u.report l i (modExp (s.ct i) (s.reg rb) (s.reg rc))) } := by
  rw [State.laneStep, hu, hd]
  simp only [List.getD_eq_getElem?_getD, hl, Option.getD_some]

/-- R327: the step of a lane that is free, or that does not exist, changes nothing. -/
theorem laneStep_not_busy {l : Nat} (hu : s.unit = some u) (hl : ∀ i, u.lanes[l]? ≠ some (.busy i)) :
    s.laneStep l = s := by
  have hfree : u.lanes.getD l .free = .free := by
    rw [List.getD_eq_getElem?_getD]
    cases hget : u.lanes[l]? with
    | none => rfl
    | some x =>
      cases x with
      | free => rfl
      | busy i => exact absurd hget (hl i)
  unfold State.laneStep
  split
  · next u' rb rc hu' hd =>
    cases hu.symm.trans hu'
    rw [hfree]
  · rfl

theorem DecryptUnit.allReported_iff {cnt : Nat} :
    u.allReported cnt = true ↔ ∀ i, i < cnt → ∃ v, u.res.getD i none = some v := by
  simp only [DecryptUnit.allReported, List.all_eq_true, List.mem_range, Option.isSome_iff_exists]

theorem DecryptUnit.allReported_eq_false {cnt i : Nat} (hi : i < cnt) (h : u.res.getD i none = none) :
    u.allReported cnt = false := by
  refine Bool.eq_false_iff.2 fun hall => ?_
  obtain ⟨v, hv⟩ := DecryptUnit.allReported_iff.1 hall i hi
  cases h.symm.trans hv

/-- R329, R408: with a block not reported, or an abort pending, the arbiter changes nothing. -/
theorem arbiterStep_disabled (hu : s.unit = some u)
    (h : u.allReported s.ctcount.toNat = false ∨ s.abortPending = true) : s.arbiterStep = s := by
  rw [State.arbiterStep, hu]
  rcases h with h | h
  · simp only [h, Bool.false_and, Bool.false_eq_true, if_false]
  · simp only [h, Bool.not_true, Bool.and_false, Bool.false_eq_true, if_false]

/-- R330: with every block reported and no abort pending, the arbiter ends the command on the reassembled plaintext. -/
theorem arbiterStep_enabled (hu : s.unit = some u) (h : u.allReported s.ctcount.toNat = true)
    (ha : s.abortPending = false) : s.arbiterStep = s.finishDecrypt (u.reassemble s.ctcount.toNat) := by
  rw [State.arbiterStep, hu]
  simp only [h, ha, Bool.not_false, Bool.and_self, if_true]

end LaneSteps

/-! ### Every schedule ends in the atomic rule's state (R331) -/

section Schedules

variable {s : State} {rb rc : Reg} {u : DecryptUnit}

/-- A schedule of lane events changes the lane machine only, and keeps its bookkeeping. -/
theorem runLanes_unit (hd : s.runningDecrypt = some (rb, rc)) (hcnt : s.ctcount.toNat ≤ s.params.ctSlots)
    (schedule : List Event) (hinv : UnitInv s (s.reg rb) (s.reg rc) u) :
    ∃ u', runLanes { s with unit := some u } schedule = { s with unit := some u' } ∧
      UnitInv s (s.reg rb) (s.reg rc) u' := by
  induction schedule generalizing u with
  | nil => exact ⟨u, rfl, hinv⟩
  | cons e es ih =>
    cases e with
    | dispatch => exact ih hinv.dispatch
    | lane l =>
      show ∃ u', runLanes (({ s with unit := some u } : State).laneStep l) es = _ ∧ _
      by_cases hbusy : ∃ i, u.lanes[l]? = some (.busy i)
      · obtain ⟨i, hl⟩ := hbusy
        rw [laneStep_busy (s := { s with unit := some u }) rfl hd hl]
        exact ih (hinv.report hcnt hl)
      · rw [laneStep_not_busy rfl (not_exists.1 hbusy)]
        exact ih hinv
    | _ => exact ih hinv

/-- R330, R331: once every block is reported, RES put together in index order is DECRYPT's plaintext. -/
theorem reassemble_eq_plaintext (hinv : UnitInv s (s.reg rb) (s.reg rc) u)
    (hall : u.allReported s.ctcount.toNat = true) : u.reassemble s.ctcount.toNat = s.plaintext rb rc := by
  rw [plaintext_eq, DecryptUnit.reassemble]
  refine List.flatMap_congr fun i hi => ?_
  obtain ⟨v, hv⟩ := DecryptUnit.allReported_iff.1 hall i (List.mem_range.1 hi)
  rw [hv, Option.getD_some, (hinv.reported i v hv).2]

/-- R411: the completion discards the lane machine, so it does not matter which one stood there. -/
theorem finishDecrypt_set_unit (s : State) (u : Option DecryptUnit) (pt : List Byte) :
    ({ s with unit := u } : State).finishDecrypt pt = s.finishDecrypt pt := rfl

/-- R331: on the lane machine a schedule leaves once every block is reported, the arbiter's step is DECRYPT's atomic
rule. -/
theorem exec_decrypt_eq_arbiterStep (hcheck : checkDecrypt rb rc s = none) (ha : s.abortPending = false)
    (hinv : UnitInv s (s.reg rb) (s.reg rc) u) (hall : u.allReported s.ctcount.toNat = true) :
    exec (.decrypt rb rc) s = .next ({ s with unit := some u } : State).arbiterStep := by
  have harbiter : ({ s with unit := some u } : State).arbiterStep = s.finishDecrypt (u.reassemble s.ctcount.toNat) :=
    (arbiterStep_enabled (s := { s with unit := some u }) rfl hall ha).trans (finishDecrypt_set_unit s _ _)
  rw [exec_decrypt_finish hcheck ha, harbiter, reassemble_eq_plaintext hinv hall]

end Schedules

/-- Settles O33: the steps by their lemmas, and for a schedule `runLanes_unit` (what it leaves of the lane machine) with
`exec_decrypt_eq_arbiterStep` (what the arbiter then makes of it). -/
theorem laneOrderDoesNotMatter : Obligations.LaneOrderDoesNotMatter := by
  refine ⟨fun s u rest hl hu hs => ?_, fun s u l rb rc rest hl hu hd hs => ?_, fun s u rest hl hu hs => ?_,
    fun s rb rc schedule u hl hu hd hcheck ha hrun => ?_⟩
  · have hstep : step s = .next { s with script := rest, unit := some (u.dispatch s.ctcount.toNat) } := by
      rw [step_event hl hs]
      exact congrArg _ (dispatchStep_of_unit (s := { s with script := rest }) hu)
    refine ⟨fun l hfree hlow hnext => ?_, fun hdis => ?_⟩
    · rw [hstep, DecryptUnit.dispatch_lowest hfree hlow hnext]
    · rw [hstep, DecryptUnit.dispatch_disabled hdis, ← hu]
  · rw [step_event hl hs]
    refine ⟨fun i hbusy => ?_, fun hfree => ?_⟩
    · rw [← modExp_eq]
      exact congrArg _ (laneStep_busy (s := { s with script := rest }) hu hd hbusy)
    · exact congrArg _ (laneStep_not_busy (s := { s with script := rest }) hu hfree)
  · rw [step_event hl hs]
    refine ⟨rfl, fun hdis => ?_⟩
    have hdis : u.allReported s.ctcount.toNat = false ∨ s.abortPending = true :=
      hdis.imp_left fun ⟨_, hi, hnone⟩ => DecryptUnit.allReported_eq_false hi hnone
    exact congrArg _ (arbiterStep_disabled (s := { s with script := rest }) hu hdis)
  · obtain ⟨-, -, -, hcnt, -⟩ := (checkDecrypt_eq_none_iff rb rc s).1 hcheck
    obtain ⟨u', hend, hinv⟩ := runLanes_unit hd hcnt schedule (UnitInv.start s (s.reg rb) (s.reg rc))
    rw [← hu] at hend
    rw [hend] at hrun ⊢
    cases hrun
    exact ⟨fun hnot => arbiterStep_disabled rfl (Or.inl hnot), exec_decrypt_eq_arbiterStep hcheck ha hinv⟩

end Sys2Proof.Machine

namespace Sys2Proof.Machine

/-! ### NOP (R350) -/

/-- R350: NOP has no check-phase error, and its execution phase is the completion alone. -/
theorem exec_nop (s : State) : exec .nop s = s.command none s (.next s.succeed) := rfl

/-- R410: the record of a cancelled command is CANCELLED with subcode and index 0. -/
theorem raise_cancelledFailure (s : State) : s.raise cancelledFailure = s.complete .cancelled 0 0 := rfl

/-- Settles O8: with no check-phase error, the pending abort alone decides between the two completions. -/
theorem nopCompletes : Obligations.NopCompletes := by
  refine fun s => ⟨fun ha => ?_, fun ha => ?_⟩
  · rw [exec_nop, command_go ha, succeed_eq]
  · rw [exec_nop, command_abort ha, raise_cancelledFailure]

end Sys2Proof.Machine

namespace Sys2Proof.Machine

/-! ### The three ways a command can end (R408) -/

/-- R410: the state that a cancelled command completes from. ENCRYPT and DECRYPT set a count to 0 beside their RAM
effects; every other command ends as a reset abandons it. -/
def cancelOf (i : Instr) (s : State) : State :=
  match i with
  | .encrypt _ rc => cancelEncrypt rc s
  | .decrypt _ _ => cancelDecrypt s
  | i => abandonInstr i s

/-- R408: every command is its check phase, its cancelled effects and some execution phase. -/
theorem exec_eq_command (i : Instr) (s : State) :
    ∃ go, exec i s = s.command (checkOf i s) (cancelOf i s) go := by
  cases i <;> exact ⟨_, rfl⟩

theorem exec_of_check {i : Instr} {s : State} {f : Failure} (h : checkOf i s = some f) :
    exec i s = .next (s.raise f) := by
  obtain ⟨go, hgo⟩ := exec_eq_command i s
  rw [hgo, h, command_some]

theorem exec_of_abort {i : Instr} {s : State} (hcheck : checkOf i s = none) (ha : s.abortPending = true) :
    exec i s = .next ((cancelOf i s).raise cancelledFailure) := by
  obtain ⟨go, hgo⟩ := exec_eq_command i s
  rw [hgo, hcheck, command_abort ha]

/-- R410: a cancelled command changes memory, the counts, the entropy stream and the draw counter only. -/
theorem cancelOf_eq (i : Instr) (s : State) :
    cancelOf i s = { s with
      mem := (cancelOf i s).mem, ctcount := (cancelOf i s).ctcount, outlen := (cancelOf i s).outlen,
      entropy := (cancelOf i s).entropy, draws := (cancelOf i s).draws } := by
  have habandon : abandonInstr i s = { s with
      mem := (abandonInstr i s).mem, ctcount := (abandonInstr i s).ctcount, outlen := (abandonInstr i s).outlen,
      entropy := (abandonInstr i s).entropy, draws := (abandonInstr i s).draws } := by
    rw [abandonInstr_eq]
  cases i with
  | encrypt rb rc => rfl
  | decrypt rb rc => rfl
  | _ => exact habandon

/-- Settles O35: the check phase decides before the abort and the execution phase are looked at. -/
theorem checkErrorsComeFirst : Obligations.CheckErrorsComeFirst := fun _ _ _ h => exec_of_check h

/-! ### The completion step (R411) -/

theorem sameKept_complete (s : State) (c : ErrCode) (sub idx : Nat) : SameKept s (s.complete c sub idx) :=
  ⟨rfl, rfl, rfl, rfl, rfl, rfl, rfl⟩

/-- Settles O7: the record fits its fields, and every other field is as before. -/
theorem completionStepRecord : Obligations.CompletionStepRecord := by
  intro s c sub idx hsub hidx
  have hsubcode : (s.complete c sub idx).subcode.toNat = sub := by
    rw [complete_subcode, BitVec.toNat_ofNat, Nat.mod_eq_of_lt hsub]
  have hindex : (s.complete c sub idx).index.toNat = idx := by
    rw [complete_index, BitVec.toNat_ofNat, Nat.mod_eq_of_lt hidx]
  exact ⟨rfl, hsubcode, hindex, decide_eq_true_iff, rfl, rfl, rfl, rfl, rfl, sameKept_complete s c sub idx,
    fun _ => ⟨rfl, rfl⟩, rfl, rfl, rfl, rfl, rfl, rfl⟩

/-- Settles O38: every command waits or completes, and keeps what no completion changes. -/
theorem completionsRecordAndKeep : Obligations.CompletionsRecordAndKeep := by
  intro i s t _ h
  have hkept := exec_kept h
  rcases exec_completes h with heq | ⟨u, c, sub, idx, rfl, -⟩
  · exact Or.inl heq
  · exact Or.inr ⟨rfl, rfl, rfl, rfl, decide_eq_true_iff, hkept⟩

/-! ### DONE and the interrupt (R415, R416) -/

/-- A running command that its step ended has set DONE. -/
theorem exec_done {i : Instr} {s t : State} (hb : s.busy = true) (h : exec i s = .next t) (ht : t.busy = false) :
    t.done = true := by
  rcases exec_completes h with rfl | ⟨u, c, sub, idx, rfl, -⟩
  · exact absurd (hb.symm.trans ht) Bool.noConfusion
  · rfl

/-- R54, R152, R450: no write sets DONE. -/
theorem writeLoc_done {s : State} {loc : Loc} {v : Word} (h : (s.writeLoc loc v).done = true) : s.done = true := by
  cases loc with
  | csr c =>
    cases c with
    | ctrl =>
      rw [State.writeLoc, State.writeCsr, State.writeCtrl] at h
      split at h
      · exact absurd h Bool.false_ne_true
      · exact h
    | status => exact (Bool.and_eq_true_iff.1 h).1
    | cmd =>
      rw [State.writeLoc, State.writeCsr, State.writeCmd] at h
      split at h
      · exact h
      · rw [accept_eq] at h
        exact absurd h Bool.false_ne_true
    | _ => exact h
  | breg k j =>
    rw [State.writeLoc] at h
    split at h <;> exact h
  | ct i j off =>
    rw [State.writeLoc] at h
    split at h <;> exact h
  | msg off => exact h
  | out off => exact h

/-- From s to t, DONE rises only where a running command ends. -/
def DoneRisesAtEnd (s t : State) : Prop := t.done = true → s.done = true ∨ (s.busy = true ∧ t.busy = false)

theorem engineStep_done {s t : State} (h : engineStep s = .next t) : DoneRisesAtEnd s t := by
  intro hd
  rcases engineStep_cases h with ⟨-, rfl⟩ | ⟨w, hr, ⟨e, -, rfl⟩ | ⟨i, -, hexec⟩⟩
  · exact Or.inl hd
  · exact Or.inr ⟨busy_eq_true_iff.2 ⟨w, hr⟩, rfl⟩
  · rcases exec_completes hexec with rfl | ⟨u, c, sub, idx, rfl, -⟩
    · exact Or.inl hd
    · exact Or.inr ⟨busy_eq_true_iff.2 ⟨w, hr⟩, rfl⟩

theorem arbiterStep_done {s : State} (hinv : Inv s) : DoneRisesAtEnd s s.arbiterStep := by
  intro hd
  cases hb : s.busy with
  | false =>
    rw [State.arbiterStep, hinv.lanes.unit_of_idle hb] at hd
    exact Or.inl hd
  | true =>
    rcases arbiterStep_cases s with hs | ⟨pt, hf⟩
    · exact Or.inl (hs ▸ hd)
    · rcases finishDecrypt_completes s s pt with heq | ⟨u, c, sub, idx, hc, -⟩
      · exact Or.inl (heq ▸ hf ▸ hd)
      · exact Or.inr ⟨rfl, by rw [hf, hc, busy_complete]⟩

theorem eventStep_done {e : Event} {s t : State} (hinv : Inv s) (h : eventStep e s = .next t) : DoneRisesAtEnd s t := by
  cases e with
  | read addr width =>
    cases h
    obtain ⟨r, hr⟩ := busRead_eq s addr width
    rw [hr]
    exact Or.inl
  | write addr width v =>
    cases h
    rcases busWrite_cases s addr width v with ⟨r, hr⟩ | ⟨off, loc, -, -, -, -, hw⟩
    · rw [hr]
      exact Or.inl
    · rw [hw]
      exact fun hd => Or.inl (writeLoc_done hd)
  | hardReset => cases h; exact fun hd => absurd hd Bool.false_ne_true
  | deliver p => cases h; exact Or.inl
  | engine => exact engineStep_done h
  | dispatch =>
    cases h
    obtain ⟨u, hu⟩ := dispatchStep_eq s
    rw [hu]
    exact Or.inl
  | lane l =>
    cases h
    obtain ⟨u, hu⟩ := laneStep_eq s l
    rw [hu]
    exact Or.inl
  | arbiter => cases h; exact arbiterStep_done hinv

theorem step_done {s t : State} (hinv : Inv s) (h : step s = .next t) : DoneRisesAtEnd s t := by
  rcases step_cases h with ⟨-, he⟩ | ⟨e, rest, -, he⟩
  · exact engineStep_done he
  · exact eventStep_done (s := { s with script := rest }) hinv.outside he

/-- Settles O47: irq is IRQEN and DONE, so it rises with DONE, or with IRQEN where DONE stood before; and a completion
sets DONE and keeps IRQEN. -/
theorem interruptRisesOnlyOnCompletion : Obligations.InterruptRisesOnlyOnCompletion := by
  refine ⟨fun s t hinv h hlow hhigh => ?_, fun i s t hb h ht => ?_⟩
  · obtain ⟨hen, hd⟩ := Bool.and_eq_true_iff.1 hhigh
    rcases step_done hinv h hd with hold | ⟨hb, hidle⟩
    · have hoff : s.irqen = false := by simpa [State.irq, hold] using hlow
      exact Or.inr ⟨hold, hoff, hen⟩
    · exact Or.inl ⟨hb, hidle, hd⟩
  · rw [State.irq, exec_done hb h ht, (exec_kept h).irqen, Bool.and_true]

end Sys2Proof.Machine

namespace Sys2Proof.Machine

/-! ### The subcodes that a draw fails with (R203, R221) -/

/-- Where the draw fails, its subcode is one of `subs`. -/
def FailsOnly {α : Type} (subs : List Nat) (d : Draw α) : Prop := ∀ sub rest, d = .failed sub rest → sub ∈ subs

namespace FailsOnly

variable {α β : Type} {subs : List Nat}

theorem got (v : α) (rest : List EntropyPair) : FailsOnly subs (.got v rest) := fun _ _ h => by cases h

theorem starved : FailsOnly subs (.starved : Draw α) := fun _ _ h => by cases h

theorem failed {sub : Nat} (hs : sub ∈ subs) (rest : List EntropyPair) : FailsOnly subs (.failed sub rest : Draw α) :=
  fun _ _ h => by cases h; exact hs

theorem bind {d : Draw α} {f : α → List EntropyPair → Draw β} (hd : FailsOnly subs d)
    (hf : ∀ v rest, FailsOnly subs (f v rest)) : FailsOnly subs (d.bind f) := by
  cases d with
  | got v rest => exact hf v rest
  | failed sub rest => exact failed (hd sub rest rfl) rest
  | starved => exact starved

end FailsOnly

section BadPair

variable {subs : List Nat} (h2 : 2 ∈ subs)
include h2

theorem takeWord_failsOnly (ps : List EntropyPair) : FailsOnly subs (takeWord ps) := by
  cases ps with
  | nil => exact .starved
  | cons p rest =>
    rw [takeWord]
    split
    · exact .got _ _
    · exact .failed h2 _

theorem entropyInt_failsOnly (k : Nat) (ps : List EntropyPair) : FailsOnly subs (entropyInt k ps) := by
  induction k generalizing ps with
  | zero => exact .got _ _
  | succ k ih => exact (takeWord_failsOnly h2 ps).bind fun w rest => (ih rest).bind fun v rest' => .got _ _

theorem mrRounds_failsOnly (n s t k : Nat) (ps : List EntropyPair) : FailsOnly subs (mrRounds n s t k ps) := by
  induction k generalizing ps with
  | zero => exact .got _ _
  | succ k ih =>
    refine ((entropyInt_failsOnly h2 _ ps).bind fun r rest => .got _ _).bind fun a rest => ?_
    split
    · exact ih rest
    · exact .got _ _

theorem mrTest_failsOnly (n k : Nat) (ps : List EntropyPair) : FailsOnly subs (mrTest n k ps) := by
  unfold mrTest
  split_ifs
  · exact .got _ _
  · exact .got _ _
  · exact .got _ _
  · exact mrRounds_failsOnly h2 _ _ _ _ _

theorem genPrimeFrom_failsOnly (h3 : 3 ∈ subs) (p : Params) (bits fuel att : Nat) (ps : List EntropyPair) :
    FailsOnly subs (genPrimeFrom p bits fuel att ps) := by
  induction fuel generalizing att ps with
  | zero => exact .starved
  | succ fuel ih =>
    rw [genPrimeFrom]
    split
    · exact .failed h3 _
    · refine (entropyInt_failsOnly h2 _ ps).bind fun r rest => (mrTest_failsOnly h2 _ _ rest).bind fun pass rest' => ?_
      split
      · exact .got _ _
      · exact ih _ _

theorem genPrime_failsOnly (h3 : 3 ∈ subs) (p : Params) (bits : Nat) (ps : List EntropyPair) :
    FailsOnly subs (genPrime p bits ps) :=
  genPrimeFrom_failsOnly h2 h3 p bits _ 0 ps

end BadPair

/-! ### The records of a command (R351, R401-R403) -/

/-- The record f is one that the tables give the command i, with the INDEX they give it. -/
structure Tabled (i : Instr) (s : State) (f : Failure) : Prop where
  record : (f.code, f.sub) ∈ recordsOf i
  noIndex : f.code ≠ .uninit → f.code ≠ .decryptionFailed → f.index = 0
  register : f.code = .uninit → f.index < 16
  block : f.code = .decryptionFailed → f.index < s.ctcount.toNat ∧ f.index < s.params.ctSlots

namespace Tabled

variable {i : Instr} {s : State}

/-- A code other than UNINIT and DECRYPTION_FAILED stands with INDEX 0. -/
theorem plain {c : ErrCode} {sub : Nat} (h : (c, sub) ∈ recordsOf i ∧ c ≠ .uninit ∧ c ≠ .decryptionFailed) :
    Tabled i s ⟨c, sub, 0⟩ := by
  obtain ⟨hr, hu, hd⟩ := h
  exact ⟨hr, fun _ _ => rfl, fun hc => absurd hc hu, fun hc => absurd hc hd⟩

theorem uninit (hr : (.uninit, 0) ∈ recordsOf i) (k : Reg) : Tabled i s ⟨.uninit, 0, k.val⟩ :=
  ⟨hr, fun h => absurd rfl h, fun _ => k.isLt, fun h => ErrCode.noConfusion h⟩

theorem success (i : Instr) (s : State) : Tabled i s ⟨.noError, 0, 0⟩ :=
  plain (by cases i <;> simp [recordsOf])

theorem cancelled (i : Instr) (s : State) : Tabled i s cancelledFailure :=
  plain (by cases i <;> simp [recordsOf])

end Tabled

theorem recordsOf_subcode_lt {i : Instr} {r : ErrCode × Nat} (h : r ∈ recordsOf i) : r.2 < 256 := by
  have hall : ∀ r ∈ recordsOf i, r.2 < 256 := by cases i <;> simp [recordsOf]
  exact hall r h

/-! ### The checks answer records of the tables (R405, R408) -/

section Checks

variable {P : Failure → Prop}

theorem forall_mem_or {x y : Option Failure} (hx : ∀ f, x = some f → P f) (hy : x = none → ∀ f, y = some f → P f) :
    ∀ f, x.or y = some f → P f := by
  cases x with
  | none => simpa using hy rfl
  | some f => simpa using hx

theorem forall_mem_failIf {b : Bool} {f : Failure} (hf : P f) : ∀ g, failIf b f = some g → P g := by
  cases b with
  | false => exact fun _ h => by cases h
  | true => exact fun _ h => by cases h; exact hf

theorem forall_mem_checkSources (s : State) (ks : List Reg) (h : ∀ k : Reg, P ⟨.uninit, 0, k.val⟩) :
    ∀ f, s.checkSources ks = some f → P f := by
  intro f hf
  obtain ⟨k, -, rfl⟩ := Option.map_eq_some_iff.1 hf
  exact h k

end Checks

theorem failIf_tabled {i : Instr} {s : State} {b : Bool} {c : ErrCode} {sub : Nat}
    (h : (c, sub) ∈ recordsOf i ∧ c ≠ .uninit ∧ c ≠ .decryptionFailed) :
    ∀ f, failIf b ⟨c, sub, 0⟩ = some f → Tabled i s f :=
  forall_mem_failIf (.plain h)

theorem checkSources_tabled {i : Instr} (s : State) (ks : List Reg) (hr : (.uninit, 0) ∈ recordsOf i) :
    ∀ f, s.checkSources ks = some f → Tabled i s f :=
  forall_mem_checkSources s ks (.uninit hr)

/-- R320: a block that is not below the modulus is one of the ciphertext slots, once CTCOUNT is at most CTSLOTS. -/
theorem firstBadBlock_tabled {i : Instr} {s : State} (n : Nat) (hr : (.decryptionFailed, 1) ∈ recordsOf i)
    (hcnt : s.ctcount.toNat ≤ s.params.ctSlots) :
    ∀ f, ((s.firstBadBlock n).map fun j => (⟨.decryptionFailed, 1, j⟩ : Failure)) = some f → Tabled i s f := by
  intro f hf
  obtain ⟨j, hj, rfl⟩ := Option.map_eq_some_iff.1 hf
  have hlt : j < s.ctcount.toNat := List.mem_range.1 (List.mem_of_find?_eq_some hj)
  exact ⟨hr, fun _ h => absurd rfl h, fun h => ErrCode.noConfusion h, fun _ => ⟨hlt, hlt.trans_le hcnt⟩⟩

/-- R408: the check phase answers a record of the tables. -/
theorem checkOf_tabled (i : Instr) (s : State) : ∀ f, checkOf i s = some f → Tabled i s f := by
  cases i with
  | nop => exact fun _ h => by cases h
  | modinv ra rb rc =>
    exact forall_mem_or (checkSources_tabled s _ (by simp [recordsOf])) fun _ =>
      failIf_tabled (by simp [recordsOf])
  | modexp ra rb rc rd =>
    exact forall_mem_or (checkSources_tabled s _ (by simp [recordsOf])) fun _ =>
      failIf_tabled (by simp [recordsOf])
  | ptest rb rounds => exact checkSources_tabled s _ (by simp [recordsOf])
  | genprime ra bits =>
    exact forall_mem_or (failIf_tabled (by simp [recordsOf])) fun _ =>
      failIf_tabled (by simp [recordsOf])
  | genkeys ra rb rc bits =>
    exact forall_mem_or (failIf_tabled (by simp [recordsOf])) fun _ =>
      failIf_tabled (by simp [recordsOf])
  | encrypt rb rc =>
    exact forall_mem_or (checkSources_tabled s _ (by simp [recordsOf])) fun _ =>
      forall_mem_or (failIf_tabled (by simp [recordsOf])) fun _ =>
        forall_mem_or (failIf_tabled (by simp [recordsOf])) fun _ =>
          failIf_tabled (by simp [recordsOf])
  | decrypt rb rc =>
    refine forall_mem_or (checkSources_tabled s _ (by simp [recordsOf])) fun _ =>
      forall_mem_or (failIf_tabled (by simp [recordsOf])) fun _ =>
        forall_mem_or (failIf_tabled (by simp [recordsOf])) fun hcap =>
          firstBadBlock_tabled _ (by simp [recordsOf]) ?_
    simpa using hcap

/-! ### What any command ends in (R408-R412) -/

/-- How the command i, run at s, can end. -/
inductive EndsAs (i : Instr) (s : State) : State → Prop where
  /-- It waits for entropy (R71). -/
  | waits : EndsAs i s s
  | success (u : State) : EndsAs i s u.succeed
  /-- An error of the tables; nothing is written but the record, and some entropy is gone (R412). -/
  | error (rest : List EntropyPair) {f : Failure} (hf : Tabled i s f) :
      EndsAs i s (({ s with entropy := rest } : State).raise f)
  /-- CANCELLED or CAPACITY subcode 5, whose effects are those of a cancel (R410, R332). -/
  | discards {f : Failure} (hf : Tabled i s f) (hcode : f = cancelledFailure ∨ f = ⟨.capacity, 5, 0⟩) :
      EndsAs i s ((cancelOf i s).raise f)

theorem command_ends {i : Instr} {s t : State} {go : Result} (hgo : ∀ t, go = .next t → EndsAs i s t)
    (h : s.command (checkOf i s) (cancelOf i s) go = .next t) : EndsAs i s t := by
  rcases command_cases h with ⟨f, hf, rfl⟩ | ⟨-, -, rfl⟩ | ⟨-, -, hg⟩
  · exact .error s.entropy (checkOf_tabled i s f hf)
  · exact .discards (.cancelled i s) (Or.inl rfl)
  · exact hgo t hg

theorem settle_ends {α : Type} {i : Instr} {s t : State} {d : Draw α} {use : State → α → Result} {subs : List Nat}
    (hd : FailsOnly subs d) (hsubs : ∀ sub ∈ subs, (.generationFailed, sub) ∈ recordsOf i)
    (huse : ∀ rest v t, use { s with entropy := rest } v = .next t → EndsAs i s t)
    (h : s.settle d use = .next t) : EndsAs i s t := by
  rcases settle_cases h with ⟨v, rest, -, hu⟩ | ⟨sub, rest, hf, rfl⟩ | ⟨-, rfl⟩
  · exact huse rest v t hu
  · exact .error rest (.plain ⟨hsubs sub (hd sub rest hf), ErrCode.noConfusion, ErrCode.noConfusion⟩)
  · exact .waits

theorem finishDecrypt_ends (rb rc : Reg) (s : State) (pt : List Byte) :
    EndsAs (.decrypt rb rc) s (s.finishDecrypt pt) := by
  rcases finishDecrypt_cases s pt with ⟨-, h⟩ | ⟨-, h⟩
  · rw [h]
    exact .discards (.plain (by simp [recordsOf])) (Or.inr rfl)
  · rw [h]
    exact .success _

theorem drawGenkeys_failsOnly (bits : BitVec 12) (s : State) : FailsOnly [2, 3] (drawGenkeys bits s) :=
  (genPrime_failsOnly (by simp) (by simp) _ _ _).bind fun _ _ =>
    (genPrime_failsOnly (by simp) (by simp) _ _ _).bind fun _ _ => .got _ _

theorem exec_ends {i : Instr} {s t : State} (h : exec i s = .next t) : EndsAs i s t := by
  have hnext : ∀ {u t : State}, Host.Outcome.next u.succeed = (.next t : Result) → EndsAs i s t := fun h => by
    cases h; exact .success _
  cases i with
  | nop => exact command_ends (fun _ => hnext) h
  | modinv ra rb rc =>
    refine command_ends (fun t hg => ?_) h
    split at hg
    · cases hg
      exact .error s.entropy (.plain (by simp [recordsOf]))
    · exact hnext hg
  | modexp ra rb rc rd => exact command_ends (fun _ => hnext) h
  | ptest rb rounds =>
    exact command_ends (fun _ => settle_ends (subs := [2]) (mrTest_failsOnly (by simp) _ _ _) (by simp [recordsOf])
      fun _ _ _ => hnext) h
  | genprime ra bits =>
    exact command_ends (fun _ => settle_ends (subs := [2, 3]) (genPrime_failsOnly (by simp) (by simp) _ _ _)
      (by simp [recordsOf]) fun _ _ _ => hnext) h
  | genkeys ra rb rc bits =>
    refine command_ends (fun _ => settle_ends (drawGenkeys_failsOnly bits s) (by simp [recordsOf])
      fun rest pq t hf => ?_) h
    rcases finishGenkeys_cases hf with ⟨-, rfl⟩ | ⟨-, rfl⟩
    · exact .error rest (.plain (by simp [recordsOf]))
    · exact .success _
  | encrypt rb rc => exact command_ends (fun _ => hnext) h
  | decrypt rb rc => exact command_ends (fun t hg => by cases hg; exact finishDecrypt_ends rb rc s _) h

/-- Settles O37: an error writes nothing but its record, or it discards as a cancel does. -/
theorem errorsArePrecise : Obligations.ErrorsArePrecise := by
  intro i s t hb h ht herr
  cases exec_ends h with
  | waits => exact absurd (hb.symm.trans ht) Bool.noConfusion
  | success u => exact absurd rfl herr
  | error rest hf => exact ⟨fun _ => ⟨rfl, rfl⟩, rfl, rfl, rfl, fun _ _ => ⟨rfl, rfl, rfl⟩⟩
  | discards hf hcode =>
    rw [cancelOf_eq]
    refine ⟨fun _ => ⟨rfl, rfl⟩, rfl, rfl, rfl, fun hcancel hcap => ?_⟩
    rcases hcode with rfl | rfl
    · exact absurd rfl hcancel
    · exact absurd ⟨rfl, rfl⟩ hcap

/-- R402, R403: a completion with a record of the tables shows it in STATUS and ERRINFO. -/
theorem Tabled.completes {i : Instr} {s : State} {f : Failure} (h : Tabled i s f) (hl : s.params.Legal) (u : State) :
    ∃ r ∈ recordsOf i, (u.raise f).errcode = r.1 ∧ (u.raise f).subcode.toNat = r.2 ∧
      (r.1 ≠ .uninit → r.1 ≠ .decryptionFailed → (u.raise f).index = 0) ∧
      (r.1 = .uninit → (u.raise f).index.toNat < 16) ∧
      (r.1 = .decryptionFailed → (u.raise f).index.toNat < s.ctcount.toNat ∧ (u.raise f).index.toNat < 128) := by
  obtain ⟨-, -, ⟨-, hslots⟩, -⟩ := hl
  have hindex : (u.raise f).index.toNat ≤ f.index := by
    rw [raise_eq, complete_index, BitVec.toNat_ofNat]
    exact Nat.mod_le _ _
  refine ⟨_, h.record, rfl, ?_, fun hu hd => ?_, fun hu => ?_, fun hd => ?_⟩
  · rw [raise_eq, complete_subcode, BitVec.toNat_ofNat, Nat.mod_eq_of_lt (recordsOf_subcode_lt h.record)]
  · rw [raise_eq, complete_index, h.noIndex hu hd]
    rfl
  · exact hindex.trans_lt (h.register hu)
  · obtain ⟨hcnt, hslot⟩ := h.block hd
    omega

/-- Settles O39: whatever a command ends in but waiting, its record is one of the tables. -/
theorem recordsAreTabled : Obligations.RecordsAreTabled := by
  intro i s t hl hb h ht
  cases exec_ends h with
  | waits => exact absurd (hb.symm.trans ht) Bool.noConfusion
  | success u => exact (Tabled.success i s).completes hl u
  | error rest hf => exact hf.completes hl _
  | discards hf hcode => exact hf.completes hl _

end Sys2Proof.Machine

namespace Sys2Proof.Machine

/-! ### The entropy that a cancelled or abandoned command took (R409) -/

theorem exec_entropy_suffix {i : Instr} {s t : State} (h : exec i s = .next t) : t.entropy <:+ s.entropy := by
  cases i with
  | nop => exact (execNop_frame h).entropy
  | modinv ra rb rc => exact (execModinv_frame h).entropy
  | modexp ra rb rc rd => exact (execModexp_frame h).entropy
  | ptest rb rounds => exact (execPtest_frame h).entropy
  | genprime ra bits => exact (execGenprime_frame h).entropy
  | genkeys ra rb rc bits => exact (execGenkeys_frame h).entropy
  | encrypt rb rc => rw [(execEncrypt_frame h).entropy]
  | decrypt rb rc => rw [(execDecrypt_frame h).entropy]

/-- Taking nothing is within every bound. -/
theorem takesWithinBound_of_same (i : Instr) {s t : State} (ht : t.entropy = s.entropy) : TakesWithinBound i s t := by
  refine ⟨by rw [ht], fun _ => ht, fun u _ hu _ => ?_⟩
  rw [ht]
  exact exec_entropy_suffix (s := { s with abortPending := false }) hu

/-- A draw that answered left at least what is left by any take of at most as many pairs as it took. -/
theorem settle_leaves_within {α : Type} {s u : State} {d : Draw α} {use : State → α → Result}
    (hd : LeavesSuffix s.entropy d) (huse : ∀ u v t, use u v = .next t → t.entropy = u.entropy)
    (hb : s.busy = true) (hu : u.busy = false) (h : s.settle d use = .next u) (s' : State)
    (hs : s'.entropy = s.entropy) :
    u.entropy <:+ (s'.takeSome (d.taken s.entropy)).entropy := by
  rcases settle_cases h with ⟨v, rest, rfl, hv⟩ | ⟨sub, rest, rfl, rfl⟩ | ⟨-, rfl⟩
  · rw [huse _ v u hv]
    exact suffix_takeSome (hs ▸ hd.1 v rest rfl) (by rw [hs]; exact le_rfl)
  · exact suffix_takeSome (hs ▸ hd.2 sub rest rfl) (by rw [hs]; exact le_rfl)
  · exact absurd (hb.symm.trans hu) Bool.noConfusion

/-- R409 for a command that draws d in its execution phase: some pairs up to those that d takes are gone, none where a
check fails. -/
theorem takesWithinBound_of_draw {α : Type} {i : Instr} {s t c : State} {d : Draw α} {use : State → α → Result}
    (hi : drawsEntropy i = true)
    (hexec : exec i { s with abortPending := false } =
      ({ s with abortPending := false } : State).command (checkOf i s) c
        (({ s with abortPending := false } : State).settle d use))
    (hd : LeavesSuffix s.entropy d) (huse : ∀ u v t, use u v = .next t → t.entropy = u.entropy)
    (ht : t.entropy = (s.takeSome (if (checkOf i s).isSome then 0 else d.taken s.entropy)).entropy) :
    TakesWithinBound i s t := by
  cases hcheck : checkOf i s with
  | some f =>
    exact takesWithinBound_of_same i (by rw [ht, hcheck, Option.isSome_some, if_pos rfl, takeSome_zero])
  | none =>
    rw [hcheck, Option.isSome_none, if_neg Bool.false_ne_true] at ht
    refine ⟨ht ▸ takeSome_entropy_suffix s _, fun h => ?_, fun u hb hu hidle => ?_⟩
    · rcases h with h | h
      · exact absurd (hi.symm.trans h) Bool.noConfusion
      · exact absurd hcheck h
    · rw [hexec, hcheck, command_go rfl] at hu
      rw [ht]
      exact settle_leaves_within (s := { s with abortPending := false }) hd huse hb hidle hu s rfl

theorem finishGenkeys_entropy {ra rb rc : Reg} {s t : State} {pq : Nat × Nat}
    (h : finishGenkeys ra rb rc s pq = .next t) : t.entropy = s.entropy := by
  rcases finishGenkeys_cases h with ⟨-, rfl⟩ | ⟨-, rfl⟩
  · rfl
  · rfl

/-- R409: an abandoned command has taken no more than its bound. -/
theorem takesWithinBound_of_abandon {i : Instr} {s t : State} (ht : t.entropy = (abandonInstr i s).entropy) :
    TakesWithinBound i s t := by
  cases i with
  | ptest rb rounds =>
    exact takesWithinBound_of_draw rfl rfl (drawPtest_suffix rb rounds s) (fun _ _ _ h => by cases h; rfl) ht
  | genprime ra bits =>
    exact takesWithinBound_of_draw rfl rfl (drawGenprime_suffix bits s) (fun _ _ _ h => by cases h; rfl) ht
  | genkeys ra rb rc bits =>
    exact takesWithinBound_of_draw rfl rfl (drawGenkeys_suffix bits s) (fun _ _ _ h => finishGenkeys_entropy h) ht
  | _ => exact takesWithinBound_of_same _ ht

theorem cancelOf_entropy (i : Instr) (s : State) : (cancelOf i s).entropy = (abandonInstr i s).entropy := by
  cases i <;> rfl

/-! ### What a cancelled command leaves in the RAM and the counts (R410) -/

theorem cancelEncrypt_read {rc : Reg} {s : State} {a : Nat} (ha : ¬ (ctBase ≤ a ∧ a < ctAddr (s.encryptCount rc))) :
    (cancelEncrypt rc s).mem.read a = s.mem.read a :=
  Memory.read_redrawCt_of_not_mem s.mem (by unfold ctAddr at *; omega)

theorem cancelOf_ram {i : Instr} (s : State) (he : ∀ rb rc, i ≠ .encrypt rb rc) (hd : ∀ rb rc, i ≠ .decrypt rb rc) :
    (cancelOf i s).ctcount = s.ctcount ∧ (cancelOf i s).outlen = s.outlen ∧ (cancelOf i s).mem = s.mem := by
  have htake : ∀ n, (s.takeSome n).ctcount = s.ctcount ∧ (s.takeSome n).outlen = s.outlen ∧
      (s.takeSome n).mem = s.mem := fun n => ⟨takeSome_ctcount s n, takeSome_outlen s n, takeSome_mem s n⟩
  cases i with
  | ptest rb rounds => exact htake _
  | genprime ra bits => exact htake _
  | genkeys ra rb rc bits => exact htake _
  | encrypt rb rc => exact absurd rfl (he rb rc)
  | decrypt rb rc => exact absurd rfl (hd rb rc)
  | _ => exact ⟨rfl, rfl, rfl⟩

/-- Settles O36: the state is the one that `cancelOf` makes, with the record of a cancelled command. -/
theorem cancelledEffects : Obligations.CancelledEffects := by
  intro i s hcheck ha
  have hexec := exec_of_abort hcheck ha
  have hregs : SameRegs s (cancelOf i s) := by
    rw [cancelOf_eq]
    exact fun _ => ⟨rfl, rfl⟩
  have hprime : (cancelOf i s).prime = s.prime := by rw [cancelOf_eq]
  have hblk : (cancelOf i s).blksize = s.blksize := by rw [cancelOf_eq]
  refine ⟨_, hexec, rfl, rfl, rfl, rfl, rfl, rfl, rfl, hregs, exec_kept hexec, hprime, hblk,
    takesWithinBound_of_abandon (cancelOf_entropy i s), ?_, ?_, fun he hd => ?_⟩
  · rintro rb rc rfl
    exact ⟨rfl, rfl, fun a ha => cancelEncrypt_read ha⟩
  · rintro rb rc rfl
    exact ⟨rfl, rfl, fun a ha => cancelDecrypt_read ha⟩
  · obtain ⟨hcnt, hlen, hmem⟩ := cancelOf_ram s he hd
    exact ⟨hcnt, hlen, fun a => congrArg (·.read a) hmem⟩

end Sys2Proof.Machine

namespace Sys2Proof.Machine

/-! ### A draw answers the same when more pairs follow (R409) -/

/-- The answer d, with `later` behind the pairs it left. -/
def Draw.followedBy {α : Type} (d : Draw α) (later : List EntropyPair) : Draw α :=
  match d with
  | .got v rest => .got v (rest ++ later)
  | .failed sub rest => .failed sub (rest ++ later)
  | .starved => .starved

/-- If the draw d answers, then d' is its answer with `later` behind the pairs it left. -/
def SameAnswer {α : Type} (later : List EntropyPair) (d d' : Draw α) : Prop := d ≠ .starved → d' = d.followedBy later

namespace SameAnswer

variable {α β : Type} {later : List EntropyPair}

theorem starved (d' : Draw α) : SameAnswer later .starved d' := fun h => absurd rfl h

theorem answer (d : Draw α) : SameAnswer later d (d.followedBy later) := fun _ => rfl

theorem bind {d d' : Draw α} {f g : α → List EntropyPair → Draw β} (hd : SameAnswer later d d')
    (hf : ∀ v rest, SameAnswer later (f v rest) (g v (rest ++ later))) :
    SameAnswer later (d.bind f) (d'.bind g) := by
  cases d with
  | got v rest =>
    rw [hd nofun]
    exact hf v rest
  | failed sub rest =>
    rw [hd nofun]
    exact answer (.failed sub rest)
  | starved => exact starved _

end SameAnswer

variable (later : List EntropyPair)

theorem takeWord_append (ps : List EntropyPair) : SameAnswer later (takeWord ps) (takeWord (ps ++ later)) := by
  cases ps with
  | nil => exact .starved _
  | cons p rest =>
    rw [List.cons_append, takeWord, takeWord]
    split
    · exact .answer (.got _ _)
    · exact .answer (.failed _ _)

theorem entropyInt_append (k : Nat) (ps : List EntropyPair) :
    SameAnswer later (entropyInt k ps) (entropyInt k (ps ++ later)) := by
  induction k generalizing ps with
  | zero => exact .answer (.got _ _)
  | succ k ih => exact (takeWord_append later ps).bind fun w rest => (ih rest).bind fun v rest' => .answer (.got _ _)

theorem mrBase_append (n : Nat) (ps : List EntropyPair) :
    SameAnswer later (mrBase n ps) (mrBase n (ps ++ later)) :=
  (entropyInt_append later _ ps).bind fun _ _ => .answer (.got _ _)

theorem mrRounds_append (n s t k : Nat) (ps : List EntropyPair) :
    SameAnswer later (mrRounds n s t k ps) (mrRounds n s t k (ps ++ later)) := by
  induction k generalizing ps with
  | zero => exact .answer (.got _ _)
  | succ k ih =>
    refine (mrBase_append later n ps).bind fun a rest => ?_
    split
    · exact ih rest
    · exact .answer (.got _ _)

theorem mrTest_append (n k : Nat) (ps : List EntropyPair) :
    SameAnswer later (mrTest n k ps) (mrTest n k (ps ++ later)) := by
  unfold mrTest
  split_ifs
  · exact .answer (.got _ _)
  · exact .answer (.got _ _)
  · exact .answer (.got _ _)
  · exact mrRounds_append later _ _ _ _ _

/-- The longer list of pairs comes with more fuel, which an answer does not depend on either. -/
theorem genPrimeFrom_append (p : Params) (bits : Nat) {fuel fuel' : Nat} (hf : fuel ≤ fuel') (att : Nat)
    (ps : List EntropyPair) :
    SameAnswer later (genPrimeFrom p bits fuel att ps) (genPrimeFrom p bits fuel' att (ps ++ later)) := by
  induction fuel generalizing fuel' att ps with
  | zero => exact .starved _
  | succ fuel ih =>
    obtain ⟨fuel', rfl⟩ := Nat.exists_eq_add_one_of_ne_zero (by omega : fuel' ≠ 0)
    rw [genPrimeFrom, genPrimeFrom]
    split
    · exact .answer (.failed _ _)
    · refine (entropyInt_append later _ ps).bind fun r rest => (mrTest_append later _ _ rest).bind fun pass rest' => ?_
      split
      · exact .answer (.got _ _)
      · exact ih (by omega) _ _

theorem genPrime_append (p : Params) (bits : Nat) (ps : List EntropyPair) :
    SameAnswer later (genPrime p bits ps) (genPrime p bits (ps ++ later)) :=
  genPrimeFrom_append later p bits (by simp) 0 ps

/-! ### A command answers the same when more pairs follow (R409) -/

/-- The state s with `later` delivered behind its pairs. -/
def State.followedBy (s : State) (later : List EntropyPair) : State := { s with entropy := s.entropy ++ later }

theorem drawGenkeys_append (bits : BitVec 12) (s : State) :
    SameAnswer later (drawGenkeys bits s) (drawGenkeys bits (s.followedBy later)) :=
  (genPrime_append later _ _ _).bind fun _ _ => (genPrime_append later _ _ _).bind fun _ _ => .answer (.got _ _)

/-- Where `go` completes, `go'` completes in the same state with `later` behind its pairs. -/
def SameCompletion (later : List EntropyPair) (go go' : Result) : Prop :=
  ∀ t, go = .next t → t.busy = false → go' = .next (t.followedBy later)

variable {later}

theorem SameCompletion.next (t : State) : SameCompletion later (.next t) (.next (t.followedBy later)) :=
  fun _ h _ => by cases h; rfl

theorem SameCompletion.ite {c : Prop} [Decidable c] {go₁ go₁' go₂ go₂' : Result} (h₁ : SameCompletion later go₁ go₁')
    (h₂ : SameCompletion later go₂ go₂') :
    SameCompletion later (if c then go₁ else go₂) (if c then go₁' else go₂') := by
  split
  · exact h₁
  · exact h₂

theorem command_append {s c c' : State} {check : Option Failure} {go go' : Result} (ha : s.abortPending = false)
    (hgo : SameCompletion later go go') :
    SameCompletion later (s.command check c go) ((s.followedBy later).command check c' go') := by
  cases check with
  | some f => exact .next (s.raise f)
  | none =>
    have ha' : (s.followedBy later).abortPending = false := ha
    rw [command_go ha, command_go ha']
    exact hgo

theorem settle_append {α : Type} {s : State} {d d' : Draw α} {use : State → α → Result} (hb : s.busy = true)
    (hd : SameAnswer later d d') (huse : ∀ u v, SameCompletion later (use u v) (use (u.followedBy later) v)) :
    SameCompletion later (s.settle d use) ((s.followedBy later).settle d' use) := by
  cases d with
  | got v rest =>
    rw [hd nofun]
    exact huse { s with entropy := rest } v
  | failed sub rest =>
    rw [hd nofun]
    exact .next (({ s with entropy := rest } : State).raise ⟨.generationFailed, sub, 0⟩)
  | starved =>
    intro t h ht
    cases h
    exact absurd (hb.symm.trans ht) Bool.noConfusion

theorem writeCts_followedBy (s : State) (later : List EntropyPair) (i : Nat) (vs : List Nat) :
    (s.followedBy later).writeCts i vs = (s.writeCts i vs).followedBy later := by
  induction vs generalizing s i with
  | nil => rfl
  | cons v vs ih => exact ih (s.writeCt i v) (i + 1)

theorem finishDecrypt_followedBy (s : State) (later : List EntropyPair) (pt : List Byte) :
    (s.followedBy later).finishDecrypt pt = (s.finishDecrypt pt).followedBy later := by
  rcases finishDecrypt_cases s pt with ⟨hlong, h⟩ | ⟨hfits, h⟩
  · rw [h]
    exact if_pos hlong
  · rw [h]
    exact if_neg hfits.not_gt

theorem finishGenkeys_append (ra rb rc : Reg) (pq : Nat × Nat) (u : State) :
    SameCompletion later (finishGenkeys ra rb rc u pq) (finishGenkeys ra rb rc (u.followedBy later) pq) :=
  .ite (.next (u.raise _)) (.next (u.writeKeys ra rb rc pq.1 pq.2).succeed)

theorem exec_append (i : Instr) {s : State} (hb : s.busy = true) (ha : s.abortPending = false) :
    SameCompletion later (exec i s) (exec i (s.followedBy later)) := by
  cases i with
  | nop =>
    rw [exec_nop, exec_nop]
    exact command_append ha (.next s.succeed)
  | modinv ra rb rc =>
    exact command_append ha (.ite (.next (s.raise _)) (.next (s.writeReg ra _).succeed))
  | modexp ra rb rc rd => exact command_append ha (.next (s.writeReg ra _).succeed)
  | ptest rb rounds =>
    exact command_append ha (settle_append hb (mrTest_append later _ _ _) fun u v =>
      .next ({ u with prime := v } : State).succeed)
  | genprime ra bits =>
    exact command_append ha (settle_append hb (genPrime_append later _ _ _) fun u v => .next (u.writeReg ra v).succeed)
  | genkeys ra rb rc bits =>
    exact command_append ha (settle_append hb (drawGenkeys_append later bits s) fun u pq =>
      finishGenkeys_append ra rb rc pq u)
  | encrypt rb rc =>
    refine command_append ha ?_
    rw [writeCts_followedBy]
    exact .next (State.succeed _)
  | decrypt rb rc =>
    refine command_append ha ?_
    rw [finishDecrypt_followedBy]
    exact .next (s.finishDecrypt (s.plaintext rb rc))

/-- Settles O24: a completion is the same with more pairs behind, and it leaves a suffix of the stream. -/
theorem outcomeIgnoresLaterPairs : Obligations.OutcomeIgnoresLaterPairs := fun i _ t _ hb ha h ht =>
  ⟨exec_append i hb ha t h ht, exec_entropy_suffix h⟩

end Sys2Proof.Machine

namespace Sys2Proof.Machine

/-! ### What an abandoned command leaves, by what was running (R453) -/

theorem abandon_of_idle {s : State} (h : s.run = .idle) : s.abandon = s := by
  rw [State.abandon, h]

theorem abandon_of_illegal {s : State} {w : Word} {e : Illegal} (hr : s.run = .running w)
    (hd : decode w = .error e) : s.abandon = s := by
  simp only [State.abandon, hr, hd]

theorem abandon_of_legal {s : State} {w : Word} {i : Instr} (hr : s.run = .running w) (hd : decode w = .ok i) :
    s.abandon = abandonInstr i s := by
  simp only [State.abandon, hr, hd]

/-- R453: a reset abandons the running command with changes of memory, the entropy stream and the draw counter only. -/
theorem abandon_eq (s : State) : s.abandon = { s with
    mem := s.abandon.mem, entropy := s.abandon.entropy, draws := s.abandon.draws } := by
  rcases abandon_cases s with h | ⟨w, i, -, -, h⟩
  · rw [h]
  · rw [h]
    exact abandonInstr_eq i s

theorem takeSome_script_update (s : State) (rest : List Event) (n : Nat) :
    ({ s with script := rest } : State).takeSome n = { s.takeSome n with script := rest } := by
  unfold State.takeSome
  split <;> rfl

/-- What is abandoned does not depend on the moves to come. -/
theorem abandonInstr_script_update (i : Instr) (s : State) (rest : List Event) :
    abandonInstr i { s with script := rest } = { abandonInstr i s with script := rest } := by
  cases i with
  | ptest rb rounds => exact takeSome_script_update s rest _
  | genprime ra bits => exact takeSome_script_update s rest _
  | genkeys ra rb rc bits => exact takeSome_script_update s rest _
  | _ => rfl

theorem abandon_script_update (s : State) (rest : List Event) :
    ({ s with script := rest } : State).abandon = { s.abandon with script := rest } := by
  obtain ⟨run, hr⟩ : ∃ run, s.run = run := ⟨_, rfl⟩
  cases run with
  | idle => rw [abandon_of_idle hr, abandon_of_idle (s := { s with script := rest }) hr]
  | running w =>
    cases hd : decode w with
    | error e => rw [abandon_of_illegal hr hd, abandon_of_illegal (s := { s with script := rest }) hr hd]
    | ok i =>
      rw [abandon_of_legal hr hd, abandon_of_legal (s := { s with script := rest }) hr hd, abandonInstr_script_update]

/-- R409: a reset takes from the stream what the abandoned command took, within its bound. -/
theorem resetTakesWithinBound_of_abandon {s t : State} (ht : t.entropy = s.abandon.entropy) :
    ResetTakesWithinBound s t := by
  refine ⟨fun hr => ?_, fun w e hr hd => ?_, fun w i hr hd => takesWithinBound_of_abandon ?_⟩
  · rw [ht, abandon_of_idle hr]
  · rw [ht, abandon_of_illegal hr hd]
  · rw [ht, abandon_of_legal hr hd]

theorem abandon_entropy_suffix (s : State) : s.abandon.entropy <:+ s.entropy := by
  rcases abandon_cases s with h | ⟨w, i, -, -, h⟩
  · rw [h]
  · rw [h]
    exact (takesWithinBound_of_abandon rfl : TakesWithinBound i s (abandonInstr i s)).1

/-- R453: an ENCRYPT leaves every byte outside the slots of its blocks, clipped to CTSLOTS (log entry 9). -/
theorem abandonInstr_encrypt_read (rb : Reg) {rc : Reg} {s : State} {a : Nat}
    (ha : ¬ (ctBase ≤ a ∧ a < ctAddr (min (s.encryptCount rc) s.params.ctSlots))) :
    (abandonInstr (.encrypt rb rc) s).mem.read a = s.mem.read a :=
  Memory.read_redrawCt_of_not_mem s.mem (by unfold ctAddr at *; omega)

/-- R452, R453: a command that is no ENCRYPT and no DECRYPT leaves the whole RAM. -/
theorem abandonInstr_mem {i : Instr} (s : State) (he : ∀ rb rc, i ≠ .encrypt rb rc)
    (hd : ∀ rb rc, i ≠ .decrypt rb rc) : (abandonInstr i s).mem = s.mem := by
  obtain ⟨-, -, hmem⟩ := cancelOf_ram s he hd
  cases i with
  | encrypt rb rc => exact absurd rfl (he rb rc)
  | decrypt rb rc => exact absurd rfl (hd rb rc)
  | _ => exact hmem

/-! ### The state after a reset (R450, R452) -/

theorem softReset_eq (s : State) : s.softReset = { State.resetWith s.params with
    mem := s.abandon.mem, entropy := s.abandon.entropy, script := s.script, bus := s.bus,
    draws := s.abandon.draws } := by
  rw [State.softReset, State.resetRegisters, abandon_eq]

theorem hardReset_eq (s : State) : s.hardReset = { State.resetWith s.params with
    mem := Memory.blank s.params (s.abandon.draws + 1), entropy := s.abandon.entropy, script := s.script,
    draws := s.abandon.draws + 1 } := by
  rw [State.hardReset, softReset_eq]
  rfl

/-- Settles O43: reset values with a blank memory. -/
theorem resetMeetsTheInvariant : Obligations.ResetMeetsTheInvariant := by
  have hreset : ∀ p : Params, p.Legal → Inv (State.resetWith p) := fun p hl => Inv.of_reset hl (MemoryInv.blank p 0)
  exact ⟨hreset _ (by decide), hreset⟩

/-- Settles O48: the reset values, and `hardReset_eq` for the step. -/
theorem hardResetValues : Obligations.HardResetValues := by
  refine ⟨fun p k => ⟨?_, ?_⟩, fun p => ⟨rfl, rfl, rfl, rfl, rfl, rfl, rfl, rfl, rfl, rfl, rfl, rfl⟩,
    fun s rest hl hs => ⟨_, step_event hl hs, ?_⟩⟩
  · simp [State.reg, State.resetWith]
  · simp [State.isValid, State.resetWith]
  · rw [hardReset_eq, abandon_script_update]
    exact ⟨rfl, abandon_entropy_suffix s, resetTakesWithinBound_of_abandon rfl, rfl⟩

/-- Settles O49: `softReset_eq`, and what each command leaves in the RAM when it is abandoned. -/
theorem softResetKeepsTheRam : Obligations.SoftResetKeepsTheRam := by
  intro s v rest hl hs hv
  have hstep := step_writeCsr hl hs (c := .ctrl) rfl (Or.inr rfl)
  rw [State.writeCsr, State.writeCtrl, if_pos hv, softReset_eq, abandon_script_update] at hstep
  refine ⟨_, hstep, abandon_entropy_suffix s, resetTakesWithinBound_of_abandon rfl, rfl, fun hb => ?_,
    fun w e hr hd => ?_, fun w i hr hd => ?_⟩
  · have hidle : s.run = .idle := by simpa [State.busy] using hb
    rw [abandon_of_idle hidle]
    exact ⟨rfl, rfl⟩
  · rw [abandon_of_illegal hr hd]
    exact ⟨rfl, rfl⟩
  · rw [abandon_of_legal hr hd]
    refine ⟨?_, ?_, abandonInstr_mem s⟩
    · rintro rb rc rfl a ha
      exact abandonInstr_encrypt_read rb ha
    · rintro rb rc rfl a ha
      exact Memory.read_redrawOut_of_not_mem s.mem ha

end Sys2Proof.Machine

namespace Sys2Proof.Machine

/-! ### PTEST of a prime (R204) -/

/-- Settles O13: the test of a prime by `mrTest_prime`. -/
theorem ptestPassesEveryPrime : Obligations.PtestPassesEveryPrime := by
  rintro rb rounds s k ws rest hv ha hp rfl hw he
  refine exec_ptest_got hv ha ?_
  rw [he]
  exact mrTest_prime hp hw rest

/-! ### What GENPRIME's result is (R222) -/

theorem candidate_odd (bits r : Nat) : candidate bits r % 2 = 1 := by
  have hbit : (candidate bits r).testBit 0 = true := by simp [candidate]
  simpa using hbit

/-- R221: what the generator's loop gives is a candidate that passed its test, on pairs of the stream. -/
theorem genPrimeFrom_got_passes {p : Params} {bits fuel att c : Nat} {ps rest : List EntropyPair}
    (h : genPrimeFrom p bits fuel att ps = .got c rest) :
    ∃ r qs, c = candidate bits r ∧ qs <:+ ps ∧ mrTest c p.mrRounds qs = .got true rest := by
  induction fuel generalizing att ps with
  | zero => cases h
  | succ fuel ih =>
    rw [genPrimeFrom] at h
    split at h
    · cases h
    · obtain ⟨r, qs, hr, h⟩ := Draw.bind_eq_got h
      obtain ⟨pass, mid, htest, h⟩ := Draw.bind_eq_got h
      have hqs : qs <:+ ps := (entropyInt_suffix _ ps).1 r qs hr
      have hmid : mid <:+ qs := (mrTest_suffix _ _ qs).1 pass mid htest
      cases pass with
      | true => cases h; exact ⟨r, qs, rfl, hqs, htest⟩
      | false =>
        obtain ⟨r', qs', hc, hqs', hpass⟩ := ih h
        exact ⟨r', qs', hc, (hqs'.trans hmid).trans hqs, hpass⟩

/-- A number with its top bit at k has k + 1 bits (R14). -/
theorem bitLen_eq_succ {x k : Nat} (hlo : 2 ^ k ≤ x) (hhi : x < 2 ^ (k + 1)) : bitLen x = k + 1 :=
  le_antisymm ((bitLen_le_iff x _).2 hhi) ((succ_le_bitLen_iff x k).2 hlo)

/-- R222: a candidate has exactly `bits` bits, its top two set. -/
theorem candidate_shape {bits : Nat} (hb : 2 ≤ bits) (r : Nat) :
    2 ^ (bits - 1) + 2 ^ (bits - 2) ≤ candidate bits r ∧ candidate bits r < 2 ^ bits ∧
      bitLen (candidate bits r) = bits := by
  obtain ⟨hlo, hhi⟩ := candidate_bounds hb r
  obtain ⟨k, rfl⟩ := Nat.exists_eq_add_of_le' hb
  have htop : 2 ^ (k + 1) = 2 * 2 ^ k := pow_succ' 2 k
  simp only [Nat.add_sub_cancel, show k + 2 - 1 = k + 1 by omega] at hlo ⊢
  exact ⟨by omega, hhi, bitLen_eq_succ (by omega) hhi⟩

/-- R220: a GENPRIME that completes without error wrote the number that its draw gave. -/
theorem exec_genprime_completed {ra : Reg} {bits : BitVec 16} {s t : State} (hb : s.busy = true)
    (h : exec (.genprime ra bits) s = .next t) (ht : t.busy = false) (hok : t.errcode = .noError) :
    2 ≤ bits.toNat ∧ ∃ c rest, genPrime s.params bits.toNat s.entropy = .got c rest ∧
      t = (({ s with entropy := rest } : State).writeReg ra c).succeed := by
  rcases execGenprime_cases h with ⟨f, hf, rfl⟩ | ⟨-, -, rfl⟩ | ⟨hcheck, -, hdraw⟩
  · exact absurd hok (checkOf_isErrorCheck (.genprime ra bits) s f hf)
  · cases hok
  · obtain ⟨h2, -⟩ := (checkGenprime_eq_none_iff bits s).1 hcheck
    rcases hdraw with hgot | ⟨sub, rest, -, rfl⟩ | ⟨-, rfl⟩
    · exact ⟨h2, hgot⟩
    · cases hok
    · exact absurd (hb.symm.trans ht) Bool.noConfusion

/-- Settles O17: the number written is a candidate that passed, by `genPrimeFrom_got_passes`. -/
theorem genprimeResultShape : Obligations.GenprimeResultShape := by
  intro ra bits s t hb h ht hok
  obtain ⟨h2, c, rest, hgot, rfl⟩ := exec_genprime_completed hb h ht hok
  obtain ⟨r, qs, rfl, hqs, hpass⟩ := genPrimeFrom_got_passes hgot
  obtain ⟨hlo, hhi, hlen⟩ := candidate_shape h2 r
  rw [succeed_eq, reg_complete, isValid_complete, reg_writeReg, isValid_writeReg, if_pos rfl, if_pos rfl]
  exact ⟨rfl, candidate_odd _ _, hlo, hhi, hlen, qs, hqs, hpass⟩

/-! ### The length of GENKEYS's modulus (R264) -/

/-- R264: the product of two h-bit numbers with their top two bits set. -/
theorem mul_bounds_of_top_bits {h p q : Nat} (hh : 2 ≤ h) (hp : 3 * 2 ^ (h - 2) ≤ p ∧ p < 2 ^ h)
    (hq : 3 * 2 ^ (h - 2) ≤ q ∧ q < 2 ^ h) : 9 * 2 ^ (2 * h - 4) ≤ p * q ∧ p * q < 2 ^ (2 * h) := by
  constructor
  · calc 9 * 2 ^ (2 * h - 4) = 3 * 2 ^ (h - 2) * (3 * 2 ^ (h - 2)) := by
          rw [show 2 * h - 4 = (h - 2) + (h - 2) by omega, pow_add]
          ring
      _ ≤ p * q := Nat.mul_le_mul hp.1 hq.1
  · rw [two_mul, pow_add]
    exact Nat.mul_lt_mul'' hp.2 hq.2

/-- R264: nine times 2^(2h - 4) is past 2^(2h - 1), so no bit of the length is lost. -/
theorem bitLen_of_modulus_bounds {h n : Nat} (hh : 2 ≤ h) (hlo : 9 * 2 ^ (2 * h - 4) ≤ n) (hhi : n < 2 ^ (2 * h)) :
    bitLen n = 2 * h := by
  obtain ⟨k, rfl⟩ := Nat.exists_eq_add_of_le' hh
  rw [show 2 * (k + 2) - 4 = 2 * k by omega] at hlo
  have htop : 2 ^ (2 * k + 3) = 2 ^ (2 * k) * 8 := pow_add 2 _ 3
  exact bitLen_eq_succ (k := 2 * k + 3) (by omega) hhi

theorem blockSize_of_bitLen {n k : Nat} (h : bitLen n = k) : blockSize n = (k / 8 : Nat) - 11 := by
  rw [blockSize, h]
  rfl

/-- Settles O21: the bounds of the two primes by `genPrime_got_bounds`, and the block sizes of the lengths they give. -/
theorem genkeysModulusLength : Obligations.GenkeysModulusLength := by
  intro pr h p q ps r1 r2 hh hp hq
  have hpb := genPrime_got_bounds hh hp
  have hqb := genPrime_got_bounds hh hq
  obtain ⟨hlo, hhi⟩ := mul_bounds_of_top_bits hh hpb hqb
  have hlen := bitLen_of_modulus_bounds hh hlo hhi
  have hsize := blockSize_of_bitLen hlen
  refine ⟨hpb.1, hpb.2, hqb.1, hqb.2, hlo, hhi, hlen, ?_, ?_⟩
  · rintro rfl
    exact hsize
  · rintro rfl
    refine ⟨hsize, fun s rb rc hb hc hn => exec_encrypt_keyTooSmall hb hc ?_⟩
    rw [hn, hsize]
    decide

end Sys2Proof.Machine

namespace Sys2Proof.Machine

/-! ### The values of message blocks (R303) -/

/-- Settles O28: the byte strings by their length, the blocks of a message as such byte strings. -/
theorem blocksAreBelowTheModulus : Obligations.BlocksAreBelowTheModulus :=
  ⟨fun _ _ h => beValue_lt_of_length_le_blockSize h, fun _ _ _ i h => beValue_messageBytes_lt h i⟩

/-! ### The empty message and the empty sequence (R306, R334) -/

/-- R306: an empty message has no block. -/
theorem encryptCount_of_empty {rc : Reg} {s : State} (hlen : s.msglen = 0) : s.encryptCount rc = 0 := by
  rw [State.encryptCount]
  split
  · rfl
  · have hpos : 0 < s.encryptSize rc := by unfold State.encryptSize; omega
    rw [blockCount, ceilDiv_eq_zero_iff hpos, hlen]
    rfl

/-- R334: an empty sequence has an empty plaintext. -/
theorem plaintext_of_empty {s : State} (hcnt : s.ctcount = 0) (rb rc : Reg) : s.plaintext rb rc = [] := by
  rw [State.plaintext, hcnt]
  rfl

/-- Settles O32: no block to encrypt or decrypt, so the checks of sizes pass and the writes are of no byte. -/
theorem emptyMessageAndSequence : Obligations.EmptyMessageAndSequence := by
  refine ⟨fun rb rc s hb hc hn hlen ha => ?_, fun rb rc s hb hc hn hcnt ha => ?_⟩
  · have hcount : s.encryptCount rc = 0 := encryptCount_of_empty hlen
    have hcheck : checkEncrypt rb rc s = none :=
      (checkEncrypt_eq_none_iff rb rc s).2 ⟨hb, hc, (blockSize_pos_iff _).2 hn, by simp [hlen], by simp [hcount]⟩
    have hnone : s.ciphertexts rb rc = [] := by rw [State.ciphertexts, hcount]; rfl
    refine ⟨_, exec_encrypt hcheck ha, ?_, fun a => ?_, succeeded_succeed _⟩
    · exact congrArg (BitVec.ofNat 32) hcount
    · rw [State.encrypted, hnone]
      rfl
  · have hcheck : checkDecrypt rb rc s = none :=
      (checkDecrypt_eq_none_iff rb rc s).2 ⟨hb, hc, hn, by simp [hcnt], by simp [hcnt]⟩
    have hplain := plaintext_of_empty hcnt rb rc
    have hexec := exec_decrypt hcheck ha (by simp [hplain])
    rw [hplain] at hexec
    exact ⟨_, hexec, rfl, fun a => Memory.read_writeBytes_of_not_mem s.mem (by simp), succeeded_succeed _⟩

end Sys2Proof.Machine
